-- ==== Sys2Proof/Word.lean ====
section
/-! DEFINITION. The engine's basic types: the 64-bit word (00_scope.md R7), the byte (R11), the bit sequence
(R13) and the 4-bit register index of a command field (30_encoding.md R121). -/

namespace Sys2Proof

/-- A word: 64 bits, `w[63]` the most significant (00_scope.md R7, R11). -/
abbrev Word := BitVec 64

/-- A byte: 8 bits; its unsigned value is `toNat`, its signed value `toInt` (R11). -/
abbrev Byte := BitVec 8

/-- A bit sequence, index 0 first (R13). -/
abbrev BitSeq := List Bool

/-- A register field of a command word: an unsigned 4-bit index (30_encoding.md R122). -/
abbrev RegIx := BitVec 4

end Sys2Proof
end

