-- ==== Sys2Proof/Config.lean ====
section
/-! DEFINITION. The named parameters of the engine (00_scope.md R8), their ranges and reference values, and the
free values: what a host read returns where the spec says "any value" (93_implementation_defined.md I3, I4). -/

namespace Sys2Proof

/-- The parameters of 00_scope.md R8, in bits, bytes and host bus addresses. -/
structure Params where
  /-- `NBB`, the number of BitBuffer registers. -/
  nbb : Nat
  /-- `BB_CAP_BITS`, the capacity of each BitBuffer register in bits. -/
  bbCapBits : Nat
  /-- `IN_CAP`, the size of IN in bytes. -/
  inCap : Nat
  /-- `OUT_CAP`, the size of OUT in bytes. -/
  outCap : Nat
  /-- `REG_BASE`, the host bus address of the register window. -/
  regBase : Nat
  /-- `IN_BASE`, the host bus address of the IN window. -/
  inBase : Nat
  /-- `OUT_BASE`, the host bus address of the OUT window. -/
  outBase : Nat
  deriving DecidableEq, Repr

/-- The size of the register window in bytes (10_state.md R30). -/
def regWindowSize : Nat := 256

/-- The ranges 00_scope.md R8 gives the four capacities. -/
abbrev Params.inRange (p : Params) : Prop :=
  1 ≤ p.nbb ∧ p.nbb ≤ 16 ∧
  256 ≤ p.bbCapBits ∧ p.bbCapBits ≤ 2 ^ 32 ∧ p.bbCapBits % 64 = 0 ∧
  16 ≤ p.inCap ∧ p.inCap < 2 ^ 56 ∧ p.inCap % 8 = 0 ∧
  16 ≤ p.outCap ∧ p.outCap < 2 ^ 60 ∧ p.outCap % 8 = 0

/-- Two address ranges share no address. -/
abbrev rangesApart (a n b m : Nat) : Prop := a + n ≤ b ∨ b + m ≤ a

/-- The platform places the three windows apart (20_memory.md R81 gives three address spaces; that their
placements do not overlap is DEDUCED, assumption 8). -/
abbrev Params.windowsApart (p : Params) : Prop :=
  rangesApart p.regBase regWindowSize p.inBase p.inCap ∧
  rangesApart p.regBase regWindowSize p.outBase p.outCap ∧
  rangesApart p.inBase p.inCap p.outBase p.outCap

/-- A configuration the spec admits. -/
abbrev Params.valid (p : Params) : Prop := p.inRange ∧ p.windowsApart

/-- The reference values of 00_scope.md R8. The three bases are OPEN there: the values here are a DESIGN CHOICE
(assumption 8). -/
def Params.reference : Params where
  nbb := 4
  bbCapBits := 65536
  inCap := 2 ^ 20
  outCap := 2 ^ 23
  regBase := 0
  inBase := 2 ^ 28
  outBase := 2 ^ 29

/-- The host's reference block size (00_scope.md R10, 93_implementation_defined.md I10): a setting of the host. -/
def defaultBlockSize : Nat := 1000000

/-- The byte a host read returns where the spec says "any byte" (I3, I4): free, one per draw. -/
opaque Config.freeByte : Nat → Byte

/-- The word a host read of OUT_LEN or RESULT returns while BUSY (I3): free, one per draw. -/
opaque Config.freeWord : Nat → Word

end Sys2Proof
end

