-- ==== Sys2Proof/Syntax.lean ====
section
/-! DEFINITION. The commands of the engine (30_encoding.md R124): one constructor per row of the opcode table,
and the pseudo-instructions of R129 with the commands they stand for. -/

namespace Sys2Proof

/-- A command. Register operands are the 4-bit fields of R121, the bit of BB.SINGLE is `imm8[0]`, the symbol of
HUF.CODE is `imm8`. -/
inductive Instr where
  | nop
  | bbClear (rd : RegIx)
  | bbSingle (rd : RegIx) (v : Bool)
  | bbAppend (rd rs1 : RegIx)
  | bbBitat (rs1 : RegIx)
  | bbEq (rs1 rs2 : RegIx)
  | bbStore (rs1 : RegIx)
  | bbLoad (rd : RegIx)
  | hufEnc
  | hufDec
  | hufFreq
  | hufCode (rd : RegIx) (sym : Byte)
  | lzwEnc
  | lzwDec
  | lzwCodes
  | lzwPack
  | lzwUnpack
  | lzwExpand
  deriving DecidableEq, Repr

/-- The register fields a command uses, in field order rd, rs1, rs2 (R124, column "fields used"). -/
def Instr.registers : Instr → List RegIx
  | .nop => []
  | .bbClear rd => [rd]
  | .bbSingle rd _ => [rd]
  | .bbAppend rd rs1 => [rd, rs1]
  | .bbBitat rs1 => [rs1]
  | .bbEq rs1 rs2 => [rs1, rs2]
  | .bbStore rs1 => [rs1]
  | .bbLoad rd => [rd]
  | .hufEnc => []
  | .hufDec => []
  | .hufFreq => []
  | .hufCode rd _ => [rd]
  | .lzwEnc => []
  | .lzwDec => []
  | .lzwCodes => []
  | .lzwPack => []
  | .lzwUnpack => []
  | .lzwExpand => []

/-- The pseudo-instructions of R129. -/
inductive Pseudo where
  | bbEmpty (d : RegIx)
  | bbCopy (d s : RegIx)
  | bbConcat (d a b : RegIx)
  | bbDouble (d : RegIx)
  deriving DecidableEq, Repr

/-- The commands a pseudo-instruction stands for; none where R129's side condition fails. -/
def Pseudo.expand : Pseudo → Option (List Instr)
  | .bbEmpty d => some [.bbClear d]
  | .bbCopy d s => if d = s then none else some [.bbClear d, .bbAppend d s]
  | .bbConcat d a b =>
    if d = b then none
    else if d = a then some [.bbAppend d b]
    else some [.bbClear d, .bbAppend d a, .bbAppend d b]
  | .bbDouble d => some [.bbAppend d d]

end Sys2Proof
end

