-- ==== Sys2Proof/WellFormed.lean ====
section
/-! DEFINITION. When a command is well formed for a configuration: every register field it uses names a
register that exists (30_encoding.md R122). A command that is not well formed still has a meaning: it ends with
BAD_REGISTER (60_exceptions.md R331). Every other legality rule of the encoding (R123) is the decoder's: the
types of `Instr` leave no other ill-formed term. -/

namespace Sys2Proof

/-- Every register field the command uses is below NBB. -/
def Instr.wellFormed (nbb : Nat) (i : Instr) : Bool :=
  i.registers.all fun r => decide (r.toNat < nbb)

end Sys2Proof
end

