-- ==== Sys2Proof/Decode.lean ====
section
/-! DEFINITION. The command word (30_encoding.md R120 to R126): its fields, the opcode map with match and mask as
R124 prints them, the decoder (total; it refuses by name), and the encoder, written from R121's formula. -/

namespace Sys2Proof

/-! ### Fields of format C (R121) -/

/-- `op`, bits 7:0. -/
def opField (c : Word) : Byte := c.extractLsb' 0 8
/-- `rd`, bits 11:8. -/
def rdField (c : Word) : RegIx := c.extractLsb' 8 4
/-- `rs1`, bits 15:12. -/
def rs1Field (c : Word) : RegIx := c.extractLsb' 12 4
/-- `rs2`, bits 19:16. -/
def rs2Field (c : Word) : RegIx := c.extractLsb' 16 4
/-- `imm8`, bits 27:20. -/
def imm8Field (c : Word) : Byte := c.extractLsb' 20 8

/-! ### The opcode map (R124) -/

/-- One row of R124: the opcode, its match and mask words, and the command a selecting word stands for. -/
structure OpcodeRow where
  mnemonic : String
  opcode : Byte
  matchWord : Word
  mask : Word
  build : Word → Instr

/-- The rows of R124, part 1: NOP and the BitBuffer commands. -/
def bitBufferRows : List OpcodeRow :=
  [ ⟨"NOP", 0x00, 0x0000000000000000, 0xFFFFFFFFFFFFFFFF, fun _ => .nop⟩,
    ⟨"BB.CLEAR", 0x01, 0x0000000000000001, 0xFFFFFFFFFFFFF0FF, fun c => .bbClear (rdField c)⟩,
    ⟨"BB.SINGLE", 0x02, 0x0000000000000002, 0xFFFFFFFFFFEFF0FF,
      fun c => .bbSingle (rdField c) ((imm8Field c).getLsbD 0)⟩,
    ⟨"BB.APPEND", 0x03, 0x0000000000000003, 0xFFFFFFFFFFFF00FF, fun c => .bbAppend (rdField c) (rs1Field c)⟩,
    ⟨"BB.BITAT", 0x04, 0x0000000000000004, 0xFFFFFFFFFFFF0FFF, fun c => .bbBitat (rs1Field c)⟩,
    ⟨"BB.EQ", 0x05, 0x0000000000000005, 0xFFFFFFFFFFF00FFF, fun c => .bbEq (rs1Field c) (rs2Field c)⟩,
    ⟨"BB.STORE", 0x06, 0x0000000000000006, 0xFFFFFFFFFFFF0FFF, fun c => .bbStore (rs1Field c)⟩,
    ⟨"BB.LOAD", 0x07, 0x0000000000000007, 0xFFFFFFFFFFFFF0FF, fun c => .bbLoad (rdField c)⟩ ]

/-- The rows of R124, part 2: the Huffman commands. -/
def huffmanRows : List OpcodeRow :=
  [ ⟨"HUF.ENC", 0x10, 0x0000000000000010, 0xFFFFFFFFFFFFFFFF, fun _ => .hufEnc⟩,
    ⟨"HUF.DEC", 0x11, 0x0000000000000011, 0xFFFFFFFFFFFFFFFF, fun _ => .hufDec⟩,
    ⟨"HUF.FREQ", 0x12, 0x0000000000000012, 0xFFFFFFFFFFFFFFFF, fun _ => .hufFreq⟩,
    ⟨"HUF.CODE", 0x13, 0x0000000000000013, 0xFFFFFFFFF00FF0FF, fun c => .hufCode (rdField c) (imm8Field c)⟩ ]

/-- The rows of R124, part 3: the LZW commands. -/
def lzwRows : List OpcodeRow :=
  [ ⟨"LZW.ENC", 0x20, 0x0000000000000020, 0xFFFFFFFFFFFFFFFF, fun _ => .lzwEnc⟩,
    ⟨"LZW.DEC", 0x21, 0x0000000000000021, 0xFFFFFFFFFFFFFFFF, fun _ => .lzwDec⟩,
    ⟨"LZW.CODES", 0x22, 0x0000000000000022, 0xFFFFFFFFFFFFFFFF, fun _ => .lzwCodes⟩,
    ⟨"LZW.PACK", 0x23, 0x0000000000000023, 0xFFFFFFFFFFFFFFFF, fun _ => .lzwPack⟩,
    ⟨"LZW.UNPACK", 0x24, 0x0000000000000024, 0xFFFFFFFFFFFFFFFF, fun _ => .lzwUnpack⟩,
    ⟨"LZW.EXPAND", 0x25, 0x0000000000000025, 0xFFFFFFFFFFFFFFFF, fun _ => .lzwExpand⟩ ]

/-- The opcode map of R124, in its order. -/
def opcodeTable : List OpcodeRow := bitBufferRows ++ huffmanRows ++ lzwRows

/-- The word `c` selects the row: `c & mask = match` (R124). -/
def OpcodeRow.selects (r : OpcodeRow) (c : Word) : Bool := c &&& r.mask == r.matchWord

/-- Why a word selects no row. Both reasons are reported as ILLEGAL_COMMAND (60_exceptions.md R331). -/
inductive DecodeError where
  /-- The opcode is reserved (R125). -/
  | reservedOpcode (op : Byte)
  /-- The opcode is assigned, but a reserved bit, an unused field or `imm8[7:1]` of BB.SINGLE is not 0 (R123). -/
  | nonzeroUnusedField (op : Byte)
  deriving DecidableEq, Repr

/-- The decoder: the command of the row the word selects, or the reason it selects none (R126: total). -/
def decode (c : Word) : Except DecodeError Instr :=
  match opcodeTable.find? (·.selects c) with
  | some row => .ok (row.build c)
  | none =>
    if opcodeTable.any (·.opcode == opField c) then .error (.nonzeroUnusedField (opField c))
    else .error (.reservedOpcode (opField c))

/-! ### The encoder (R121, R124, R128) -/

/-- `c = op | (rd << 8) | (rs1 << 12) | (rs2 << 16) | (imm8 << 20)` (R121). -/
def formatC (op : Byte) (rd rs1 rs2 : RegIx) (imm8 : Byte) : Word :=
  op.setWidth 64 ||| (rd.setWidth 64 <<< 8) ||| (rs1.setWidth 64 <<< 12) ||| (rs2.setWidth 64 <<< 16) |||
    (imm8.setWidth 64 <<< 20)

/-- The 8-bit immediate of BB.SINGLE: the bit value as 0 or 1 (R122). -/
def bitImm (v : Bool) : Byte := if v then 1 else 0

/-- The command word of a command; every field its opcode does not use is 0 (R123). -/
def encode : Instr → Word
  | .nop => formatC 0x00 0 0 0 0
  | .bbClear rd => formatC 0x01 rd 0 0 0
  | .bbSingle rd v => formatC 0x02 rd 0 0 (bitImm v)
  | .bbAppend rd rs1 => formatC 0x03 rd rs1 0 0
  | .bbBitat rs1 => formatC 0x04 0 rs1 0 0
  | .bbEq rs1 rs2 => formatC 0x05 0 rs1 rs2 0
  | .bbStore rs1 => formatC 0x06 0 rs1 0 0
  | .bbLoad rd => formatC 0x07 rd 0 0 0
  | .hufEnc => formatC 0x10 0 0 0 0
  | .hufDec => formatC 0x11 0 0 0 0
  | .hufFreq => formatC 0x12 0 0 0 0
  | .hufCode rd sym => formatC 0x13 rd 0 0 sym
  | .lzwEnc => formatC 0x20 0 0 0 0
  | .lzwDec => formatC 0x21 0 0 0 0
  | .lzwCodes => formatC 0x22 0 0 0 0
  | .lzwPack => formatC 0x23 0 0 0 0
  | .lzwUnpack => formatC 0x24 0 0 0 0
  | .lzwExpand => formatC 0x25 0 0 0 0

/-- A table word as the 64-bit command word: the bits above `nbits` are 0 (there is one length, R120). -/
def tableWord (nbits w : Nat) : Word := BitVec.ofNat 64 (w % 2 ^ nbits)

/-- The command the decoder reads from a word numbered as the opcode table numbers it. -/
def decodeTableWord (nbits w : Nat) : Option Instr :=
  match decode (tableWord nbits w) with
  | .ok i => some i
  | .error _ => none

end Sys2Proof
end

