-- ==== Sys2Proof/Machine/Bits.lean ====
section
/-! DEFINITION. Bit, byte and word helpers: `ceil_div` and `mask` (00_scope.md R12), little-endian assembly of a
word (20_memory.md R82), and the MSB-first packing of bits and slots in words (10_state.md R41, 42_lzw.md R264). -/

namespace Sys2Proof.Machine

/-- `ceil_div(a, b)` (R12). -/
def ceilDiv (a b : Nat) : Nat := (a + b - 1) / b

/-- `mask(n) = 2^n - 1` as a word (R12). -/
def mask (n : Nat) : Word := BitVec.ofNat 64 (2 ^ n - 1)

/-! ### Bytes and words (R82) -/

/-- The word made of bytes in increasing address order: byte j stands at bits 8j+7..8j. -/
def leWord : List Byte → Word
  | [] => 0
  | b :: bs => b.setWidth 64 ||| (leWord bs <<< 8)

/-- The 8 bytes of a word in increasing address order. -/
def leBytes (w : Word) : List Byte := (List.range 8).map fun j => w.extractLsb' (8 * j) 8

/-- A byte string of length 8M as its M words; a shorter rest is dropped. -/
def wordsOfBytes : List Byte → List Word
  | b0 :: b1 :: b2 :: b3 :: b4 :: b5 :: b6 :: b7 :: rest =>
    leWord [b0, b1, b2, b3, b4, b5, b6, b7] :: wordsOfBytes rest
  | _ => []

/-- The bytes of a word sequence in increasing address order. -/
def bytesOfWords (ws : List Word) : List Byte := ws.flatMap leBytes

/-! ### Slots and bits, most significant first -/

/-- One packed word: the elements go to consecutive `sl`-bit slots from slot `t` on, slot `t` being bits
`63 - t*sl` down to `64 - (t+1)*sl` (42_lzw.md R264, R265). -/
def packSlots (sl : Nat) : Nat → List Word → Word
  | _, [] => 0
  | t, x :: xs => ((x &&& mask sl) <<< (64 - (t + 1) * sl)) ||| packSlots sl (t + 1) xs

/-- The bits of a sequence as words of one bit each. -/
def bitWord (b : Bool) : Word := if b then 1 else 0

/-- `words(b)` (10_state.md R41): bit i at bit `63 - (i mod 64)` of word `i div 64`, the rest 0. -/
def wordsOfBits (b : BitSeq) : List Word :=
  (List.range (ceilDiv b.length 64)).map fun k =>
    packSlots 1 0 (((b.drop (64 * k)).take 64).map bitWord)

/-- The 64 bits of a word, most significant first. -/
def bitsOfWord (w : Word) : BitSeq := (List.range 64).map fun i => w.getLsbD (63 - i)

/-- The first n bits of a word sequence in buffer order: bit i is `(ws[i div 64] >>u (63 - (i mod 64))) & 1`. -/
def bitsOfWords (ws : List Word) (n : Nat) : BitSeq := (ws.flatMap bitsOfWord).take n

end Sys2Proof.Machine
end

