-- ==== Sys2Proof/Machine/State.lean ====
section
/-! DEFINITION. The machine's state as plain data: every register, flag and memory of 10_state.md R49 and
20_memory.md R80, the two agents' pending turns (00_scope.md R17, 20_memory.md R93), and the state after reset
(70_reset_and_hazards.md R370, R371). -/

namespace Sys2Proof.Machine

/-- A byte array as a list of (address, byte) pairs, addresses strictly rising. An address that is not listed
holds no defined value: a byte of IN the host has not written since reset, a byte of OUT that is unspecified. -/
abbrev Memory := List Host.Cell

/-- The canonical form of a memory: addresses strictly rising. (Every listed byte is a defined value, so no entry
equals what an unlisted address reads as.) -/
abbrev Memory.wf (m : Memory) : Prop := m.Pairwise fun x y => x.1 < y.1

/-- The fields of STATUS (10_state.md R34); its reserved bits read 0. -/
structure Status where
  /-- bit 0 -/
  busy : Bool
  /-- bit 1 -/
  done : Bool
  /-- bit 2 -/
  err : Bool
  /-- bit 3 -/
  absent : Bool
  /-- bit 4 -/
  lost : Bool
  /-- bits 15:8 -/
  errcode : Byte
  deriving DecidableEq, Repr

/-- STATUS = 0 (R370). -/
def Status.zero : Status := ⟨false, false, false, false, false, 0⟩

/-- The error codes a command can end with (60_exceptions.md R330; NONE is no error). -/
inductive ErrorCode where
  | illegalCommand
  | badRegister
  | badLength
  | malformedStream
  | capacity
  | badOperand
  deriving DecidableEq, Repr

/-- One host bus access (20_memory.md R88): an address on the host's bus, a width in bits, the data of a write. -/
inductive Access where
  | read (addr width : Nat)
  | write (addr width : Nat) (data : Word)
  deriving DecidableEq, Repr

/-- One event of the total order of R93: a host access, the engine's turn, or the platform's reset input (R370). -/
inductive Turn where
  | access (a : Access)
  | engine
  | reset
  deriving DecidableEq, Repr

/-- The state of the engine and of what is about to reach it. -/
structure State where
  /-- The parameters of this engine (00_scope.md R8); constant. The CAP registers read them (10_state.md R43). -/
  params : Params
  /-- CMD: the last accepted command (R31). -/
  cmd : Word
  /-- STATUS (R34). -/
  status : Status
  /-- CTRL.IE (R36); the other bits of CTRL read 0. -/
  ie : Bool
  /-- IN_LEN (R37). -/
  inLen : Word
  /-- OUT_LEN (R38). -/
  outLen : Word
  /-- ARG (R39). -/
  arg : Word
  /-- RESULT (R39). -/
  result : Word
  /-- The BitBuffer registers BB[0] .. BB[NBB-1] (R40). -/
  bb : List BitSeq
  /-- IN (20_memory.md R80). -/
  inMem : Memory
  /-- OUT (R80). -/
  outMem : Memory
  /-- The latched current command while BUSY = 1 (10_state.md R31, R49). -/
  current : Option Word
  /-- The coming turns, in the total order of R93. When none is listed only the engine moves (R384, R355). -/
  turns : List Turn
  /-- The model's own: the values the host's reads returned, newest first. -/
  reads : List Word
  /-- The model's own: how many free values have been drawn (assumption 3). -/
  draws : Nat
  deriving DecidableEq, Repr

/-- Why a step stops the machine. There is no such reason: an error ends a command and is reported in STATUS, and
the machine goes on (60_exceptions.md R335, R337, R338). -/
inductive Fault where
  deriving DecidableEq, Repr

/-- Why a step has no meaning. -/
inductive Refusal where
  /-- Raised by `exec` alone, for a command that has no meaning yet. Safe. -/
  | notModelled (mnemonic : String)
  /-- Raised by a command that reads IN when IN[0..IN_LEN) holds a byte the host has not written since reset: the
  spec says such a command "is **refused**" (70_reset_and_hazards.md R371, 93 I1). Safe. -/
  | unwrittenInput
  /-- Raised by a host write to IN, IN_LEN or ARG while BUSY = 1: "it is **refused**" (R380, 93 I2). Safe. -/
  | inputWriteWhileBusy
  /-- Raised by a host access the bus rules do not admit: "is **refused**" (20_memory.md R88, 93 I6). Safe. -/
  | accessNotAdmitted
  deriving DecidableEq, Repr

/-- What a step or a command's meaning answers. -/
abbrev Result := Host.Outcome State Fault Refusal

/-- The state after reset of an engine with parameters `p` (R370, R371): registers 0, BB registers empty, no
current command, no byte of IN or OUT defined. -/
def State.resetWith (p : Params) : State where
  params := p
  cmd := 0
  status := Status.zero
  ie := false
  inLen := 0
  outLen := 0
  arg := 0
  result := 0
  bb := List.replicate p.nbb []
  inMem := []
  outMem := []
  current := none
  turns := []
  reads := []
  draws := 0

/-- The state after reset of the engine with the reference parameters of 00_scope.md R8. -/
def State.reset : State := State.resetWith Params.reference

end Sys2Proof.Machine
end

