-- ==== Sys2Proof/Machine/Flags.lean ====
section
/-! DEFINITION. STATUS: its word (10_state.md R34), and how acceptance (R31), completion (60_exceptions.md R334),
an error (R335), the absent answer (R46) and a host write (R35) change it; the error code numbers (R330); the
interrupt output (R345). -/

namespace Sys2Proof.Machine

/-- The number of an error code (R330). -/
def ErrorCode.code : ErrorCode → Byte
  | .illegalCommand => 1
  | .badRegister => 2
  | .badLength => 3
  | .malformedStream => 4
  | .capacity => 5
  | .badOperand => 6

/-- A one-bit field at bit `k` of a word. -/
def fieldBit (b : Bool) (k : Nat) : Word := if b then 1 <<< k else 0

/-- STATUS as the host reads it (R34). -/
def Status.word (st : Status) : Word :=
  fieldBit st.busy 0 ||| fieldBit st.done 1 ||| fieldBit st.err 2 ||| fieldBit st.absent 3 |||
    fieldBit st.lost 4 ||| (st.errcode.setWidth 64 <<< 8)

/-- A command is accepted: BUSY 1; DONE, ERR, ERRCODE, ABSENT 0; LOST kept (R31). -/
def Status.accepted (st : Status) : Status :=
  { st with busy := true, done := false, err := false, absent := false, errcode := 0 }

/-- `complete`: BUSY 0, DONE 1; ERR, ERRCODE and ABSENT as the command left them (R334). -/
def Status.completed (st : Status) : Status := { st with busy := false, done := true }

/-- `raise e`: ERRCODE e, ERR 1, ABSENT 0, BUSY 0, DONE 1 (R335). -/
def Status.failed (e : ErrorCode) (st : Status) : Status :=
  { st with busy := false, done := true, err := true, absent := false, errcode := e.code }

/-- The absent answer (R46). -/
def Status.markAbsent (st : Status) : Status := { st with absent := true }

/-- A CMD write was dropped (R32). -/
def Status.markLost (st : Status) : Status := { st with lost := true }

/-- A host write of v to STATUS: v[1] clears DONE, v[4] clears LOST (R35). -/
def Status.hostWrite (v : Word) (st : Status) : Status :=
  { st with done := st.done && !v.getLsbD 1, lost := st.lost && !v.getLsbD 4 }

/-- CTRL as the host reads it: IE at bit 0, the rest 0 (R36). -/
def ctrlWord (ie : Bool) : Word := fieldBit ie 0

/-- The interrupt output: `IRQ = CTRL.IE & STATUS.DONE` (R345). -/
def State.irq (s : State) : Bool := s.ie && s.status.done

end Sys2Proof.Machine
end

