-- ==== Sys2Proof/Machine/Ops.lean ====
section
/-! DEFINITION. The shared operations: reading and writing a memory, reading the input block (20_memory.md R84),
reading and writing a BitBuffer register (00_scope.md R14), storing a result to OUT (20_memory.md R85, R87), and
the three ways a command's life changes the state: acceptance (10_state.md R31), `complete` and `raise`
(60_exceptions.md R334, R335). -/

namespace Sys2Proof.Machine

/-! ### Memories -/

/-- The byte at an address, if one is defined. -/
def Memory.read : Memory → Nat → Option Byte
  | [], _ => none
  | (k, b) :: m, a => if k = a then some b else Memory.read m a

/-- Write one byte; keeps the addresses strictly rising. -/
def Memory.write : Memory → Nat → Byte → Memory
  | [], a, v => [(a, v)]
  | (k, b) :: m, a, v =>
    if a < k then (a, v) :: (k, b) :: m
    else if a = k then (a, v) :: m
    else (k, b) :: Memory.write m a v

/-- Write bytes from an address upward. -/
def Memory.writeBytes (m : Memory) (a : Nat) : List Byte → Memory
  | [] => m
  | b :: bs => Memory.writeBytes (m.write a b) (a + 1) bs

/-- The n bytes from address a on; none if one of them has no defined value. -/
def Memory.readRange (m : Memory) : Nat → Nat → Option (List Byte)
  | _, 0 => some []
  | a, n + 1 =>
    match m.read a with
    | none => none
    | some b => (Memory.readRange m (a + 1) n).map (b :: ·)

/-- The memory that defines exactly the given bytes, from an address upward. -/
def Memory.ofBytes : Nat → List Byte → Memory
  | _, [] => []
  | a, b :: bs => (a, b) :: Memory.ofBytes (a + 1) bs

/-- The input block [InByte(0), .., InByte(IN_LEN - 1)] (R84), if the host has written all of it. -/
def State.inBlock (s : State) : Option (List Byte) := s.inMem.readRange 0 s.inLen.toNat

/-! ### BitBuffer registers (10_state.md R40) -/

/-- `BB[r]`. -/
def State.bitBuffer (s : State) (r : RegIx) : BitSeq := s.bb.getD r.toNat []

/-- `BB[r] <- b`. -/
def State.setBitBuffer (s : State) (r : RegIx) (b : BitSeq) : State := { s with bb := s.bb.set r.toNat b }

/-! ### Result registers -/

/-- `RESULT <- w`. -/
def State.setResult (s : State) (w : Word) : State := { s with result := w }

/-- `STATUS.ABSENT <- 1` (R46). -/
def State.markAbsent (s : State) : State := { s with status := s.status.markAbsent }

/-- OUT[0..|r|) <- r and OUT_LEN <- |r|; every other byte of OUT is unspecified (20_memory.md R85, R87). -/
def State.storeOut (s : State) (r : List Byte) : State :=
  { s with outMem := Memory.ofBytes 0 r, outLen := BitVec.ofNat 64 r.length }

/-! ### The life of a command -/

/-- The OUT-writing commands: the word-output and byte-output commands of 30_encoding.md R127. -/
def writesOut : Instr → Bool
  | .nop => false
  | .bbClear _ => false
  | .bbSingle _ _ => false
  | .bbAppend _ _ => false
  | .bbBitat _ => false
  | .bbEq _ _ => false
  | .bbStore _ => true
  | .bbLoad _ => false
  | .hufEnc => true
  | .hufDec => true
  | .hufFreq => true
  | .hufCode _ _ => false
  | .lzwEnc => true
  | .lzwDec => true
  | .lzwCodes => true
  | .lzwPack => true
  | .lzwUnpack => true
  | .lzwExpand => true

/-- Acceptance of the command word c (10_state.md R31). -/
def State.accept (s : State) (c : Word) : State :=
  { s with cmd := c, current := some c, status := s.status.accepted }

/-- `complete` (60_exceptions.md R334). -/
def State.completed (s : State) : State := { s with status := s.status.completed, current := none }

/-- The command ends without error. -/
def complete (s : State) : Result := .next s.completed

/-- `raise e` (60_exceptions.md R335): OUT_LEN <- 0, and if the command is OUT-writing no byte of OUT is defined. -/
def State.failed (s : State) (outWriting : Bool) (e : ErrorCode) : State :=
  { s with
    status := s.status.failed e
    current := none
    outLen := 0
    outMem := if outWriting then [] else s.outMem }

/-- The command i ends with error e. -/
def raise (i : Instr) (e : ErrorCode) (s : State) : Result := .next (s.failed (writesOut i) e)

/-- A word that selects no row of the opcode map ends with ILLEGAL_COMMAND (R331). It is none of the OUT-writing
commands of R127, so OUT keeps its bytes (assumption 5). -/
def raiseIllegal (s : State) : Result := .next (s.failed false .illegalCommand)

/-- The platform's reset input (70_reset_and_hazards.md R370, R371): every register takes its reset value, a command
in flight is abandoned, no byte of IN or OUT is defined. What is not the engine's (its parameters, the coming
turns, what the host has read, the draws) stays. -/
def State.platformReset (s : State) : State :=
  { State.resetWith s.params with turns := s.turns, reads := s.reads, draws := s.draws }

end Sys2Proof.Machine
end

