-- ==== Sys2Proof/Machine/Operands.lean ====
section
/-! DEFINITION. A command's operands: the classes of 30_encoding.md R127, the checks common to all commands in the
order of 60_exceptions.md R331 and R332, the input block as bytes or words (20_memory.md R84), and delivering a
result to OUT (R85). -/

namespace Sys2Proof.Machine

/-- How a command reads IN (R127). -/
inductive InputClass where
  | noInput
  | byteInput
  | wordInput
  deriving DecidableEq, Repr

/-- The input class of each command (R127). -/
def inputClass : Instr → InputClass
  | .nop => .noInput
  | .bbClear _ => .noInput
  | .bbSingle _ _ => .noInput
  | .bbAppend _ _ => .noInput
  | .bbBitat _ => .noInput
  | .bbEq _ _ => .noInput
  | .bbStore _ => .noInput
  | .bbLoad _ => .wordInput
  | .hufEnc => .byteInput
  | .hufDec => .wordInput
  | .hufFreq => .byteInput
  | .hufCode _ _ => .byteInput
  | .lzwEnc => .byteInput
  | .lzwDec => .wordInput
  | .lzwCodes => .byteInput
  | .lzwPack => .wordInput
  | .lzwUnpack => .wordInput
  | .lzwExpand => .wordInput

/-- IN_LEN is a length the command can take (60_exceptions.md R332). -/
def InputClass.lengthOk (k : InputClass) (s : State) : Bool :=
  match k with
  | .noInput => true
  | .byteInput => decide (s.inLen.toNat ≤ s.params.inCap)
  | .wordInput => decide (s.inLen.toNat ≤ s.params.inCap) && decide (s.inLen.toNat % 8 = 0)

/-- The checks common to all commands after decoding, in order: BAD_REGISTER (R331), then BAD_LENGTH (R332); then
the command's own work. -/
def commonChecks (i : Instr) (s : State) (body : Result) : Result :=
  if i.wellFormed s.params.nbb then
    if (inputClass i).lengthOk s then body else raise i .badLength s
  else raise i .badRegister s

/-- Run the work of a byte-input command on its block (R84); refused if the host has not written all of it
(70_reset_and_hazards.md R371). -/
def withInBytes (s : State) (body : List Byte → Result) : Result :=
  match s.inBlock with
  | some block => body block
  | none => .refused .unwrittenInput

/-- Run the work of a word-input command on its words [InWord(0), .., InWord(IN_LEN/8 - 1)] (R84). -/
def withInWords (s : State) (body : List Word → Result) : Result :=
  withInBytes s fun block => body (wordsOfBytes block)

/-- The work goes on with a function's value, or the command ends with the error the function raised. -/
def orRaise {α : Type} (i : Instr) (s : State) (x : Except ErrorCode α) (body : α → Result) : Result :=
  match x with
  | .ok a => body a
  | .error e => raise i e s

/-- The end of a word-output command: CAPACITY if the words do not fit OUT, else OUT holds them and the command
completes (20_memory.md R85). -/
def deliverWords (i : Instr) (s : State) (ws : List Word) : Result :=
  if s.params.outCap < 8 * ws.length then raise i .capacity s
  else complete (s.storeOut (bytesOfWords ws))

/-- The end of a byte-output command, whose function has already kept its bytes within OUT_CAP (R85). -/
def deliverBytes (s : State) (r : List Byte) : Result := complete (s.storeOut r)

end Sys2Proof.Machine
end

