-- ==== Sys2Proof/Machine/BitBuffer.lean ====
section
/-! DEFINITION. NOP and the BitBuffer commands (40_bitbuffer.md). -/

namespace Sys2Proof.Machine

/-- NOP (R150). -/
def execNop (s : State) : Result := commonChecks .nop s (complete s)

/-- BB.CLEAR (R152): `BB[rd] <- []`. -/
def execBbClear (rd : RegIx) (s : State) : Result :=
  commonChecks (.bbClear rd) s (complete (s.setBitBuffer rd []))

/-- BB.SINGLE (R153): `BB[rd] <- [v]`. -/
def execBbSingle (rd : RegIx) (v : Bool) (s : State) : Result :=
  commonChecks (.bbSingle rd v) s (complete (s.setBitBuffer rd [v]))

/-- BB.APPEND (R154): `BB[rd] <- BB[rd] ++ BB[rs1]`, or CAPACITY. -/
def execBbAppend (rd rs1 : RegIx) (s : State) : Result :=
  commonChecks (.bbAppend rd rs1) s <|
    let a := s.bitBuffer rd
    let b := s.bitBuffer rs1
    if s.params.bbCapBits < a.length + b.length then raise (.bbAppend rd rs1) .capacity s
    else complete (s.setBitBuffer rd (a ++ b))

/-- BB.BITAT (R155): the bit at index ARG (unsigned) to RESULT, or RESULT 0 and ABSENT. -/
def execBbBitat (rs1 : RegIx) (s : State) : Result :=
  commonChecks (.bbBitat rs1) s <|
    match (s.bitBuffer rs1)[s.arg.toNat]? with
    | some b => complete (s.setResult (bitWord b))
    | none => complete (s.setResult 0).markAbsent

/-- BB.EQ (R156): RESULT is 1 if the two bit sequences are equal, else 0. -/
def execBbEq (rs1 rs2 : RegIx) (s : State) : Result :=
  commonChecks (.bbEq rs1 rs2) s <|
    complete (s.setResult (bitWord (decide (s.bitBuffer rs1 = s.bitBuffer rs2))))

/-- The stored form of a bit sequence: its bit count, then its words (R157). -/
def storeForm (b : BitSeq) : List Word := BitVec.ofNat 64 b.length :: wordsOfBits b

/-- BB.STORE (R157). -/
def execBbStore (rs1 : RegIx) (s : State) : Result :=
  commonChecks (.bbStore rs1) s (deliverWords (.bbStore rs1) s (storeForm (s.bitBuffer rs1)))

/-- The bit sequence a word sequence stores, within a capacity in bits (R158). -/
def loadForm (cap : Nat) : List Word → Except ErrorCode BitSeq
  | [] => .error .malformedStream
  | n :: ws =>
    if ws.length ≠ ceilDiv n.toNat 64 then .error .malformedStream
    else if cap < n.toNat then .error .capacity
    else .ok (bitsOfWords ws n.toNat)

/-- BB.LOAD (R158). -/
def execBbLoad (rd : RegIx) (s : State) : Result :=
  commonChecks (.bbLoad rd) s <| withInWords s fun w =>
    orRaise (.bbLoad rd) s (loadForm s.params.bbCapBits w) fun b => complete (s.setBitBuffer rd b)

end Sys2Proof.Machine
end

