-- ==== Sys2Proof/Machine/Huffman.lean ====
section
/-! DEFINITION. The Huffman codec (41_huffman.md): the frequency pass, the priority list and the tree, the codes, the
encoder, the decoder, and the HUF.* commands. -/

namespace Sys2Proof.Machine

/-- A frequency-table entry: a byte and its count (00_scope.md R18). -/
abbrev Entry := Byte × Nat

/-- A prefix-code tree (R204). -/
inductive Tree where
  | leaf (s : Byte)
  | node (left right : Tree)
  deriving DecidableEq, Repr

/-- The byte values in ascending signed order: 0x80 .. 0xFF, then 0x00 .. 0x7F (R205). -/
def signedBytes : List Byte := (List.range 256).map fun k => BitVec.ofNat 8 (k + 128)

/-- `FreqPass(B)`: every byte that occurs with its count, in signed order (R207). -/
def freqPass (block : List Byte) : List Entry :=
  (signedBytes.map fun s => (s, block.count s)).filter fun e => decide (1 ≤ e.2)

/-- `FreqWord(s, c)` (R206). -/
def freqWord (e : Entry) : Word := (e.1.setWidth 64 <<< 56) ||| BitVec.ofNat 64 e.2

/-- The entry a frequency-table word holds: the byte in bits 63:56, the count in the low 56 bits (R206). -/
def entryOfWord (w : Word) : Entry := (w.extractLsb' 56 8, (w &&& mask 56).toNat)

/-! ### Priority list and tree -/

/-- A priority list, ascending (R200). -/
abbrev PriorityList := List (Nat × Tree)

/-- `Insert(L, p, x)`: after the last element whose priority is at most p (R201). -/
def PriorityList.insertAt : PriorityList → Nat → Tree → PriorityList
  | [], p, x => [(p, x)]
  | (q, y) :: L, p, x =>
    if q ≤ p then (q, y) :: PriorityList.insertAt L p x else (p, x) :: (q, y) :: L

/-- The leaves of a table inserted in the order given (R208). -/
def initialList (E : List Entry) : PriorityList :=
  E.foldl (fun L e => PriorityList.insertAt L e.2 (.leaf e.1)) []

/-- The loop of `BuildTree` (R208): pop a, pop b, reinsert Node(left = b, right = a). Each round shortens the list by
one, so its length is fuel enough. -/
def mergeLoop : Nat → PriorityList → Option Tree
  | _, [] => none
  | _, [(_, t)] => some t
  | 0, _ => none
  | n + 1, (p, a) :: (q, b) :: L => mergeLoop n (PriorityList.insertAt L (p + q) (.node b a))

/-- `BuildTree(E)` (R208). -/
def buildTree (E : List Entry) : Option Tree := mergeLoop E.length (initialList E)

/-- `Occurs(t, s)` (R204). -/
def Tree.occurs (s : Byte) : Tree → Bool
  | .leaf x => x == s
  | .node l r => l.occurs s || r.occurs s

/-- `Code(t, s)` of a byte that occurs in t: left is 0, right is 1 (R210, R211). -/
def Tree.code (s : Byte) : Tree → BitSeq
  | .leaf _ => []
  | .node l r => if l.occurs s then false :: l.code s else true :: r.code s

/-! ### Encode -/

/-- The frequency table as words: the entry count, then one word an entry (R213). -/
def freqTable (E : List Entry) : List Word := BitVec.ofNat 64 E.length :: E.map freqWord

/-- The codes of a block's bytes in order (R213). -/
def codeBits (root : Option Tree) (block : List Byte) : BitSeq :=
  match root with
  | none => []
  | some t => block.flatMap fun s => t.code s

/-- `HufEncode(B)` (R213). -/
def hufEncode (block : List Byte) : List Word :=
  let E := freqPass block
  let bits := codeBits (buildTree E) block
  freqTable E ++ BitVec.ofNat 64 bits.length :: wordsOfBits bits

/-! ### Decode -/

/-- Insert an entry before the first one whose byte is not below its own, in signed order. -/
def insertEntry (e : Entry) : List Entry → List Entry
  | [] => [e]
  | x :: xs => if e.1.toInt ≤ x.1.toInt then e :: x :: xs else x :: insertEntry e xs

/-- The stable sort of a table by ascending signed byte (R205, R215). -/
def sortEntries (E : List Entry) : List Entry := E.foldr insertEntry []

/-- The walk of R215 from `node`, `depth` bits below the root, with `n` bytes decoded so far: one bit a step, bit 1 to
the right; at a leaf its byte is emitted, if it fits, and the walk goes back to the root. -/
def walk (root : Tree) (cap : Nat) : BitSeq → Tree → Nat → Nat → Except ErrorCode (List Byte)
  | [], _, depth, _ => if depth = 0 then .ok [] else .error .malformedStream
  | _ :: _, .leaf _, _, _ => .error .malformedStream
  | b :: bits, .node l r, depth, n =>
    match (if b then r else l) with
    | .leaf s =>
      if cap < n + 1 then .error .capacity
      else (walk root cap bits root 0 (n + 1)).map (s :: ·)
    | .node l' r' => walk root cap bits (.node l' r') (depth + 1) n

/-- The bytes of a bit sequence under a table (the last part of R215): no tree, a one-leaf tree (R217), or a walk. -/
def decodeBits (E : List Entry) (cap : Nat) (bits : BitSeq) : Except ErrorCode (List Byte) :=
  match buildTree E with
  | none => if bits.length ≠ 0 then .error .malformedStream else .ok []
  | some (.leaf s) =>
    let c := (E.lookup s).getD 0
    if bits.length ≠ 0 then .error .malformedStream
    else if cap < c then .error .capacity
    else .ok (List.replicate c s)
  | some (.node l r) => walk (.node l r) cap bits (.node l r) 0 0

/-- `HufDecode(w)` with output bound `cap` (R215). -/
def hufDecode (cap : Nat) (w : List Word) : Except ErrorCode (List Byte) :=
  match w with
  | [] => .error .malformedStream
  | nWord :: rest =>
    let n := nWord.toNat
    if 256 < n then .error .malformedStream
    else if w.length < n + 2 then .error .malformedStream
    else
      let E := (rest.take n).map entryOfWord
      if E.any fun e => e.2 == 0 then .error .malformedStream
      else
        let E := sortEntries E
        if ¬ (E.map (·.1)).Nodup then .error .malformedStream
        else
          let nb := (rest.getD n 0).toNat
          let body := rest.drop (n + 1)
          if body.length ≠ ceilDiv nb 64 then .error .malformedStream
          else decodeBits E cap (bitsOfWords body nb)

/-! ### Commands -/

/-- HUF.ENC (R228). -/
def execHufEnc (s : State) : Result :=
  commonChecks .hufEnc s <| withInBytes s fun block => deliverWords .hufEnc s (hufEncode block)

/-- HUF.DEC (R229). -/
def execHufDec (s : State) : Result :=
  commonChecks .hufDec s <| withInWords s fun w =>
    orRaise .hufDec s (hufDecode s.params.outCap w) fun r => deliverBytes s r

/-- HUF.FREQ (R230). -/
def execHufFreq (s : State) : Result :=
  commonChecks .hufFreq s <| withInBytes s fun block => deliverWords .hufFreq s (freqTable (freqPass block))

/-- The code of a symbol in a block, if it occurs (R231). -/
def symbolCode (block : List Byte) (sym : Byte) : Option BitSeq :=
  match buildTree (freqPass block) with
  | none => none
  | some t => if t.occurs sym then some (t.code sym) else none

/-- HUF.CODE (R231): the code of `sym` in the block to `BB[rd]`, or ABSENT. -/
def execHufCode (rd : RegIx) (sym : Byte) (s : State) : Result :=
  commonChecks (.hufCode rd sym) s <| withInBytes s fun block =>
    match symbolCode block sym with
    | none => complete s.markAbsent
    | some code => complete (s.setBitBuffer rd code)

end Sys2Proof.Machine
end

