-- ==== Sys2Proof/Machine/Lzw.lean ====
section
/-! DEFINITION. The LZW codec (42_lzw.md): the scan, the word-packing transform and its inverse, the expansion, and the
LZW.* commands. -/

namespace Sys2Proof.Machine

/-! ### Compress-side dictionary and scan -/

/-- The strings inserted by a scan with their codes, newest first. The 256 single-byte strings are not listed: they
are in every dictionary (R260). -/
abbrev Dict := List (List Byte × Nat)

/-- The code of a string, if it is in the dictionary: a single byte has its unsigned value (R260). -/
def Dict.codeOf (D : Dict) : List Byte → Option Nat
  | [s] => some s.toNat
  | str => D.lookup str

/-- The loop of `LzwScan` (R261): `next` is the next free code, `cur` the current matched string. -/
def scanLoop (D : Dict) (next : Nat) (cur : List Byte) : List Byte → List Nat
  | [] => if cur = [] then [] else [(Dict.codeOf D cur).getD 0]
  | c :: rest =>
    if (Dict.codeOf D (cur ++ [c])).isSome then scanLoop D next (cur ++ [c]) rest
    else (Dict.codeOf D cur).getD 0 :: scanLoop ((cur ++ [c], next) :: D) (next + 1) [c] rest

/-- `LzwScan(B)` (R261). -/
def lzwScan (block : List Byte) : List Nat := scanLoop [] 256 [] block

/-- The codes of a scan, one word each (R282). -/
def scanWords (block : List Byte) : List Word := (lzwScan block).map (BitVec.ofNat 64)

/-! ### The word-packing transform -/

/-- `ChooseStride(m)` (R263). -/
def chooseStride (m : Nat) : Nat :=
  if m < 2 ^ 7 - 1 then 8
  else if m < 2 ^ 15 - 1 then 4
  else if m < 2 ^ 31 - 1 then 2
  else 1

/-- The largest of a sequence of words; 0 of none. -/
def maxWord (v : List Word) : Nat := v.foldr (fun x m => max x.toNat m) 0

/-- The packed words of v with stride st (R264, R265). -/
def packWords (st : Nat) (v : List Word) : List Word :=
  (List.range (ceilDiv v.length st)).map fun j => packSlots (64 / st) 0 ((v.drop (j * st)).take st)

/-- `LzwPack(v)` (R265, R266). -/
def lzwPack (v : List Word) : Except ErrorCode (List Word) :=
  if v.any (·.msb) then .error .badOperand
  else if v = [] then .ok []
  else
    let st := chooseStride (maxWord v)
    .ok (BitVec.ofNat 64 st :: BitVec.ofNat 64 v.length :: packWords st v)

/-! ### Unpacking -/

/-- The slots of a packed word, first slot first, sign-extended: `(w << (t*sl)) >>s (64 - sl)` (R267). -/
def slotsOfWord (st : Nat) (w : Word) : List Word :=
  (List.range st).map fun t => (w <<< (t * (64 / st))).sshiftRight (64 - 64 / st)

/-- `LzwUnpack(w)` (R267). -/
def lzwUnpack : List Word → Except ErrorCode (List Word)
  | [] => .ok []
  | [_] => .error .malformedStream
  | stWord :: cntWord :: pw =>
    let st := stWord.toNat
    let cnt := cntWord.toNat
    if st ∉ [1, 2, 4, 8] then .error .malformedStream
    else if pw.length ≠ ceilDiv cnt st then .error .malformedStream
    else .ok ((pw.flatMap (slotsOfWord st)).take cnt)

/-! ### Expansion -/

/-- The string of a known code k (R270): `D` lists the strings of the codes 256, 257, .. in order. -/
def stringOf (D : List (List Byte)) (k : Nat) : List Byte :=
  if k < 256 then [BitVec.ofNat 8 k] else D.getD (k - 256) []

/-- The entry a code stands for: a known string, or the self-referential case k = next, or none (R270). -/
def entryFor (D : List (List Byte)) (cur : List Byte) (k : Int) : Option (List Byte) :=
  if 0 ≤ k ∧ k < 256 + D.length then some (stringOf D k.toNat)
  else if k = 256 + D.length then some (cur ++ cur.take 1)
  else none

/-- The loop of `LzwExpand` (R270), with `n` bytes of result so far. -/
def expandLoop (cap : Nat) (D : List (List Byte)) (cur : List Byte) (n : Nat) :
    List Word → Except ErrorCode (List Byte)
  | [] => .ok []
  | x :: rest =>
    match entryFor D cur x.toInt with
    | none => .error .malformedStream
    | some entry =>
      if cap < n + entry.length then .error .capacity
      else (expandLoop cap (D ++ [cur ++ entry.take 1]) entry (n + entry.length) rest).map (entry ++ ·)

/-- `LzwExpand(v, cap)` (R270, R271). -/
def lzwExpand (cap : Nat) : List Word → Except ErrorCode (List Byte)
  | [] => .ok []
  | x :: rest =>
    if x.toInt < 0 ∨ 255 < x.toInt then .error .malformedStream
    else
      let first : List Byte := [BitVec.ofNat 8 x.toNat]
      (expandLoop cap [] first 1 rest).map (first ++ ·)

/-! ### Commands -/

/-- LZW.ENC (R280). -/
def execLzwEnc (s : State) : Result :=
  commonChecks .lzwEnc s <| withInBytes s fun block =>
    orRaise .lzwEnc s (lzwPack (scanWords block)) fun S => deliverWords .lzwEnc s S

/-- LZW.DEC (R281). -/
def execLzwDec (s : State) : Result :=
  commonChecks .lzwDec s <| withInWords s fun w =>
    orRaise .lzwDec s (lzwUnpack w) fun v =>
      orRaise .lzwDec s (lzwExpand s.params.outCap v) fun r => deliverBytes s r

/-- LZW.CODES (R282). -/
def execLzwCodes (s : State) : Result :=
  commonChecks .lzwCodes s <| withInBytes s fun block => deliverWords .lzwCodes s (scanWords block)

/-- LZW.PACK (R283). -/
def execLzwPack (s : State) : Result :=
  commonChecks .lzwPack s <| withInWords s fun v =>
    orRaise .lzwPack s (lzwPack v) fun S => deliverWords .lzwPack s S

/-- LZW.UNPACK (R284). -/
def execLzwUnpack (s : State) : Result :=
  commonChecks .lzwUnpack s <| withInWords s fun w =>
    orRaise .lzwUnpack s (lzwUnpack w) fun v => deliverWords .lzwUnpack s v

/-- LZW.EXPAND (R285). -/
def execLzwExpand (s : State) : Result :=
  commonChecks .lzwExpand s <| withInWords s fun v =>
    orRaise .lzwExpand s (lzwExpand s.params.outCap v) fun r => deliverBytes s r

end Sys2Proof.Machine
end

