-- ==== Sys2Proof/Machine/Dispatch.lean ====
section
/-! DEFINITION. exec: one arm per command, each one call of its meaning. -/

namespace Sys2Proof.Machine

/-- The step of one command after it has been decoded (10_state.md R31, 60_exceptions.md R331 to R335). -/
def exec (i : Instr) (s : State) : Host.Outcome State Fault Refusal :=
  match i with
  | .nop => Sys2Proof.Machine.execNop s
  | .bbClear rd => Sys2Proof.Machine.execBbClear rd s
  | .bbSingle rd v => Sys2Proof.Machine.execBbSingle rd v s
  | .bbAppend rd rs1 => Sys2Proof.Machine.execBbAppend rd rs1 s
  | .bbBitat rs1 => Sys2Proof.Machine.execBbBitat rs1 s
  | .bbEq rs1 rs2 => Sys2Proof.Machine.execBbEq rs1 rs2 s
  | .bbStore rs1 => Sys2Proof.Machine.execBbStore rs1 s
  | .bbLoad rd => Sys2Proof.Machine.execBbLoad rd s
  | .hufEnc => Sys2Proof.Machine.execHufEnc s
  | .hufDec => Sys2Proof.Machine.execHufDec s
  | .hufFreq => Sys2Proof.Machine.execHufFreq s
  | .hufCode rd sym => Sys2Proof.Machine.execHufCode rd sym s
  | .lzwEnc => Sys2Proof.Machine.execLzwEnc s
  | .lzwDec => Sys2Proof.Machine.execLzwDec s
  | .lzwCodes => Sys2Proof.Machine.execLzwCodes s
  | .lzwPack => Sys2Proof.Machine.execLzwPack s
  | .lzwUnpack => Sys2Proof.Machine.execLzwUnpack s
  | .lzwExpand => Sys2Proof.Machine.execLzwExpand s

end Sys2Proof.Machine
end

