-- ==== Sys2Proof/Machine/HostPort.lean ====
section
/-! DEFINITION. The host's side of the engine: the register window (10_state.md R30 to R45), the IN and OUT windows
(20_memory.md R80 to R92), and what each host access does (R88, R90; 70_reset_and_hazards.md R380, R381). -/

namespace Sys2Proof.Machine

/-! ### The register window -/

/-- The registers of the window (10_state.md R30). -/
inductive HostReg where
  | cmd
  | status
  | ctrl
  | inLen
  | outLen
  | arg
  | result
  | capIn
  | capOut
  | capBb
  | capNbb
  | reserved
  deriving DecidableEq, Repr

/-- The register at an offset of the window (R30); from 0x58 on they are reserved. -/
def HostReg.atOffset (off : Nat) : HostReg :=
  if off = 0x00 then .cmd
  else if off = 0x08 then .status
  else if off = 0x10 then .ctrl
  else if off = 0x18 then .inLen
  else if off = 0x20 then .outLen
  else if off = 0x28 then .arg
  else if off = 0x30 then .result
  else if off = 0x38 then .capIn
  else if off = 0x40 then .capOut
  else if off = 0x48 then .capBb
  else if off = 0x50 then .capNbb
  else .reserved

/-- The offset of a register; of the reserved ones, the first (R30). -/
def HostReg.offset : HostReg → Nat
  | .cmd => 0x00
  | .status => 0x08
  | .ctrl => 0x10
  | .inLen => 0x18
  | .outLen => 0x20
  | .arg => 0x28
  | .result => 0x30
  | .capIn => 0x38
  | .capOut => 0x40
  | .capBb => 0x48
  | .capNbb => 0x50
  | .reserved => 0x58

/-- What a 64-bit read of a register returns. OUT_LEN and RESULT read as any value while BUSY (R381). -/
def State.readReg (s : State) : HostReg → Word
  | .cmd => s.cmd
  | .status => s.status.word
  | .ctrl => ctrlWord s.ie
  | .inLen => s.inLen
  | .outLen => if s.status.busy then Config.freeWord s.draws else s.outLen
  | .arg => s.arg
  | .result => if s.status.busy then Config.freeWord s.draws else s.result
  | .capIn => BitVec.ofNat 64 s.params.inCap
  | .capOut => BitVec.ofNat 64 s.params.outCap
  | .capBb => BitVec.ofNat 64 s.params.bbCapBits
  | .capNbb => BitVec.ofNat 64 s.params.nbb
  | .reserved => 0

/-- What a 64-bit write of v to a register does. -/
def State.writeReg (s : State) (v : Word) : HostReg → Result
  | .cmd =>
    if s.status.busy then .next { s with status := s.status.markLost }
    else .next (s.accept v)
  | .status => .next { s with status := s.status.hostWrite v }
  | .ctrl => .next { s with ie := v.getLsbD 0 }
  | .inLen => if s.status.busy then .refused .inputWriteWhileBusy else .next { s with inLen := v }
  | .outLen => .next s
  | .arg => if s.status.busy then .refused .inputWriteWhileBusy else .next { s with arg := v }
  | .result => .next s
  | .capIn => .next s
  | .capOut => .next s
  | .capBb => .next s
  | .capNbb => .next s
  | .reserved => .next s

/-! ### The IN and OUT windows -/

/-- The byte a host read of IN returns: exact if the host has written it, else any byte (93 I8; assumption 4). -/
def State.inByte (s : State) (a draw : Nat) : Byte := (s.inMem.read a).getD (Config.freeByte draw)

/-- The byte a host read of OUT returns: any byte while BUSY (R381) and where OUT is unspecified (R87). -/
def State.outByte (s : State) (a draw : Nat) : Byte :=
  if s.status.busy then Config.freeByte draw else (s.outMem.read a).getD (Config.freeByte draw)

/-- A 64-bit read of IN at byte address a (20_memory.md R82, R86). -/
def State.inWord (s : State) (a : Nat) : Word :=
  leWord ((List.range 8).map fun j => s.inByte (a + j) (s.draws + j))

/-- A 64-bit read of OUT at byte address a (R82, R86). -/
def State.outWord (s : State) (a : Nat) : Word :=
  leWord ((List.range 8).map fun j => s.outByte (a + j) (s.draws + j))

/-- Bytes from the host to IN; refused while BUSY (R380). -/
def State.writeIn (s : State) (a : Nat) (bytes : List Byte) : Result :=
  if s.status.busy then .refused .inputWriteWhileBusy
  else .next { s with inMem := s.inMem.writeBytes a bytes }

/-! ### Host accesses -/

/-- The three host-visible address spaces (R81). -/
inductive Window where
  | regs
  | input
  | output
  deriving DecidableEq, Repr

/-- The window and the offset in it that a bus address reaches, if any (R81). -/
def windowAt (p : Params) (addr : Nat) : Option (Window × Nat) :=
  if p.regBase ≤ addr ∧ addr < p.regBase + regWindowSize then some (.regs, addr - p.regBase)
  else if p.inBase ≤ addr ∧ addr < p.inBase + p.inCap then some (.input, addr - p.inBase)
  else if p.outBase ≤ addr ∧ addr < p.outBase + p.outCap then some (.output, addr - p.outBase)
  else none

/-- The widths and alignments the bus rules admit in a window (R45, R88): 64 bits at a multiple of 8; in IN and OUT
also 8 bits anywhere. -/
def admitted (w : Window) (off width : Nat) : Bool :=
  (width == 64 && off % 8 == 0) || (width == 8 && w != .regs)

/-- The host receives a value; `drawn` free values were set aside for it. -/
def State.receive (s : State) (v : Word) (drawn : Nat) : State :=
  { s with reads := v :: s.reads, draws := s.draws + drawn }

/-- An admitted host read (R88, R90): it changes nothing of the engine. -/
def State.readWindow (s : State) (w : Window) (off width : Nat) : State :=
  match w with
  | .regs => s.receive (s.readReg (HostReg.atOffset off)) 1
  | .input =>
    if width = 64 then s.receive (s.inWord off) 8 else s.receive ((s.inByte off s.draws).setWidth 64) 1
  | .output =>
    if width = 64 then s.receive (s.outWord off) 8 else s.receive ((s.outByte off s.draws).setWidth 64) 1

/-- An admitted host write (R88): to OUT it is ignored (R80); a byte write takes bits 7:0 of the data. -/
def State.writeWindow (s : State) (w : Window) (off width : Nat) (v : Word) : Result :=
  match w with
  | .regs => s.writeReg v (HostReg.atOffset off)
  | .input => s.writeIn off (if width = 64 then leBytes v else [v.setWidth 8])
  | .output => .next s

/-- One host access; refused if the bus rules do not admit it (R88). -/
def hostAccess (a : Access) (s : State) : Result :=
  match a with
  | .read addr width =>
    match windowAt s.params addr with
    | none => .refused .accessNotAdmitted
    | some (w, off) =>
      if admitted w off width then .next (s.readWindow w off width) else .refused .accessNotAdmitted
  | .write addr width v =>
    match windowAt s.params addr with
    | none => .refused .accessNotAdmitted
    | some (w, off) =>
      if admitted w off width then s.writeWindow w off width v else .refused .accessNotAdmitted

end Sys2Proof.Machine
end

