-- ==== Sys2Proof/Machine/Engine.lean ====
section
/-! DEFINITION. The engine's turn: it decodes and runs the latched command as one atomic step (10_state.md R31,
00_scope.md R15); with no command in flight it does nothing (60_exceptions.md R355). -/

namespace Sys2Proof.Machine

/-- Decode the command word c and run it; an illegal word ends with ILLEGAL_COMMAND (60_exceptions.md R331). -/
def runWord (c : Word) (s : State) : Result :=
  match decode c with
  | .ok i => exec i s
  | .error _ => raiseIllegal s

/-- The engine's turn. -/
def engineTurn (s : State) : Result :=
  match s.current with
  | some c => runWord c s
  | none => .next s

/-- One turn of the total order (20_memory.md R93). -/
def takeTurn (t : Turn) (s : State) : Result :=
  match t with
  | .access a => hostAccess a s
  | .engine => engineTurn s
  | .reset => .next s.platformReset

/-- Place the command word c as the next thing the engine runs: the host's CMD write of c has been accepted
(10_state.md R31) and no other turn comes before the engine's. -/
def State.place (s : State) (c : Word) : State := { s.accept c with turns := [] }

end Sys2Proof.Machine
end

