-- ==== Sys2Proof/Machine/Step.lean ====
section
/-! DEFINITION. step: the next turn of the total order of 20_memory.md R93, or, when no turn is listed, the
engine's own (70_reset_and_hazards.md R384: an accepted command completes). -/

namespace Sys2Proof.Machine

/-- One step of the machine. -/
def step (s : State) : Host.Outcome State Fault Refusal :=
  match s.turns with
  | [] => engineTurn s
  | t :: rest => takeTurn t { s with turns := rest }

/-- s with the given table word accepted as the current command and the engine's turn next (assumption 2). -/
def State.withFetchWord (s : State) (nbits w : Nat) : State := s.place (tableWord nbits w)

end Sys2Proof.Machine
end

