-- ==== Sys2Proof/Machine/HostProgram.lean ====
section
/-! DEFINITION. Host programs in the notation of 30_encoding.md R130, run turn by turn on `step`. -/

namespace Sys2Proof.Machine

/-- A host action of R130. `exec` carries how many times the wait loop reads STATUS before the engine's turn comes.
`engine` is no action of the host: it says that the engine's turn comes here, so that both interleavings of 20_memory.md
R93 after a bare `wr CMD` can be written (assumption 20). -/
inductive HostStmt where
  | wr (r : HostReg) (v : Word)
  | rd (r : HostReg)
  | wrb (a : Nat) (bytes : List Byte)
  | wrw (k : Nat) (words : List Word)
  | exec (c : Word) (polls : Nat)
  | copyOutToIn
  | engine
  deriving DecidableEq, Repr

/-- Go on from a next state; a fault or a refusal ends the run. -/
def andThen (r : Result) (f : State → Result) : Result :=
  match r with
  | .next s => f s
  | .fault e => .fault e
  | .refused e => .refused e

/-- Run turns through `step`, one after the other: these turns and no others between them (assumption 20). -/
def runTurns : List Turn → State → Result
  | [], s => .next s
  | t :: ts, s => andThen (step { s with turns := [t] }) (runTurns ts)

/-- A 64-bit read of a register. -/
def regRead (p : Params) (r : HostReg) : Turn := .access (.read (p.regBase + r.offset) 64)

/-- A 64-bit write of a register. -/
def regWrite (p : Params) (r : HostReg) (v : Word) : Turn := .access (.write (p.regBase + r.offset) 64 v)

/-- Byte writes from IN address a upward. -/
def byteWrites (p : Params) : Nat → List Byte → List Turn
  | _, [] => []
  | a, b :: bs => .access (.write (p.inBase + a) 8 (b.setWidth 64)) :: byteWrites p (a + 1) bs

/-- 64-bit writes from IN word k upward. -/
def wordWrites (p : Params) : Nat → List Word → List Turn
  | _, [] => []
  | k, w :: ws => .access (.write (p.inBase + 8 * k) 64 w) :: wordWrites p (k + 1) ws

/-- The copy of n words from word k on, each read from OUT and then written to IN. -/
def copyWords : Nat → Nat → State → Result
  | _, 0, s => .next s
  | k, n + 1, s =>
    andThen (runTurns [.access (.read (s.params.outBase + 8 * k) 64)] s) fun s1 =>
    andThen (runTurns [.access (.write (s.params.inBase + 8 * k) 64 (s1.reads.headD 0))] s1)
      (copyWords (k + 1) n)

/-- One host action. The copy OUT->IN takes every word k < OUT_LEN/8, the quotient being exact, so the last one may be
only in part below OUT_LEN (assumption 21). -/
def HostStmt.run (h : HostStmt) (s : State) : Result :=
  match h with
  | .wr r v => runTurns [regWrite s.params r v] s
  | .rd r => runTurns [regRead s.params r] s
  | .wrb a bytes => runTurns (byteWrites s.params a bytes) s
  | .wrw k words => runTurns (wordWrites s.params k words) s
  | .exec c polls =>
    runTurns (regWrite s.params .cmd c :: List.replicate polls (regRead s.params .status) ++
      [.engine, regRead s.params .status]) s
  | .copyOutToIn =>
    andThen (copyWords 0 (ceilDiv s.outLen.toNat 8) s) (runTurns [regWrite s.params .inLen s.outLen])
  | .engine => runTurns [.engine] s

/-- A host program. -/
def runHost : List HostStmt → State → Result
  | [], s => .next s
  | h :: hs, s => andThen (h.run s) (runHost hs)

end Sys2Proof.Machine
end

