-- ==== Sys2Proof/Safety.lean ====
section
/-! DEFINITION. What a sound state is, in the terms the claims use: the invariant of the machine, when a command's
common checks pass, and what two states agree on. -/

namespace Sys2Proof.Machine

/-- Every listed address is below n. -/
def Memory.below (n : Nat) (m : Memory) : Prop := ∀ c ∈ m, c.1 < n

/-- The state of the engine is one its rules allow. -/
structure State.Inv (s : State) : Prop where
  /-- The parameters are in the ranges of 00_scope.md R8. -/
  params_valid : s.params.valid
  /-- There are NBB registers (10_state.md R40). -/
  bb_count : s.bb.length = s.params.nbb
  /-- No register is longer than BB_CAP_BITS (R40). -/
  bb_cap : ∀ b ∈ s.bb, b.length ≤ s.params.bbCapBits
  /-- IN is canonical and inside its window (20_memory.md R80). -/
  in_wf : Memory.wf s.inMem
  in_bound : Memory.below s.params.inCap s.inMem
  /-- OUT is canonical and inside its window (R80). -/
  out_wf : Memory.wf s.outMem
  out_bound : Memory.below s.params.outCap s.outMem
  /-- OUT_LEN is inside OUT, and every byte below it is defined (R87). -/
  outLen_le : s.outLen.toNat ≤ s.params.outCap
  out_defined : ∀ a, a < s.outLen.toNat → (Memory.read s.outMem a).isSome = true
  /-- ERR = 1 exactly when ERRCODE ≠ 0; codes above 6 are never produced (10_state.md R34, 60_exceptions.md R330). -/
  err_iff : s.status.err = true ↔ s.status.errcode ≠ 0
  errcode_le : s.status.errcode.toNat ≤ 6
  /-- An error leaves ABSENT 0 (10_state.md R46). -/
  err_not_absent : s.status.err = true → s.status.absent = false
  /-- BUSY = 1 exactly while a current command is latched (R31, R49). -/
  busy_iff : s.status.busy = s.current.isSome
  /-- CMD reads the current command (R31). -/
  current_cmd : ∀ c, s.current = some c → s.cmd = c
  /-- While BUSY, the flags are as acceptance left them (R31, R34). -/
  busy_flags : s.status.busy = true →
    s.status.done = false ∧ s.status.err = false ∧ s.status.absent = false ∧ s.status.errcode = 0

/-- The common checks pass for a command: its registers exist and it can take IN_LEN (60_exceptions.md R331, R332). -/
abbrev State.accepts (s : State) (i : Instr) : Prop :=
  i.wellFormed s.params.nbb = true ∧ (inputClass i).lengthOk s = true

/-- What a host cannot see changed but by reading: everything except the coming turns, the host's reads and the
draws. -/
def State.engineSide (s : State) : State := { s with turns := [], reads := [], draws := 0 }

/-! ### The streams the decoders accept -/

/-- w is the table words T, the bit count nb and the bit words `body` of 41_huffman.md R215, in a form that raises
nothing before the tree is used. -/
def HuffmanForm (w T : List Word) (nb : Word) (body : List Word) : Prop :=
  w = BitVec.ofNat 64 T.length :: T ++ nb :: body ∧ T.length ≤ 256 ∧
  (∀ x ∈ T, (x.extractLsb' 0 56).toNat ≠ 0) ∧ (T.map (·.extractLsb' 56 8)).Nodup ∧
  body.length = (nb.toNat + 63) / 64

/-- The string of an LZW code k, given the strings that the codes of a sequence stand for: below 256 a byte, and
256 + j the entry added by the (j+1)-st code, its string and the first byte of the next one (42_lzw.md R261, R270). -/
def dictString (strings : List (List Byte)) (k : Nat) : List Byte :=
  if k < 256 then [BitVec.ofNat 8 k] else strings.getD (k - 256) [] ++ (strings.getD (k - 255) []).take 1

/-- The codes stand for the strings: the i-th code is one that the dictionary holds or is about to hold (at most
255 + i), and its string is the dictionary's. The case k = 255 + i of R270, the string before and its own first byte, is
`dictString` too. -/
def CodesStandFor (codes : List Int) (strings : List (List Byte)) : Prop :=
  strings.length = codes.length ∧
  ∀ (i : Nat) (k : Int), codes[i]? = some k →
    0 ≤ k ∧ k ≤ 255 + i ∧ strings[i]? = some (dictString strings k.toNat)

/-- A run of k steps that neither stops nor is refused. -/
def runsSafely (k : Nat) (s : State) : Prop := ∃ t, Sys2Proof.core.run k s = .next t

end Sys2Proof.Machine
end

