-- ==== Sys2Proof/Certificates/Slice0/Obligations.lean ====
section
/-! DEFINITION. The statements of this model for the provers, from the numbered rules of spec/. -/

open Sys2Proof Sys2Proof.Machine

/-! ### Encoding (30_encoding.md) -/

/-- Decoding an encoded command gives it back, whatever its operands (R121, R122, R124). -/
def Obligations.DecodeEncodeRoundTrip : Prop :=
  ∀ i : Instr, decode (encode i) = .ok i

/-- A word that decodes is the encoding of what it decodes to: every command has exactly one word (R123, R124). -/
def Obligations.DecodedWordIsItsCommandsEncoding : Prop :=
  ∀ (c : Word) (i : Instr), decode c = .ok i → encode i = c

/-- Which words are legal, said field by field: rsv is 0, the opcode is assigned, and every field its row does not use
is 0; for BB.SINGLE imm8 is 0 or 1 (R121, R123, R124, R125). -/
def Obligations.LegalWordsByTheirFields : Prop :=
  ∀ c : Word,
    let op := (c.extractLsb' 0 8).toNat
    let rd := c.extractLsb' 8 4
    let rs1 := c.extractLsb' 12 4
    let rs2 := c.extractLsb' 16 4
    let imm8 := c.extractLsb' 20 8
    (∃ i, decode c = .ok i) ↔
      c.extractLsb' 28 36 = 0 ∧
      ((op ∈ [0x00, 0x10, 0x11, 0x12, 0x20, 0x21, 0x22, 0x23, 0x24, 0x25] ∧
          rd = 0 ∧ rs1 = 0 ∧ rs2 = 0 ∧ imm8 = 0) ∨
        (op ∈ [0x01, 0x07] ∧ rs1 = 0 ∧ rs2 = 0 ∧ imm8 = 0) ∨
        (op = 0x02 ∧ rs1 = 0 ∧ rs2 = 0 ∧ imm8.toNat ≤ 1) ∨
        (op = 0x03 ∧ rs2 = 0 ∧ imm8 = 0) ∨
        (op ∈ [0x04, 0x06] ∧ rd = 0 ∧ rs2 = 0 ∧ imm8 = 0) ∨
        (op = 0x05 ∧ rd = 0 ∧ imm8 = 0) ∨
        (op = 0x13 ∧ rs1 = 0 ∧ rs2 = 0))

/-- Every 64-bit word selects exactly one row and decodes, or selects none and is refused, for a reserved opcode or a
nonzero unused field (R126). -/
def Obligations.EveryWordSelectsOneRowOrIsRefused : Prop :=
  ∀ c : Word,
    ((opcodeTable.filter (·.selects c)).length = 1 ∧ ∃ i, decode c = .ok i) ∨
    (opcodeTable.filter (·.selects c) = [] ∧
      (decode c = .error (.reservedOpcode (opField c)) ∨ decode c = .error (.nonzeroUnusedField (opField c))))

/-- Words written out from the spec's encodings and examples decode to the commands they stand for
(30_encoding.md R128, 95_test_vectors.md section 2, 40 to 42). -/
def Obligations.SpecWordsDecode : Prop :=
  decode 0x0000000000000000 = .ok .nop ∧
  decode 0x0000000000000201 = .ok (.bbClear 2) ∧
  decode 0x0000000000100002 = .ok (.bbSingle 0 true) ∧
  decode 0x0000000000002103 = .ok (.bbAppend 1 2) ∧
  decode 0x0000000000021005 = .ok (.bbEq 1 2) ∧
  decode 0x0000000000003006 = .ok (.bbStore 3) ∧
  decode 0x0000000000000107 = .ok (.bbLoad 1) ∧
  decode 0x0000000000000011 = .ok .hufDec ∧
  decode 0x0000000002400313 = .ok (.hufCode 3 0x24) ∧
  decode 0x0000000000000025 = .ok .lzwExpand ∧
  decode 0x0000000000000008 = .error (.reservedOpcode 0x08) ∧
  decode 0x0000000000005011 = .error (.nonzeroUnusedField 0x11)

/-! ### A step -/

/-- The engine's turn runs the latched command: when its word decodes to i, step is exec of i, both when no turn is
listed and when the engine's turn is the next one, which the step then takes off the list (R31, 20_memory.md R93). A
table word placed with withFetchWord is what the next step runs. -/
def Obligations.StepRunsTheDecodedCommand : Prop :=
  ∀ (s : State) (c : Word) (i : Instr) (rest : List Turn),
    (s.current = some c → decode c = .ok i →
      (s.turns = [] → step s = exec i s) ∧
      (s.turns = .engine :: rest → step s = exec i { s with turns := rest })) ∧
    (∀ nbits w : Nat, decodeTableWord nbits w = some i →
      step (s.withFetchWord nbits w) = exec i (s.withFetchWord nbits w))

/-- With no command in flight the engine changes nothing (60_exceptions.md R355). -/
def Obligations.IdleEngineKeepsItsState : Prop :=
  ∀ (s : State) (rest : List Turn), s.current = none →
    (s.turns = [] → step s = .next s) ∧
    (s.turns = .engine :: rest → step s = .next { s with turns := rest })

/-! ### The host's accesses -/

/-- R31: a CMD write while idle accepts the command; the engine's turn then runs it, decoding included. -/
def Obligations.CmdWriteWhileIdleIsAccepted : Prop :=
  ∀ (s : State) (c : Word) (rest : List Turn),
    s.status.busy = false → s.turns = .access (.write s.params.regBase 64 c) :: rest →
    ∃ t, step s = .next t ∧
      t = { s with
        turns := rest, cmd := c, current := some c
        status := { busy := true, done := false, err := false, absent := false, errcode := 0,
                    lost := s.status.lost } } ∧
      t.readReg .cmd = c ∧
      (∀ i, decode c = .ok i → step { t with turns := [] } = exec i { t with turns := [] }) ∧
      (∀ e, decode c = .error e →
        ∃ u, step { t with turns := [] } = .next u ∧ u.status.busy = false ∧ u.status.errcode = 1)

/-- R32: a CMD write while BUSY only sets LOST. -/
def Obligations.CmdWriteWhileBusyIsDropped : Prop :=
  ∀ (s : State) (c : Word) (rest : List Turn),
    s.status.busy = true → s.turns = .access (.write s.params.regBase 64 c) :: rest →
    step s = .next { s with turns := rest, status := { s.status with lost := true } }

/-- R35: a STATUS write clears DONE where v[1] = 1 and LOST where v[4] = 1, and nothing else. -/
def Obligations.StatusWriteClearsDoneAndLost : Prop :=
  ∀ (s : State) (v : Word) (rest : List Turn),
    s.turns = .access (.write (s.params.regBase + 0x08) 64 v) :: rest →
    step s = .next { s with
      turns := rest
      status := { s.status with
        done := if v.getLsbD 1 = true then false else s.status.done
        lost := if v.getLsbD 4 = true then false else s.status.lost } }

/-- What a 64-bit write does to the other registers: CTRL takes IE (R36), IN_LEN and ARG take the value while idle (R37,
R39), OUT_LEN and RESULT are read-only (R38, R39). -/
def Obligations.RegisterWritesReachTheirRegister : Prop :=
  ∀ (s : State) (v : Word) (rest : List Turn),
    (s.turns = .access (.write (s.params.regBase + 0x10) 64 v) :: rest →
      step s = .next { s with turns := rest, ie := v.getLsbD 0 }) ∧
    (s.status.busy = false → s.turns = .access (.write (s.params.regBase + 0x18) 64 v) :: rest →
      step s = .next { s with turns := rest, inLen := v }) ∧
    (s.status.busy = false → s.turns = .access (.write (s.params.regBase + 0x28) 64 v) :: rest →
      step s = .next { s with turns := rest, arg := v }) ∧
    (s.turns = .access (.write (s.params.regBase + 0x20) 64 v) :: rest → step s = .next { s with turns := rest }) ∧
    (s.turns = .access (.write (s.params.regBase + 0x30) 64 v) :: rest → step s = .next { s with turns := rest })

/-- R43: CAP_IN, CAP_OUT, CAP_BB and CAP_NBB read their constants, ignore writes, and hold them after reset. -/
def Obligations.CapabilityRegistersAreConstants : Prop :=
  ∀ (s : State) (off n : Nat) (v : Word) (rest : List Turn),
    (off, n) ∈ [(0x38, s.params.inCap), (0x40, s.params.outCap), (0x48, s.params.bbCapBits), (0x50, s.params.nbb)] →
    (s.turns = .access (.read (s.params.regBase + off) 64) :: rest →
      step s = .next { s with turns := rest, reads := BitVec.ofNat 64 n :: s.reads, draws := s.draws + 1 }) ∧
    (s.turns = .access (.write (s.params.regBase + off) 64 v) :: rest → step s = .next { s with turns := rest }) ∧
    (s.turns = .reset :: rest → ∃ t, step s = .next t ∧ t.params = s.params)

/-- R44: the offsets 0x58 to 0xF8 read 0 and ignore writes. -/
def Obligations.ReservedOffsetsReadZero : Prop :=
  ∀ (s : State) (off : Nat) (v : Word) (rest : List Turn),
    0x58 ≤ off → off ≤ 0xF8 → off % 8 = 0 →
    (s.turns = .access (.read (s.params.regBase + off) 64) :: rest →
      step s = .next { s with turns := rest, reads := 0 :: s.reads, draws := s.draws + 1 }) ∧
    (s.turns = .access (.write (s.params.regBase + off) 64 v) :: rest → step s = .next { s with turns := rest })

/-- What a 64-bit read of each register returns: exact (R30, R381), but for OUT_LEN and RESULT while BUSY, where it is
the free value of the draw (R381). -/
def Obligations.RegisterReadsReturnTheirValue : Prop :=
  ∀ (s : State) (off : Nat) (v : Word) (rest : List Turn),
    (off, v) ∈
      [(0x00, s.cmd), (0x08, s.status.word), (0x10, if s.ie then 1 else 0), (0x18, s.inLen), (0x28, s.arg),
       (0x20, if s.status.busy then Config.freeWord s.draws else s.outLen),
       (0x30, if s.status.busy then Config.freeWord s.draws else s.result)] →
    s.turns = .access (.read (s.params.regBase + off) 64) :: rest →
    step s = .next { s with turns := rest, reads := v :: s.reads, draws := s.draws + 1 }

/-- R34: the bits of the STATUS word. -/
def Obligations.StatusWordFields : Prop :=
  ∀ st : Status,
    st.word.getLsbD 0 = st.busy ∧ st.word.getLsbD 1 = st.done ∧ st.word.getLsbD 2 = st.err ∧
    st.word.getLsbD 3 = st.absent ∧ st.word.getLsbD 4 = st.lost ∧ st.word.extractLsb' 5 3 = 0 ∧
    st.word.extractLsb' 8 8 = st.errcode ∧ st.word.extractLsb' 16 48 = 0

/-- R380: while BUSY a write to IN, IN_LEN or ARG is refused; CTRL, STATUS and CMD writes are allowed. -/
def Obligations.InputWritesWhileBusyAreRefused : Prop :=
  ∀ (s : State) (v : Word) (rest : List Turn),
    s.status.busy = true → s.params.windowsApart →
    (s.turns = .access (.write (s.params.regBase + 0x18) 64 v) :: rest →
      step s = .refused .inputWriteWhileBusy) ∧
    (s.turns = .access (.write (s.params.regBase + 0x28) 64 v) :: rest →
      step s = .refused .inputWriteWhileBusy) ∧
    (∀ off width, off < s.params.inCap → (width = 8 ∨ (width = 64 ∧ off % 8 = 0)) →
      s.turns = .access (.write (s.params.inBase + off) width v) :: rest →
      step s = .refused .inputWriteWhileBusy) ∧
    (s.turns = .access (.write (s.params.regBase + 0x10) 64 v) :: rest →
      step s = .next { s with turns := rest, ie := v.getLsbD 0 }) ∧
    (s.turns = .access (.write (s.params.regBase + 0x08) 64 v) :: rest →
      ∃ t, step s = .next t ∧ t.status.busy = true) ∧
    (s.turns = .access (.write s.params.regBase 64 v) :: rest →
      ∃ t, step s = .next t ∧ t.status.lost = true ∧ t.cmd = s.cmd)

/-- A host read changes nothing of the engine: it is refused, or the host receives a value and everything else but the
model's own draw counter stays (R90). -/
def Obligations.HostReadsChangeNothingOfTheEngine : Prop :=
  ∀ (s : State) (addr width : Nat) (rest : List Turn),
    s.turns = .access (.read addr width) :: rest →
    step s = .refused .accessNotAdmitted ∨
    ∃ v n, step s = .next { s with turns := rest, reads := v :: s.reads, draws := s.draws + n }

/-- R88: exactly the listed accesses are admitted, any other is refused, and a write to OUT is ignored. -/
def Obligations.ExactlyTheListedAccessesAreAdmitted : Prop :=
  ∀ (s : State) (addr width : Nat) (v : Word) (rest : List Turn),
    let p := s.params
    let wide := width = 64
    let inRegs := p.regBase ≤ addr ∧ addr < p.regBase + 256
    let inIn := p.inBase ≤ addr ∧ addr < p.inBase + p.inCap
    let inOut := p.outBase ≤ addr ∧ addr < p.outBase + p.outCap
    p.windowsApart →
    let ok := (inRegs ∧ wide ∧ (addr - p.regBase) % 8 = 0) ∨
      (inIn ∧ (width = 8 ∨ (wide ∧ (addr - p.inBase) % 8 = 0))) ∨
      (inOut ∧ (width = 8 ∨ (wide ∧ (addr - p.outBase) % 8 = 0)))
    (s.turns = .access (.read addr width) :: rest → (step s = .refused .accessNotAdmitted ↔ ¬ ok)) ∧
    (s.turns = .access (.write addr width v) :: rest →
      (step s = .refused .accessNotAdmitted ↔ ¬ ok) ∧
      (inOut → ok → step s = .next { s with turns := rest }))

/-- A 64-bit write to IN puts byte v[8j+7:8j] at IN[off + j] and leaves every other byte; a byte write puts v[7:0] at
IN[off] alone (R82, R86, R88). -/
def Obligations.InWritesAreLittleEndian : Prop :=
  ∀ (s : State) (off : Nat) (v : Word) (rest : List Turn),
    s.status.busy = false → s.params.windowsApart → off < s.params.inCap →
    (off % 8 = 0 → s.turns = .access (.write (s.params.inBase + off) 64 v) :: rest →
      ∃ m, step s = .next { s with turns := rest, inMem := m } ∧
        (∀ j, j < 8 → Memory.read m (off + j) = some (v.extractLsb' (8 * j) 8)) ∧
        (∀ a, (a < off ∨ off + 8 ≤ a) → Memory.read m a = Memory.read s.inMem a)) ∧
    (s.turns = .access (.write (s.params.inBase + off) 8 v) :: rest →
      ∃ m, step s = .next { s with turns := rest, inMem := m } ∧
        Memory.read m off = some (v.extractLsb' 0 8) ∧
        (∀ a, a ≠ off → Memory.read m a = Memory.read s.inMem a))

/-- R82: InWord(k) is the sum of IN[8k + j] << 8j, and OutWord(k, v) puts byte v[8j+7:8j] at OUT[8k + j]. -/
def Obligations.WordsAreAssembledLittleEndian : Prop :=
  (∀ (bs : List Byte) (k : Nat), 8 * k + 8 ≤ bs.length →
    ∃ w, (wordsOfBytes bs)[k]? = some w ∧
      w.toNat = ∑ j ∈ Finset.range 8, (bs.getD (8 * k + j) 0).toNat * 2 ^ (8 * j)) ∧
  (∀ bs : List Byte, (wordsOfBytes bs).length = bs.length / 8) ∧
  (∀ (ws : List Word) (k j : Nat) (w : Word), ws[k]? = some w → j < 8 →
    (bytesOfWords ws)[8 * k + j]? = some (w.extractLsb' (8 * j) 8))

/-- A host read of defined bytes returns them: of OUT while idle, of IN also while BUSY (R82, R86, R88, R381). A 64-bit
read returns the word the eight bytes make up, an 8-bit read the byte (with zeros above it: assumption 18). -/
def Obligations.OutReadsAreLittleEndian : Prop :=
  ∀ (s : State) (off : Nat) (w : Word) (b : Byte) (rest : List Turn), s.params.windowsApart →
    (s.status.busy = false → off < s.params.outCap →
      (off % 8 = 0 → (∀ j, j < 8 → Memory.read s.outMem (off + j) = some (w.extractLsb' (8 * j) 8)) →
        s.turns = .access (.read (s.params.outBase + off) 64) :: rest →
        step s = .next { s with turns := rest, reads := w :: s.reads, draws := s.draws + 8 }) ∧
      (Memory.read s.outMem off = some b → s.turns = .access (.read (s.params.outBase + off) 8) :: rest →
        step s = .next { s with turns := rest, reads := b.setWidth 64 :: s.reads, draws := s.draws + 1 })) ∧
    (off < s.params.inCap →
      (off % 8 = 0 → (∀ j, j < 8 → Memory.read s.inMem (off + j) = some (w.extractLsb' (8 * j) 8)) →
        s.turns = .access (.read (s.params.inBase + off) 64) :: rest →
        step s = .next { s with turns := rest, reads := w :: s.reads, draws := s.draws + 8 }) ∧
      (Memory.read s.inMem off = some b → s.turns = .access (.read (s.params.inBase + off) 8) :: rest →
        step s = .next { s with turns := rest, reads := b.setWidth 64 :: s.reads, draws := s.draws + 1 }))

/-- R345: IRQ is IE and DONE; it is IE after any command ends, and it follows the host's writes. -/
def Obligations.IrqFollowsDoneAndEnable : Prop :=
  (∀ s : State, s.irq = true ↔ (s.ie = true ∧ s.status.done = true)) ∧
  (∀ (c : Word) (s t : State), runWord c s = .next t → t.irq = s.ie) ∧
  (∀ (s : State) (v : Word) (rest : List Turn),
    (s.turns = .access (.write (s.params.regBase + 0x10) 64 v) :: rest →
      ∃ t, step s = .next t ∧ t.irq = (v.getLsbD 0 && s.status.done)) ∧
    (s.turns = .access (.write (s.params.regBase + 0x08) 64 v) :: rest →
      ∃ t, step s = .next t ∧ t.irq = (s.irq && !v.getLsbD 1)) ∧
    (s.status.busy = false → s.turns = .access (.write s.params.regBase 64 v) :: rest →
      ∃ t, step s = .next t ∧ t.irq = false))

/-! ### Errors and completion (60_exceptions.md) -/

/-- A word that is illegal ends with ILLEGAL_COMMAND whatever its register fields hold; a legal one that names a register
at or above NBB ends with BAD_REGISTER (R331). That this comes also before the refusal of a command whose input is not all
written (R371) is the model's reading (assumption 12). -/
def Obligations.DecodeChecksComeFirst : Prop :=
  ∀ (s : State) (c : Word), s.current = some c → s.turns = [] →
    (∀ e, decode c = .error e →
      ∃ t, step s = .next t ∧ t.outLen = 0 ∧
        t.status = { s.status with busy := false, done := true, err := true, absent := false, errcode := 1 }) ∧
    (∀ i, decode c = .ok i → (∃ r ∈ i.registers, s.params.nbb ≤ r.toNat) →
      ∃ t, step s = .next t ∧ t.outLen = 0 ∧
        t.status = { s.status with busy := false, done := true, err := true, absent := false, errcode := 2 })

/-- BAD_LENGTH, after the register check and before any work; commands that read no IN never raise it (R332). That it
comes also before the refusal of a command whose input is not all written (R371) is the model's reading (assumption 12;
V49 and V50 report BAD_LENGTH and write no input). -/
def Obligations.LengthCheckComesThird : Prop :=
  ∀ (i : Instr) (s : State), i.wellFormed s.params.nbb = true →
    ((inputClass i ≠ .noInput ∧ s.params.inCap < s.inLen.toNat) ∨
        (inputClass i = .wordInput ∧ s.inLen.toNat % 8 ≠ 0) →
      ∃ t, exec i s = .next t ∧ t.outLen = 0 ∧
        t.status = { s.status with busy := false, done := true, err := true, absent := false, errcode := 3 }) ∧
    (inputClass i = .noInput → ∀ t, exec i s = .next t → t.status.errcode = 3 → s.status.errcode = 3)

/-- R335, R336: a command that ends in error writes STATUS, sets OUT_LEN to 0, leaves OUT without a defined byte if it is
OUT-writing (R127), and leaves everything else as it was. A word that does not decode is none of R127's commands: that it
leaves OUT is the model's reading (assumption 5). -/
def Obligations.ErrorsArePrecise : Prop :=
  (∀ (c : Word) (s : State) (d : DecodeError), decode c = .error d →
    runWord c s = .next { s with
      status := { s.status with busy := false, done := true, err := true, absent := false, errcode := 1 }
      current := none
      outLen := 0 }) ∧
  ∀ (i : Instr) (s t : State), exec i s = .next t → s.status.err = false → t.status.err = true →
    ∃ e : Byte, 2 ≤ e.toNat ∧ e.toNat ≤ 6 ∧
      t = { s with
        status := { s.status with busy := false, done := true, err := true, absent := false, errcode := e }
        current := none
        outLen := 0
        outMem :=
          if (∃ r, i = .bbStore r) ∨
            i ∈ [.hufEnc, .hufDec, .hufFreq, .lzwEnc, .lzwDec, .lzwCodes, .lzwPack, .lzwUnpack, .lzwExpand]
          then [] else s.outMem }

/-- R334: a command accepted with clear flags that does not fail ends with BUSY 0, DONE 1, ERR and ERRCODE 0, LOST as it
was, ABSENT 0 unless it is BB.BITAT or HUF.CODE. -/
def Obligations.CompletionStatus : Prop :=
  ∀ (i : Instr) (s t : State), exec i s = .next t → s.status.err = false → s.status.errcode = 0 →
    s.status.absent = false → t.status.err = false →
    t.status = { busy := false, done := true, err := false, absent := t.status.absent, errcode := 0,
                 lost := s.status.lost } ∧
    t.current = none ∧
    (t.status.absent = true → (∃ r, i = .bbBitat r) ∨ ∃ r b, i = .hufCode r b)

/-- R337: every command ends in a next state that is no longer busy, but for one that reads IN when IN[0..IN_LEN) is not
all written, which is refused (R371). -/
def Obligations.EveryCommandEnds : Prop :=
  ∀ (i : Instr) (s : State),
    (∃ t, exec i s = .next t ∧ t.status.busy = false ∧ t.status.done = true ∧ t.current = none) ∨
    (exec i s = .refused .unwrittenInput ∧ inputClass i ≠ .noInput ∧
      ∃ a, a < s.inLen.toNat ∧ Memory.read s.inMem a = none)

/-! ### What no command changes -/

/-- The engine never writes IN, IN_LEN, ARG, CTRL or CMD, keeps LOST, and does not touch the coming turns or the host's
reads (R36, R37, R39, R80, R335). -/
def Obligations.EngineLeavesTheHostsRegisters : Prop :=
  ∀ (c : Word) (s t : State), runWord c s = .next t →
    t.params = s.params ∧ t.cmd = s.cmd ∧ t.ie = s.ie ∧ t.inLen = s.inLen ∧ t.arg = s.arg ∧
    t.inMem = s.inMem ∧ t.turns = s.turns ∧ t.reads = s.reads ∧ t.draws = s.draws ∧
    t.status.lost = s.status.lost

/-- RESULT is written only by BB.BITAT and BB.EQ (R39). -/
def Obligations.ResultIsWrittenOnlyByBitAtAndEq : Prop :=
  ∀ (c : Word) (s t : State), runWord c s = .next t → t.result ≠ s.result →
    ∃ i, decode c = .ok i ∧ ((∃ r, i = .bbBitat r) ∨ ∃ r r', i = .bbEq r r')

/-- R46: a command that completes without error sets ABSENT exactly when it is BB.BITAT with an index not below the bit
count, or HUF.CODE with a symbol not in the block; an error leaves ABSENT 0; acceptance clears it. -/
def Obligations.AbsentIsSetExactlyByTwoCommands : Prop :=
  (∀ (i : Instr) (s t : State), exec i s = .next t → s.status.err = false → s.status.absent = false →
    (t.status.err = true → t.status.absent = false) ∧
    (t.status.err = false →
      (t.status.absent = true ↔
        (∃ r, i = .bbBitat r ∧ (s.bitBuffer r).length ≤ s.arg.toNat) ∨
        (∃ r sym block, i = .hufCode r sym ∧ s.inBlock = some block ∧ sym ∉ block)))) ∧
  (∀ (c : Word) (s : State) (d : DecodeError), decode c = .error d →
    ∃ t, runWord c s = .next t ∧ t.status.absent = false) ∧
  (∀ (s : State) (c : Word), (s.accept c).status.absent = false)

/-- A command changes no BitBuffer register but the destination rd of BB.CLEAR, BB.SINGLE, BB.APPEND, BB.LOAD or
HUF.CODE, and never the number of registers (R152 to R158, R231, R335). -/
def Obligations.OnlyTheDestinationBitBufferChanges : Prop :=
  ∀ (i : Instr) (s t : State), exec i s = .next t →
    t.bb.length = s.bb.length ∧
    ∀ k : Nat, t.bb[k]? ≠ s.bb[k]? →
      ∃ rd : RegIx, rd.toNat = k ∧
        (i = .bbClear rd ∨ (∃ v, i = .bbSingle rd v) ∨ (∃ r, i = .bbAppend rd r) ∨ i = .bbLoad rd ∨
          ∃ sym, i = .hufCode rd sym)

/-- A command that is not OUT-writing leaves every byte of OUT, and OUT_LEN too unless it fails (R87, R127). -/
def Obligations.OtherCommandsLeaveOut : Prop :=
  ∀ (i : Instr) (s t : State), exec i s = .next t →
    (∀ r, i ≠ .bbStore r) →
    i ∉ [.hufEnc, .hufDec, .hufFreq, .lzwEnc, .lzwDec, .lzwCodes, .lzwPack, .lzwUnpack, .lzwExpand] →
    (∀ a, Memory.read t.outMem a = Memory.read s.outMem a) ∧
    (s.status.err = false → t.status.err = false → t.outLen = s.outLen)

/-! ### The BitBuffer commands (40_bitbuffer.md) -/

/-- R150, R152, R153: NOP changes nothing but STATUS; BB.CLEAR writes [] and BB.SINGLE writes [v], whose storage form is
one word with v on top. -/
def Obligations.NopClearAndSingleComplete : Prop :=
  ∀ (s : State) (rd : RegIx) (v : Bool),
    let status := { s.status with busy := false, done := true }
    exec .nop s = .next { s with status := status, current := none } ∧
    (rd.toNat < s.params.nbb →
      exec (.bbClear rd) s = .next { s with bb := s.bb.set rd.toNat [], status := status, current := none } ∧
      exec (.bbSingle rd v) s = .next { s with bb := s.bb.set rd.toNat [v], status := status, current := none }) ∧
    wordsOfBits [] = [] ∧ wordsOfBits [v] = [if v then 0x8000000000000000 else 0]

/-- R154: BB.APPEND writes BB[rd] ++ BB[rs1], both read before the write, or fails with CAPACITY. -/
def Obligations.AppendConcatenatesOrFails : Prop :=
  ∀ (s : State) (rd rs1 : RegIx), rd.toNat < s.params.nbb → rs1.toNat < s.params.nbb →
    let a := s.bb.getD rd.toNat []
    let b := s.bb.getD rs1.toNat []
    (a.length + b.length ≤ s.params.bbCapBits →
      exec (.bbAppend rd rs1) s = .next { s with
        bb := s.bb.set rd.toNat (a ++ b)
        status := { s.status with busy := false, done := true }
        current := none }) ∧
    (s.params.bbCapBits < a.length + b.length →
      exec (.bbAppend rd rs1) s = .next { s with
        status := { s.status with busy := false, done := true, err := true, absent := false, errcode := 5 }
        current := none
        outLen := 0 })

/-- R155: BB.BITAT puts the bit at index ARG, read unsigned, in RESULT; at or above the bit count RESULT is 0 and ABSENT
is 1, without an error. -/
def Obligations.BitAtReadsOneBitOrIsAbsent : Prop :=
  ∀ (s : State) (rs1 : RegIx), rs1.toNat < s.params.nbb →
    let b := s.bb.getD rs1.toNat []
    (∀ h : s.arg.toNat < b.length,
      exec (.bbBitat rs1) s = .next { s with
        result := if b[s.arg.toNat] = true then 1 else 0
        status := { s.status with busy := false, done := true }
        current := none }) ∧
    (b.length ≤ s.arg.toNat →
      exec (.bbBitat rs1) s = .next { s with
        result := 0
        status := { s.status with busy := false, done := true, absent := true }
        current := none })

/-- R42: the bit counts and the stored words of two bit sequences are equal exactly when the sequences are. So BB.EQ (R156)
answers 1 exactly on the source's structural equality. -/
def Obligations.EqIsStructuralEquality : Prop :=
  (∀ a b : BitSeq, (wordsOfBits a = wordsOfBits b ∧ a.length = b.length) ↔ a = b) ∧
  ∀ (s : State) (rs1 rs2 : RegIx), rs1.toNat < s.params.nbb → rs2.toNat < s.params.nbb →
    let a := s.bb.getD rs1.toNat []
    let b := s.bb.getD rs2.toNat []
    exec (.bbEq rs1 rs2) s = .next { s with
      result := if a.length = b.length ∧ wordsOfBits a = wordsOfBits b then 1 else 0
      status := { s.status with busy := false, done := true }
      current := none }

/-- R41: the storage form has ceil(|b|/64) words; bit 63 - p of word k is bit 64k + p of b, and 0 past |b|. -/
def Obligations.StorageFormIsMostSignificantFirst : Prop :=
  ∀ b : BitSeq, (wordsOfBits b).length = (b.length + 63) / 64 ∧
    ∀ (k p : Nat) (w : Word), (wordsOfBits b)[k]? = some w → p < 64 →
      w.getLsbD (63 - p) = b.getD (64 * k + p) false

/-- R157: BB.STORE writes the bit count and the storage form to OUT, or fails with CAPACITY. -/
def Obligations.StoreWritesCountAndWords : Prop :=
  ∀ (s : State) (rs1 : RegIx), rs1.toNat < s.params.nbb →
    let b := s.bb.getD rs1.toNat []
    let n := 8 * (1 + (b.length + 63) / 64)
    (n ≤ s.params.outCap →
      ∃ m, exec (.bbStore rs1) s = .next { s with
          outMem := m
          outLen := BitVec.ofNat 64 n
          status := { s.status with busy := false, done := true }
          current := none } ∧
        ∀ a, Memory.read m a = (bytesOfWords (BitVec.ofNat 64 b.length :: wordsOfBits b))[a]?) ∧
    (s.params.outCap < n →
      exec (.bbStore rs1) s = .next { s with
        outMem := []
        outLen := 0
        status := { s.status with busy := false, done := true, err := true, absent := false, errcode := 5 }
        current := none })

/-- R158: BB.LOAD of the words n, d: MALFORMED_STREAM unless d has exactly ceil(n/64) words, then CAPACITY above
BB_CAP_BITS, else the register holds bits 0 to n-1 of d, padding ignored. -/
def Obligations.LoadReadsBackTheBits : Prop :=
  ∀ (s : State) (rd : RegIx) (block : List Byte), rd.toNat < s.params.nbb →
    s.inLen.toNat ≤ s.params.inCap → s.inLen.toNat % 8 = 0 → s.inBlock = some block →
    let failed (e : Byte) : State := { s with
      status := { s.status with busy := false, done := true, err := true, absent := false, errcode := e }
      current := none
      outLen := 0 }
    (wordsOfBytes block = [] → exec (.bbLoad rd) s = .next (failed 4)) ∧
    ∀ (n : Word) (d : List Word), wordsOfBytes block = n :: d →
      (d.length ≠ (n.toNat + 63) / 64 → exec (.bbLoad rd) s = .next (failed 4)) ∧
      (d.length = (n.toNat + 63) / 64 → s.params.bbCapBits < n.toNat → exec (.bbLoad rd) s = .next (failed 5)) ∧
      (d.length = (n.toNat + 63) / 64 → n.toNat ≤ s.params.bbCapBits →
        ∃ b : BitSeq, b.length = n.toNat ∧
          (∀ i, i < n.toNat → b.getD i false = (d.getD (i / 64) 0).getLsbD (63 - i % 64)) ∧
          exec (.bbLoad rd) s = .next { s with
            bb := s.bb.set rd.toNat b
            status := { s.status with busy := false, done := true }
            current := none })

/-- R160: BB.STORE of a register, OUT copied to IN, and BB.LOAD give the same bits again. -/
def Obligations.LoadInvertsStore : Prop :=
  ∀ (s : State) (rs1 rd : RegIx), s.Inv → rs1.toNat < s.params.nbb → rd.toNat < s.params.nbb →
    let b := s.bb.getD rs1.toNat []
    let n := 8 * (1 + (b.length + 63) / 64)
    n ≤ s.params.outCap → n ≤ s.params.inCap →
    ∃ t u, exec (.bbStore rs1) s = .next t ∧
      exec (.bbLoad rd) { t with inMem := t.outMem, inLen := t.outLen } = .next u ∧
      u.status.errcode = s.status.errcode ∧ u.bb = s.bb.set rd.toNat b

/-! ### The Huffman codec (41_huffman.md) -/

/-- R205, R207: the frequency pass lists exactly the bytes that occur, each with its count, in ascending signed order. -/
def Obligations.FreqPassCountsInSignedOrder : Prop :=
  ∀ block : List Byte,
    (∀ (b : Byte) (n : Nat), (b, n) ∈ freqPass block ↔ (n = block.count b ∧ 1 ≤ n)) ∧
    (freqPass block).Pairwise fun x y => x.1.toInt < y.1.toInt

/-- R206, R219: a frequency word holds the byte in bits 63:56 and the count below, and reads back by the arithmetic shift
by 56 and by the mask of 56 bits; so the table words of a block read back as its frequency pass, and the decoded table
does not depend on the order its words stand in. -/
def Obligations.FrequencyTableReadsBack : Prop :=
  (∀ (b : Byte) (n : Nat), n < 2 ^ 56 →
    (freqWord (b, n)).toNat = b.toNat * 2 ^ 56 + n ∧
    entryOfWord (freqWord (b, n)) = (b, n) ∧
    ((freqWord (b, n)).sshiftRight 56).toInt = b.toInt) ∧
  (∀ block : List Byte, block.length < 2 ^ 56 →
    ((hufEncode block).tail.take (freqPass block).length).map entryOfWord = freqPass block) ∧
  (∀ E F : List Entry, E.Perm F → (E.map (·.1)).Nodup → sortEntries E = sortEntries F)

/-- R201: in an ascending list Insert puts the element after every element of priority at most p and before the rest, and
the list stays ascending. R208: BuildTree inserts the leaves in the order given; then the two heads a, b are popped and
Node(left = b, right = a) is inserted with the sum of their priorities, until one element is left, the root, or none was
there; the fuel of the loop does not matter once it is enough. -/
def Obligations.InsertGoesAfterEqualPriorities : Prop :=
  (∀ (L : PriorityList) (p : Nat) (x : Tree), L.Pairwise (fun a b => a.1 ≤ b.1) →
    (∃ before after, L = before ++ after ∧ (∀ e ∈ before, e.1 ≤ p) ∧ (∀ e ∈ after, p < e.1) ∧
      PriorityList.insertAt L p x = before ++ (p, x) :: after) ∧
    (PriorityList.insertAt L p x).Pairwise (fun a b => a.1 ≤ b.1)) ∧
  (∀ E : List Entry,
    buildTree E = mergeLoop E.length (E.foldl (fun L e => PriorityList.insertAt L e.2 (.leaf e.1)) [])) ∧
  (∀ (n p q : Nat) (a b : Tree) (L : PriorityList),
    mergeLoop n [] = none ∧ mergeLoop n [(p, a)] = some a ∧
    mergeLoop (n + 1) ((p, a) :: (q, b) :: L) = mergeLoop n (PriorityList.insertAt L (p + q) (.node b a))) ∧
  (∀ (n m : Nat) (L : PriorityList), L.length ≤ n + 1 → L.length ≤ m + 1 → mergeLoop n L = mergeLoop m L)

/-- R212: a tree built of entries with distinct bytes has a leaf for each of them; with two or more no code is a prefix of
another and every code has 1 to n - 1 <= 255 bits; with one, its code is empty. R211: the code of a byte is empty at its
leaf, and at a node it is bit 0 and the code in the left subtree if the byte occurs there, else bit 1 and the code in the
right subtree. -/
def Obligations.CodesArePrefixFree : Prop :=
  (∀ (E : List Entry) (t : Tree), (E.map (·.1)).Nodup → buildTree E = some t →
    (∀ x, t.occurs x = true ↔ x ∈ E.map (·.1)) ∧
    (2 ≤ E.length → ∀ x ∈ E.map (·.1),
      1 ≤ (t.code x).length ∧ (t.code x).length ≤ E.length - 1 ∧ (t.code x).length ≤ 255 ∧
      ∀ y ∈ E.map (·.1), x ≠ y → ¬ t.code x <+: t.code y) ∧
    (E.length = 1 → ∀ x ∈ E.map (·.1), t.code x = [])) ∧
  (∀ (x y : Byte) (l r : Machine.Tree),
    (Machine.Tree.occurs x (.leaf y) = true ↔ x = y) ∧
    (Machine.Tree.occurs x (.node l r) = true ↔ (l.occurs x = true ∨ r.occurs x = true)) ∧
    Machine.Tree.code x (.leaf x) = [] ∧
    (l.occurs x = true → Machine.Tree.code x (.node l r) = false :: l.code x) ∧
    (l.occurs x = false → r.occurs x = true → Machine.Tree.code x (.node l r) = true :: r.code x))

/-- R218: decoding an encoded block gives the block again, the empty block and a block of one repeated byte included. -/
def Obligations.HuffmanRoundTrip : Prop :=
  ∀ (block : List Byte) (cap : Nat), block.length ≤ cap → block.length < 2 ^ 56 →
    hufDecode cap (hufEncode block) = .ok block

/-- R214: the empty block encodes to [0, 0], and c copies of one byte s to [1, FreqWord(s, c), 0]. -/
def Obligations.SpecialHuffmanEncodings : Prop :=
  hufEncode [] = [0, 0] ∧
  ∀ (b : Byte) (n : Nat), 1 ≤ n → hufEncode (List.replicate n b) = [1, freqWord (b, n), 0]

/-- R228, R230: HUF.ENC and HUF.FREQ write their words to OUT, or fail with CAPACITY. -/
def Obligations.HufEncAndFreqWriteTheirWords : Prop :=
  ∀ (s : State) (block : List Byte) (i : Instr) (ws : List Word),
    (i, ws) ∈ [(.hufEnc, hufEncode block),
      (.hufFreq, BitVec.ofNat 64 (freqPass block).length :: (freqPass block).map freqWord)] →
    s.inLen.toNat ≤ s.params.inCap → s.inBlock = some block →
    (8 * ws.length ≤ s.params.outCap →
      ∃ m, exec i s = .next { s with
          outMem := m
          outLen := BitVec.ofNat 64 (8 * ws.length)
          status := { s.status with busy := false, done := true }
          current := none } ∧
        ∀ a, Memory.read m a = (bytesOfWords ws)[a]?) ∧
    (s.params.outCap < 8 * ws.length →
      exec i s = .next { s with
        outMem := []
        outLen := 0
        status := { s.status with busy := false, done := true, err := true, absent := false, errcode := 5 }
        current := none })

/-- R229 with R218: HUF.DEC of the words HUF.ENC wrote, copied to IN, writes the block back to OUT. -/
def Obligations.HufDecInvertsHufEnc : Prop :=
  ∀ (s t : State) (block : List Byte), s.Inv → s.inLen.toNat ≤ s.params.inCap → s.inBlock = some block →
    exec .hufEnc s = .next t → s.status.err = false → t.status.err = false →
    t.outLen.toNat ≤ s.params.inCap → block.length ≤ s.params.outCap →
    let u := { t with inMem := t.outMem, inLen := t.outLen }
    ∃ m, exec .hufDec u = .next { u with
        outMem := m
        outLen := BitVec.ofNat 64 block.length
        status := { u.status with busy := false, done := true }
        current := none } ∧
      ∀ a, Memory.read m a = block[a]?

/-- R231: HUF.CODE writes the symbol's code to BB[rd], or sets ABSENT and writes no register when the symbol is not in the
block. -/
def Obligations.HufCodeWritesTheCodeOrIsAbsent : Prop :=
  ∀ (s : State) (rd : RegIx) (sym : Byte) (block : List Byte), rd.toNat < s.params.nbb →
    s.inLen.toNat ≤ s.params.inCap → s.inBlock = some block →
    (sym ∈ block → ∃ root code, buildTree (freqPass block) = some root ∧ code = root.code sym ∧
      exec (.hufCode rd sym) s = .next { s with
        bb := s.bb.set rd.toNat code
        status := { s.status with busy := false, done := true }
        current := none }) ∧
    (sym ∉ block →
      exec (.hufCode rd sym) s = .next { s with
        status := { s.status with busy := false, done := true, absent := true }
        current := none })

/-! ### The LZW codec (42_lzw.md) -/

/-- R261, R262: a scan cuts the block into strings, one a code: each code is the dictionary's for its string, and each
string is the longest one of the dictionary that the rest of the block begins with, where the dictionary holds the bytes
and one entry for each code emitted before, that code's string and the first byte after it. A scan emits at most one code a
byte, at least one for a non-empty block, and its i-th code is below 256 + i. -/
def Obligations.ScanCodesAreBounded : Prop :=
  ∀ block : List Byte,
    (∃ strings : List (List Byte), strings.flatten = block ∧
      CodesStandFor ((lzwScan block).map Int.ofNat) strings ∧
      ∀ i j : Nat, j < i → i < strings.length →
        dictString strings (256 + j) <+: (strings.drop i).flatten →
        (dictString strings (256 + j)).length ≤ (strings.getD i []).length) ∧
    (lzwScan block).length ≤ block.length ∧ (lzwScan block = [] ↔ block = []) ∧
    ∀ (i k : Nat), (lzwScan block)[i]? = some k → k < 256 + i

/-- R263: the stride is one of 8, 4, 2, 1, the largest whose threshold the maximum meets. -/
def Obligations.StrideIsTheLargestThatFits : Prop :=
  ∀ m : Nat,
    (m ≤ 126 → chooseStride m = 8) ∧ (127 ≤ m → m ≤ 32766 → chooseStride m = 4) ∧
    (32767 ≤ m → m ≤ 2147483646 → chooseStride m = 2) ∧ (2147483647 ≤ m → chooseStride m = 1)

/-- R269: a sequence of words with bit 63 clear packs, and unpacks to itself. -/
def Obligations.UnpackInvertsPack : Prop :=
  ∀ v : List Word, (∀ x ∈ v, x.getLsbD 63 = false) → v.length < 2 ^ 64 →
    ∃ w, lzwPack v = .ok w ∧ lzwUnpack w = .ok v

/-- R268: slot t of a packed word unpacks to its value, sign-extended: with its top bit set, to 2^64 - 2^sl + slot. -/
def Obligations.UnpackSignExtendsSlots : Prop :=
  ∀ (st t : Nat) (w : Word), st ∈ [1, 2, 4, 8] → t < st →
    let sl := 64 / st
    let slot := (w.toNat / 2 ^ (64 - (t + 1) * sl)) % 2 ^ sl
    ((slotsOfWord st w).getD t 0).toNat = if slot < 2 ^ (sl - 1) then slot else 2 ^ 64 - 2 ^ sl + slot

/-- R272: scanning, packing, unpacking and expanding a block gives the block again, the empty block included. -/
def Obligations.LzwRoundTrip : Prop :=
  ∀ (block : List Byte) (cap : Nat), block.length ≤ cap → block.length < 2 ^ 56 →
    ∃ w v, lzwPack (scanWords block) = .ok w ∧ lzwUnpack w = .ok v ∧ lzwExpand cap v = .ok block

/-- R280, R282: LZW.CODES writes the scan's codes and LZW.ENC their packed form, which is nothing for the empty block; or
CAPACITY. LZW.ENC never raises BAD_OPERAND. -/
def Obligations.LzwEncAndCodesWriteTheirWords : Prop :=
  ∀ (s : State) (block : List Byte) (i : Instr) (ws : List Word), s.params.inRange →
    let v := (lzwScan block).map (BitVec.ofNat 64)
    let st := chooseStride (maxWord v)
    (i, ws) ∈ [(.lzwCodes, v),
      (.lzwEnc, if block = [] then [] else BitVec.ofNat 64 st :: BitVec.ofNat 64 v.length :: packWords st v)] →
    s.inLen.toNat ≤ s.params.inCap → s.inBlock = some block →
    (8 * ws.length ≤ s.params.outCap →
      ∃ m, exec i s = .next { s with
          outMem := m
          outLen := BitVec.ofNat 64 (8 * ws.length)
          status := { s.status with busy := false, done := true }
          current := none } ∧
        ∀ a, Memory.read m a = (bytesOfWords ws)[a]?) ∧
    (s.params.outCap < 8 * ws.length →
      exec i s = .next { s with
        outMem := []
        outLen := 0
        status := { s.status with busy := false, done := true, err := true, absent := false, errcode := 5 }
        current := none })

/-- R283, R284: LZW.PACK and LZW.UNPACK write the words of their functions, or end with the error the function raised, or
with CAPACITY. R265, R266: LzwPack raises BAD_OPERAND exactly when an element has bit 63 set; else it gives nothing for no
elements, and the stride of the maximum, the count, and the packed words, slot t of word j being element j * st + t, or 0
past the last one. R267: LzwUnpack gives nothing for no words, raises MALFORMED_STREAM exactly for one word, a stride not
in 1, 2, 4, 8, or a wrong number of words, and else gives the sign-extended slots. -/
def Obligations.LzwPackAndUnpackWriteTheirWords : Prop :=
  (∀ v : List Word,
    ((∃ x ∈ v, x.getLsbD 63 = true) → lzwPack v = .error .badOperand) ∧
    (v = [] → lzwPack v = .ok []) ∧
    (v ≠ [] → (∀ x ∈ v, x.getLsbD 63 = false) →
      ∃ (m : Nat) (pw : List Word),
        let st := chooseStride m
        let sl := 64 / st
        (∀ x ∈ v, x.toNat ≤ m) ∧ (∃ x ∈ v, x.toNat = m) ∧
        lzwPack v = .ok (BitVec.ofNat 64 st :: BitVec.ofNat 64 v.length :: pw) ∧
        pw.length = (v.length + st - 1) / st ∧
        ∀ j t : Nat, j < pw.length → t < st →
          ((pw.getD j 0).toNat / 2 ^ (64 - (t + 1) * sl)) % 2 ^ sl = (v.getD (j * st + t) 0).toNat)) ∧
  lzwUnpack [] = .ok [] ∧ (∀ x : Word, lzwUnpack [x] = .error .malformedStream) ∧
  (∀ (stWord cntWord : Word) (pw : List Word),
    let st := stWord.toNat
    let cnt := cntWord.toNat
    let sl := 64 / st
    ((st ∉ [1, 2, 4, 8] ∨ pw.length ≠ (cnt + st - 1) / st) →
      lzwUnpack (stWord :: cntWord :: pw) = .error .malformedStream) ∧
    (st ∈ [1, 2, 4, 8] → pw.length = (cnt + st - 1) / st →
      ∃ v, lzwUnpack (stWord :: cntWord :: pw) = .ok v ∧ v.length = cnt ∧
        ∀ i, i < cnt → v.getD i 0 = (pw.getD (i / st) 0 <<< (i % st * sl)).sshiftRight (64 - sl))) ∧
  ∀ (s : State) (block : List Byte) (i : Instr) (r : Except ErrorCode (List Word)),
    (i, r) ∈ [(.lzwPack, lzwPack (wordsOfBytes block)), (.lzwUnpack, lzwUnpack (wordsOfBytes block))] →
    s.inLen.toNat ≤ s.params.inCap → s.inLen.toNat % 8 = 0 → s.inBlock = some block →
    let failed (e : Byte) : State := { s with
      status := { s.status with busy := false, done := true, err := true, absent := false, errcode := e }
      current := none
      outLen := 0
      outMem := [] }
    (∀ ws, r = .ok ws → 8 * ws.length ≤ s.params.outCap →
      ∃ m, exec i s = .next { s with
          outMem := m
          outLen := BitVec.ofNat 64 (8 * ws.length)
          status := { s.status with busy := false, done := true }
          current := none } ∧
        ∀ a, Memory.read m a = (bytesOfWords ws)[a]?) ∧
    (∀ ws, r = .ok ws → s.params.outCap < 8 * ws.length → exec i s = .next (failed 5)) ∧
    (∀ e, r = .error e → exec i s = .next (failed e.code))

/-- R229, R281, R285: HUF.DEC, LZW.DEC and LZW.EXPAND write the bytes of their functions, never more than OUT_CAP, or end
with the error the function raised. What the functions give and raise, in terms of the streams:

R215, R217: a word sequence that is no count, distinct entries with nonzero counts, bit count and exactly its bit words is
MALFORMED_STREAM. Else, with E its entries in ascending signed order: an empty table gives nothing, one entry its byte as
often as it counts, both MALFORMED_STREAM if there are bits, the second CAPACITY if its bytes are too many; with two entries
or more the bits that are the codes of bytes r give r, are CAPACITY when the codes of one byte too many stand at their
front, and MALFORMED_STREAM when they end in a rest that no code begins.

R270, R271: codes that stand for strings give the strings joined if they fit, are CAPACITY as soon as they do not, and
MALFORMED_STREAM at the first code that is negative, above the next free one, or, for the first, above 255. -/
def Obligations.DecodersWriteTheirBytes : Prop :=
  (∀ (cap : Nat) (w : List Word), (¬ ∃ T nb body, HuffmanForm w T nb body) →
    hufDecode cap w = .error .malformedStream) ∧
  (∀ (cap : Nat) (w T : List Word) (nb : Word) (body : List Word), HuffmanForm w T nb body →
    (T = [] → hufDecode cap w = if nb = 0 then .ok [] else .error .malformedStream) ∧
    (∀ x : Word, T = [x] →
      let c := (x.extractLsb' 0 56).toNat
      (nb ≠ 0 → hufDecode cap w = .error .malformedStream) ∧
      (nb = 0 → cap < c → hufDecode cap w = .error .capacity) ∧
      (nb = 0 → c ≤ cap → hufDecode cap w = .ok (List.replicate c (x.extractLsb' 56 8)))) ∧
    (∀ (E : List Entry) (t : Tree) (r : List Byte) (rest : BitSeq),
      let bits : BitSeq := (List.range nb.toNat).map fun i => (body.getD (i / 64) 0).getLsbD (63 - i % 64)
      2 ≤ T.length → E.Perm (T.map fun x => (x.extractLsb' 56 8, (x.extractLsb' 0 56).toNat)) →
      E.Pairwise (fun x y => x.1.toInt < y.1.toInt) → buildTree E = some t → (∀ s ∈ r, t.occurs s = true) →
      bits = (r.flatMap fun s => t.code s) ++ rest →
      (rest = [] → r.length ≤ cap → hufDecode cap w = .ok r) ∧
      (r.length = cap + 1 → hufDecode cap w = .error .capacity) ∧
      (rest ≠ [] → r.length ≤ cap → (∀ s, t.occurs s = true → ¬ t.code s <+: rest) →
        hufDecode cap w = .error .malformedStream))) ∧
  (∀ (cap : Nat) (v : List Word) (strings : List (List Byte)), 1 ≤ cap →
    CodesStandFor (v.map (·.toInt)) strings →
    (strings.flatten.length ≤ cap → lzwExpand cap v = .ok strings.flatten ∧
      ∀ (x : Word) (rest : List Word), (x.toInt < 0 ∨ 255 + v.length < x.toInt) →
        lzwExpand cap (v ++ x :: rest) = .error .malformedStream) ∧
    (cap < strings.flatten.length → ∀ rest : List Word, lzwExpand cap (v ++ rest) = .error .capacity)) ∧
  ∀ (s : State) (block : List Byte) (i : Instr) (r : Except ErrorCode (List Byte)), s.params.inRange →
    let w := wordsOfBytes block
    let cap := s.params.outCap
    (i, r) ∈ [(.hufDec, hufDecode cap w), (.lzwExpand, lzwExpand cap w),
      (.lzwDec, match lzwUnpack w with
        | .ok v => lzwExpand cap v
        | .error e => .error e)] →
    s.inLen.toNat ≤ s.params.inCap → s.inLen.toNat % 8 = 0 → s.inBlock = some block →
    (∀ bs, r = .ok bs → bs.length ≤ cap ∧
      ∃ m, exec i s = .next { s with
          outMem := m
          outLen := BitVec.ofNat 64 bs.length
          status := { s.status with busy := false, done := true }
          current := none } ∧
        ∀ a, Memory.read m a = bs[a]?) ∧
    (∀ e, r = .error e →
      exec i s = .next { s with
        status := { s.status with busy := false, done := true, err := true, absent := false, errcode := e.code }
        current := none
        outLen := 0
        outMem := [] })

/-! ### Reset and the invariant -/

/-- R370: the reset input sets every register to its reset value from any state, a command in flight included; no byte of
IN or OUT has a defined value (R371). -/
def Obligations.ResetSetsEveryRegister : Prop :=
  ∀ (s : State) (rest : List Turn), s.turns = .reset :: rest →
    ∃ t, step s = .next t ∧ t.cmd = 0 ∧ t.status.word = 0 ∧ t.ie = false ∧ t.irq = false ∧ t.inLen = 0 ∧
      t.outLen = 0 ∧ t.arg = 0 ∧ t.result = 0 ∧ t.current = none ∧ t.params = s.params ∧
      t.bb.length = s.params.nbb ∧ (∀ b ∈ t.bb, b = []) ∧
      ∀ a, Memory.read t.inMem a = none ∧ Memory.read t.outMem a = none

/-- The reset state satisfies the invariant. -/
def Obligations.ResetStateIsSound : Prop := State.reset.Inv

/-- Every step keeps the invariant: the memories canonical and inside their windows, the registers inside their capacity,
OUT_LEN inside OUT with every byte below it defined, STATUS consistent with itself and with the latched command
(10_state.md R31, R34, R40, R46, R49, 20_memory.md R80, R87, 60_exceptions.md R330). -/
def Obligations.EveryStepKeepsTheInvariant : Prop :=
  ∀ s t : State, s.Inv → step s = .next t → t.Inv
end

