-- ==== Sys2Proof/Laws/Codec.lean ====
section
/-! SUPPORT. The decoders keep their output within the bound they are given, and their small equations. -/

namespace Sys2Proof.Machine

/-- What a mapped `Except` value comes from. -/
theorem except_map_ok {ε α β : Type} {f : α → β} {x : Except ε α} {b : β} (h : x.map f = .ok b) :
    ∃ a, x = .ok a ∧ f a = b := by
  cases x with
  | error e => simp [Except.map] at h
  | ok a => exact ⟨a, rfl, by simpa [Except.map] using h⟩

/-- A walk emits no more than the bound leaves room for. -/
theorem length_walk {root : Tree} {cap : Nat} {bits : BitSeq} {node : Tree} {depth n : Nat} {r : List Byte}
    (hn : n ≤ cap) (h : walk root cap bits node depth n = .ok r) : n + r.length ≤ cap := by
  induction bits generalizing node depth n r with
  | nil =>
    unfold walk at h
    split at h
    · cases h; simpa using hn
    · simp at h
  | cons b bits ih =>
    cases node with
    | leaf s => simp [walk] at h
    | node l rt =>
      unfold walk at h
      split at h
      · split at h
        · simp at h
        · obtain ⟨q, hq, rfl⟩ := except_map_ok h
          have := ih (by omega) hq
          simp only [List.length_cons]
          omega
      · exact ih hn h

/-- HufDecode never gives more bytes than its bound (R215). -/
theorem length_hufDecode {cap : Nat} {w : List Word} {r : List Byte} (h : hufDecode cap w = .ok r) :
    r.length ≤ cap := by
  unfold hufDecode at h
  split at h
  · simp at h
  · simp only at h
    iterate 5 (split at h; · simp at h)
    unfold decodeBits at h
    split at h
    · split at h
      · simp at h
      · cases h; simp
    · simp only at h
      split at h
      · simp at h
      · split at h
        · simp at h
        · cases h
          simp only [List.length_replicate]
          omega
    · simpa using length_walk (Nat.zero_le cap) h

/-- The expansion loop appends no more than the bound leaves room for. -/
theorem length_expandLoop {cap : Nat} {D : List (List Byte)} {cur : List Byte} {n : Nat} {v : List Word}
    {r : List Byte} (hn : n ≤ cap) (h : expandLoop cap D cur n v = .ok r) : n + r.length ≤ cap := by
  induction v generalizing D cur n r with
  | nil => cases h; simpa using hn
  | cons x v ih =>
    unfold expandLoop at h
    split at h
    · simp at h
    · split at h
      · simp at h
      · obtain ⟨q, hq, rfl⟩ := except_map_ok h
        have := ih (by omega) hq
        simp only [List.length_append]
        omega

/-- LzwExpand never gives more bytes than its bound (R270). -/
theorem length_lzwExpand {cap : Nat} {v : List Word} {r : List Byte} (hc : 1 ≤ cap)
    (h : lzwExpand cap v = .ok r) : r.length ≤ cap := by
  cases v with
  | nil => cases h; simp
  | cons x v =>
    rw [lzwExpand] at h
    split at h
    · simp at h
    · obtain ⟨q, hq, rfl⟩ := except_map_ok h
      have := length_expandLoop hc hq
      simpa [Nat.add_comm] using this

/-- BB.LOAD gives a register no more bits than its capacity (R158). -/
theorem length_loadForm_bits {ws : List Word} {n : Nat} : (bitsOfWords ws n).length ≤ n := by
  simp [bitsOfWords]

end Sys2Proof.Machine
end

