-- ==== Sys2Proof/Laws/Memory.lean ====
section
/-! SUPPORT. The laws of memories: read after write, that every operation keeps the canonical form and the bound of
the window, and what a stored byte string reads as. -/

namespace Sys2Proof.Machine

theorem Memory.read_write_same (m : Memory) (a : Nat) (v : Byte) : (m.write a v).read a = some v := by
  induction m with
  | nil => simp [Memory.write, Memory.read]
  | cons c m ih =>
    obtain ⟨k, b⟩ := c
    unfold Memory.write
    split
    · simp [Memory.read]
    · split
      · simp [Memory.read]
      · rename_i h
        have : k ≠ a := fun e => h e.symm
        simp [Memory.read, this, ih]

theorem Memory.read_write_other (m : Memory) {a x : Nat} (v : Byte) (h : x ≠ a) :
    (m.write a v).read x = m.read x := by
  induction m with
  | nil => simp [Memory.write, Memory.read, Ne.symm h]
  | cons c m ih =>
    obtain ⟨k, b⟩ := c
    unfold Memory.write
    split
    · simp [Memory.read, Ne.symm h]
    · split
      · rename_i e
        subst e
        simp [Memory.read, Ne.symm h]
      · simp [Memory.read, ih]

theorem Memory.mem_write {m : Memory} {a : Nat} {v : Byte} {c : Host.Cell} (h : c ∈ m.write a v) :
    c = (a, v) ∨ c ∈ m := by
  induction m with
  | nil => simpa [Memory.write] using h
  | cons d m ih =>
    obtain ⟨k, b⟩ := d
    unfold Memory.write at h
    split at h
    · simpa using h
    · split at h
      · rcases List.mem_cons.1 h with h | h
        · exact .inl h
        · exact .inr (List.mem_cons_of_mem _ h)
      · rcases List.mem_cons.1 h with h | h
        · exact .inr (by simp [h])
        · rcases ih h with h | h
          · exact .inl h
          · exact .inr (List.mem_cons_of_mem _ h)

/-- A write keeps the canonical form. -/
theorem Memory.write_wf {m : Memory} (a : Nat) (v : Byte) (h : m.wf) : (m.write a v).wf := by
  induction m with
  | nil => simp [Memory.write, Memory.wf]
  | cons d m ih =>
    obtain ⟨k, b⟩ := d
    have h1 := List.pairwise_cons.1 h
    unfold Memory.write
    split
    · rename_i hlt
      refine List.pairwise_cons.2 ⟨fun c hc => ?_, h⟩
      rcases List.mem_cons.1 hc with rfl | hc
      · exact hlt
      · exact hlt.trans (h1.1 c hc)
    · split
      · rename_i e
        subst e
        exact List.pairwise_cons.2 ⟨h1.1, h1.2⟩
      · refine List.pairwise_cons.2 ⟨fun c hc => ?_, ih h1.2⟩
        rcases Memory.mem_write hc with rfl | hc
        · show k < a
          omega
        · exact h1.1 c hc

theorem Memory.writeBytes_wf {m : Memory} (a : Nat) (bs : List Byte) (h : m.wf) : (m.writeBytes a bs).wf := by
  induction bs generalizing m a with
  | nil => exact h
  | cons b bs ih => exact ih (a + 1) (Memory.write_wf a b h)

/-- Every cell of a memory after a write of bytes is an old one or one of the bytes' addresses. -/
theorem Memory.mem_writeBytes {m : Memory} {a : Nat} {bs : List Byte} {c : Host.Cell}
    (h : c ∈ m.writeBytes a bs) : c ∈ m ∨ (a ≤ c.1 ∧ c.1 < a + bs.length) := by
  induction bs generalizing m a with
  | nil => exact .inl h
  | cons b bs ih =>
    rcases ih h with h | h
    · rcases Memory.mem_write h with rfl | h
      · exact .inr ⟨le_rfl, by simp⟩
      · exact .inl h
    · exact .inr ⟨by omega, by simp only [List.length_cons]; omega⟩

theorem Memory.read_writeBytes_other {m : Memory} {a x : Nat} (bs : List Byte)
    (h : x < a ∨ a + bs.length ≤ x) : (m.writeBytes a bs).read x = m.read x := by
  induction bs generalizing m a with
  | nil => rfl
  | cons b bs ih =>
    simp only [List.length_cons] at h
    show (Memory.writeBytes (m.write a b) (a + 1) bs).read x = m.read x
    rw [ih (by omega), Memory.read_write_other m b (by omega)]

theorem Memory.read_writeBytes {m : Memory} {a j : Nat} (bs : List Byte) (h : j < bs.length) :
    (m.writeBytes a bs).read (a + j) = bs[j]? := by
  induction bs generalizing m a j with
  | nil => simp at h
  | cons b bs ih =>
    show (Memory.writeBytes (m.write a b) (a + 1) bs).read (a + j) = _
    cases j with
    | zero =>
      rw [Memory.read_writeBytes_other bs (by omega)]
      simp [Memory.read_write_same]
    | succ j =>
      have := ih (m := m.write a b) (a := a + 1) (j := j) (by simpa using h)
      rw [show a + (j + 1) = a + 1 + j by omega, this]
      simp

/-- The addresses of a stored byte string. -/
theorem Memory.mem_ofBytes {a : Nat} {bs : List Byte} {c : Host.Cell} (h : c ∈ Memory.ofBytes a bs) :
    a ≤ c.1 ∧ c.1 < a + bs.length := by
  induction bs generalizing a with
  | nil => simp [Memory.ofBytes] at h
  | cons b bs ih =>
    rcases List.mem_cons.1 h with rfl | h
    · simp
    · have := ih h
      simp only [List.length_cons]
      omega

theorem Memory.ofBytes_wf (a : Nat) (bs : List Byte) : (Memory.ofBytes a bs).wf := by
  induction bs generalizing a with
  | nil => exact List.Pairwise.nil
  | cons b bs ih =>
    refine List.pairwise_cons.2 ⟨fun c hc => ?_, ih (a + 1)⟩
    have := Memory.mem_ofBytes hc
    show a < c.1
    omega

/-- What a stored byte string reads as at each address. -/
theorem Memory.read_ofBytes (a x : Nat) (bs : List Byte) :
    (Memory.ofBytes a bs).read x = if x < a then none else bs[x - a]? := by
  induction bs generalizing a with
  | nil => simp [Memory.ofBytes, Memory.read]
  | cons b bs ih =>
    unfold Memory.ofBytes Memory.read
    rw [ih (a + 1)]
    by_cases hxa : a = x
    · subst hxa
      simp
    · by_cases hlt : x < a
      · simp [hxa, hlt, show x < a + 1 by omega]
      · have : x - a = (x - (a + 1)) + 1 := by omega
        simp [hxa, hlt, show ¬ x < a + 1 by omega, this]

/-- Reading back a whole stored byte string. -/
theorem Memory.readRange_ofBytes (bs : List Byte) :
    Memory.readRange (Memory.ofBytes 0 bs) 0 bs.length = some bs := by
  suffices h : ∀ (n a : Nat), a + n = bs.length →
      Memory.readRange (Memory.ofBytes 0 bs) a n = some (bs.drop a) by
    simpa using h bs.length 0 (by simp)
  intro n
  induction n with
  | zero => intro a h; simp [Memory.readRange, List.drop_eq_nil_of_le (show bs.length ≤ a by omega)]
  | succ n ih =>
    intro a h
    have ha : a < bs.length := by omega
    simp [Memory.readRange, Memory.read_ofBytes, ha, ih (a + 1) (by omega)]

theorem Memory.length_readRange {m : Memory} {a n : Nat} {bs : List Byte}
    (h : m.readRange a n = some bs) : bs.length = n := by
  induction n generalizing a bs with
  | zero => simp [Memory.readRange] at h; simp [← h]
  | succ n ih =>
    unfold Memory.readRange at h
    split at h
    · simp at h
    · simp only [Option.map_eq_some_iff] at h
      obtain ⟨r, hr, rfl⟩ := h
      simp [ih hr]

end Sys2Proof.Machine
end

