-- ==== Sys2Proof/Laws/State.lean ====
section
/-! SUPPORT. One lemma per field per update of the state, and of STATUS: what each update leaves and what it writes. -/

namespace Sys2Proof.Machine

section
variable (s : State)

/-! `State.setBitBuffer` -/

@[simp] theorem State.setBitBuffer_params (r : RegIx) (b : BitSeq) : (s.setBitBuffer r b).params = s.params := rfl
@[simp] theorem State.setBitBuffer_cmd (r : RegIx) (b : BitSeq) : (s.setBitBuffer r b).cmd = s.cmd := rfl
@[simp] theorem State.setBitBuffer_status (r : RegIx) (b : BitSeq) : (s.setBitBuffer r b).status = s.status := rfl
@[simp] theorem State.setBitBuffer_ie (r : RegIx) (b : BitSeq) : (s.setBitBuffer r b).ie = s.ie := rfl
@[simp] theorem State.setBitBuffer_inLen (r : RegIx) (b : BitSeq) : (s.setBitBuffer r b).inLen = s.inLen := rfl
@[simp] theorem State.setBitBuffer_outLen (r : RegIx) (b : BitSeq) : (s.setBitBuffer r b).outLen = s.outLen := rfl
@[simp] theorem State.setBitBuffer_arg (r : RegIx) (b : BitSeq) : (s.setBitBuffer r b).arg = s.arg := rfl
@[simp] theorem State.setBitBuffer_result (r : RegIx) (b : BitSeq) : (s.setBitBuffer r b).result = s.result := rfl
@[simp] theorem State.setBitBuffer_bb (r : RegIx) (b : BitSeq) : (s.setBitBuffer r b).bb = s.bb.set r.toNat b := rfl
@[simp] theorem State.setBitBuffer_inMem (r : RegIx) (b : BitSeq) : (s.setBitBuffer r b).inMem = s.inMem := rfl
@[simp] theorem State.setBitBuffer_outMem (r : RegIx) (b : BitSeq) : (s.setBitBuffer r b).outMem = s.outMem := rfl
@[simp] theorem State.setBitBuffer_current (r : RegIx) (b : BitSeq) : (s.setBitBuffer r b).current = s.current := rfl
@[simp] theorem State.setBitBuffer_turns (r : RegIx) (b : BitSeq) : (s.setBitBuffer r b).turns = s.turns := rfl
@[simp] theorem State.setBitBuffer_reads (r : RegIx) (b : BitSeq) : (s.setBitBuffer r b).reads = s.reads := rfl
@[simp] theorem State.setBitBuffer_draws (r : RegIx) (b : BitSeq) : (s.setBitBuffer r b).draws = s.draws := rfl

/-! `State.setResult` -/

@[simp] theorem State.setResult_params (w : Word) : (s.setResult w).params = s.params := rfl
@[simp] theorem State.setResult_cmd (w : Word) : (s.setResult w).cmd = s.cmd := rfl
@[simp] theorem State.setResult_status (w : Word) : (s.setResult w).status = s.status := rfl
@[simp] theorem State.setResult_ie (w : Word) : (s.setResult w).ie = s.ie := rfl
@[simp] theorem State.setResult_inLen (w : Word) : (s.setResult w).inLen = s.inLen := rfl
@[simp] theorem State.setResult_outLen (w : Word) : (s.setResult w).outLen = s.outLen := rfl
@[simp] theorem State.setResult_arg (w : Word) : (s.setResult w).arg = s.arg := rfl
@[simp] theorem State.setResult_result (w : Word) : (s.setResult w).result = w := rfl
@[simp] theorem State.setResult_bb (w : Word) : (s.setResult w).bb = s.bb := rfl
@[simp] theorem State.setResult_inMem (w : Word) : (s.setResult w).inMem = s.inMem := rfl
@[simp] theorem State.setResult_outMem (w : Word) : (s.setResult w).outMem = s.outMem := rfl
@[simp] theorem State.setResult_current (w : Word) : (s.setResult w).current = s.current := rfl
@[simp] theorem State.setResult_turns (w : Word) : (s.setResult w).turns = s.turns := rfl
@[simp] theorem State.setResult_reads (w : Word) : (s.setResult w).reads = s.reads := rfl
@[simp] theorem State.setResult_draws (w : Word) : (s.setResult w).draws = s.draws := rfl

/-! `State.markAbsent` -/

@[simp] theorem State.markAbsent_params : (s.markAbsent).params = s.params := rfl
@[simp] theorem State.markAbsent_cmd : (s.markAbsent).cmd = s.cmd := rfl
@[simp] theorem State.markAbsent_status : (s.markAbsent).status = s.status.markAbsent := rfl
@[simp] theorem State.markAbsent_ie : (s.markAbsent).ie = s.ie := rfl
@[simp] theorem State.markAbsent_inLen : (s.markAbsent).inLen = s.inLen := rfl
@[simp] theorem State.markAbsent_outLen : (s.markAbsent).outLen = s.outLen := rfl
@[simp] theorem State.markAbsent_arg : (s.markAbsent).arg = s.arg := rfl
@[simp] theorem State.markAbsent_result : (s.markAbsent).result = s.result := rfl
@[simp] theorem State.markAbsent_bb : (s.markAbsent).bb = s.bb := rfl
@[simp] theorem State.markAbsent_inMem : (s.markAbsent).inMem = s.inMem := rfl
@[simp] theorem State.markAbsent_outMem : (s.markAbsent).outMem = s.outMem := rfl
@[simp] theorem State.markAbsent_current : (s.markAbsent).current = s.current := rfl
@[simp] theorem State.markAbsent_turns : (s.markAbsent).turns = s.turns := rfl
@[simp] theorem State.markAbsent_reads : (s.markAbsent).reads = s.reads := rfl
@[simp] theorem State.markAbsent_draws : (s.markAbsent).draws = s.draws := rfl

/-! `State.storeOut` -/

@[simp] theorem State.storeOut_params (r : List Byte) : (s.storeOut r).params = s.params := rfl
@[simp] theorem State.storeOut_cmd (r : List Byte) : (s.storeOut r).cmd = s.cmd := rfl
@[simp] theorem State.storeOut_status (r : List Byte) : (s.storeOut r).status = s.status := rfl
@[simp] theorem State.storeOut_ie (r : List Byte) : (s.storeOut r).ie = s.ie := rfl
@[simp] theorem State.storeOut_inLen (r : List Byte) : (s.storeOut r).inLen = s.inLen := rfl
@[simp] theorem State.storeOut_outLen (r : List Byte) : (s.storeOut r).outLen = BitVec.ofNat 64 r.length := rfl
@[simp] theorem State.storeOut_arg (r : List Byte) : (s.storeOut r).arg = s.arg := rfl
@[simp] theorem State.storeOut_result (r : List Byte) : (s.storeOut r).result = s.result := rfl
@[simp] theorem State.storeOut_bb (r : List Byte) : (s.storeOut r).bb = s.bb := rfl
@[simp] theorem State.storeOut_inMem (r : List Byte) : (s.storeOut r).inMem = s.inMem := rfl
@[simp] theorem State.storeOut_outMem (r : List Byte) : (s.storeOut r).outMem = Memory.ofBytes 0 r := rfl
@[simp] theorem State.storeOut_current (r : List Byte) : (s.storeOut r).current = s.current := rfl
@[simp] theorem State.storeOut_turns (r : List Byte) : (s.storeOut r).turns = s.turns := rfl
@[simp] theorem State.storeOut_reads (r : List Byte) : (s.storeOut r).reads = s.reads := rfl
@[simp] theorem State.storeOut_draws (r : List Byte) : (s.storeOut r).draws = s.draws := rfl

/-! `State.accept` -/

@[simp] theorem State.accept_params (c : Word) : (s.accept c).params = s.params := rfl
@[simp] theorem State.accept_cmd (c : Word) : (s.accept c).cmd = c := rfl
@[simp] theorem State.accept_status (c : Word) : (s.accept c).status = s.status.accepted := rfl
@[simp] theorem State.accept_ie (c : Word) : (s.accept c).ie = s.ie := rfl
@[simp] theorem State.accept_inLen (c : Word) : (s.accept c).inLen = s.inLen := rfl
@[simp] theorem State.accept_outLen (c : Word) : (s.accept c).outLen = s.outLen := rfl
@[simp] theorem State.accept_arg (c : Word) : (s.accept c).arg = s.arg := rfl
@[simp] theorem State.accept_result (c : Word) : (s.accept c).result = s.result := rfl
@[simp] theorem State.accept_bb (c : Word) : (s.accept c).bb = s.bb := rfl
@[simp] theorem State.accept_inMem (c : Word) : (s.accept c).inMem = s.inMem := rfl
@[simp] theorem State.accept_outMem (c : Word) : (s.accept c).outMem = s.outMem := rfl
@[simp] theorem State.accept_current (c : Word) : (s.accept c).current = some c := rfl
@[simp] theorem State.accept_turns (c : Word) : (s.accept c).turns = s.turns := rfl
@[simp] theorem State.accept_reads (c : Word) : (s.accept c).reads = s.reads := rfl
@[simp] theorem State.accept_draws (c : Word) : (s.accept c).draws = s.draws := rfl

/-! `State.completed` -/

@[simp] theorem State.completed_params : (s.completed).params = s.params := rfl
@[simp] theorem State.completed_cmd : (s.completed).cmd = s.cmd := rfl
@[simp] theorem State.completed_status : (s.completed).status = s.status.completed := rfl
@[simp] theorem State.completed_ie : (s.completed).ie = s.ie := rfl
@[simp] theorem State.completed_inLen : (s.completed).inLen = s.inLen := rfl
@[simp] theorem State.completed_outLen : (s.completed).outLen = s.outLen := rfl
@[simp] theorem State.completed_arg : (s.completed).arg = s.arg := rfl
@[simp] theorem State.completed_result : (s.completed).result = s.result := rfl
@[simp] theorem State.completed_bb : (s.completed).bb = s.bb := rfl
@[simp] theorem State.completed_inMem : (s.completed).inMem = s.inMem := rfl
@[simp] theorem State.completed_outMem : (s.completed).outMem = s.outMem := rfl
@[simp] theorem State.completed_current : (s.completed).current = none := rfl
@[simp] theorem State.completed_turns : (s.completed).turns = s.turns := rfl
@[simp] theorem State.completed_reads : (s.completed).reads = s.reads := rfl
@[simp] theorem State.completed_draws : (s.completed).draws = s.draws := rfl

/-! `State.failed` -/

@[simp] theorem State.failed_params (w : Bool) (e : ErrorCode) : (s.failed w e).params = s.params := rfl
@[simp] theorem State.failed_cmd (w : Bool) (e : ErrorCode) : (s.failed w e).cmd = s.cmd := rfl
@[simp] theorem State.failed_status (w : Bool) (e : ErrorCode) : (s.failed w e).status = s.status.failed e := rfl
@[simp] theorem State.failed_ie (w : Bool) (e : ErrorCode) : (s.failed w e).ie = s.ie := rfl
@[simp] theorem State.failed_inLen (w : Bool) (e : ErrorCode) : (s.failed w e).inLen = s.inLen := rfl
@[simp] theorem State.failed_outLen (w : Bool) (e : ErrorCode) : (s.failed w e).outLen = 0 := rfl
@[simp] theorem State.failed_arg (w : Bool) (e : ErrorCode) : (s.failed w e).arg = s.arg := rfl
@[simp] theorem State.failed_result (w : Bool) (e : ErrorCode) : (s.failed w e).result = s.result := rfl
@[simp] theorem State.failed_bb (w : Bool) (e : ErrorCode) : (s.failed w e).bb = s.bb := rfl
@[simp] theorem State.failed_inMem (w : Bool) (e : ErrorCode) : (s.failed w e).inMem = s.inMem := rfl
@[simp] theorem State.failed_outMem (w : Bool) (e : ErrorCode) : (s.failed w e).outMem = if w then [] else s.outMem := rfl
@[simp] theorem State.failed_current (w : Bool) (e : ErrorCode) : (s.failed w e).current = none := rfl
@[simp] theorem State.failed_turns (w : Bool) (e : ErrorCode) : (s.failed w e).turns = s.turns := rfl
@[simp] theorem State.failed_reads (w : Bool) (e : ErrorCode) : (s.failed w e).reads = s.reads := rfl
@[simp] theorem State.failed_draws (w : Bool) (e : ErrorCode) : (s.failed w e).draws = s.draws := rfl

/-! `State.platformReset` -/

@[simp] theorem State.platformReset_params : (s.platformReset).params = s.params := rfl
@[simp] theorem State.platformReset_cmd : (s.platformReset).cmd = 0 := rfl
@[simp] theorem State.platformReset_status : (s.platformReset).status = Status.zero := rfl
@[simp] theorem State.platformReset_ie : (s.platformReset).ie = false := rfl
@[simp] theorem State.platformReset_inLen : (s.platformReset).inLen = 0 := rfl
@[simp] theorem State.platformReset_outLen : (s.platformReset).outLen = 0 := rfl
@[simp] theorem State.platformReset_arg : (s.platformReset).arg = 0 := rfl
@[simp] theorem State.platformReset_result : (s.platformReset).result = 0 := rfl
@[simp] theorem State.platformReset_bb : (s.platformReset).bb = List.replicate s.params.nbb [] := rfl
@[simp] theorem State.platformReset_inMem : (s.platformReset).inMem = [] := rfl
@[simp] theorem State.platformReset_outMem : (s.platformReset).outMem = [] := rfl
@[simp] theorem State.platformReset_current : (s.platformReset).current = none := rfl
@[simp] theorem State.platformReset_turns : (s.platformReset).turns = s.turns := rfl
@[simp] theorem State.platformReset_reads : (s.platformReset).reads = s.reads := rfl
@[simp] theorem State.platformReset_draws : (s.platformReset).draws = s.draws := rfl

/-! `State.receive` -/

@[simp] theorem State.receive_params (v : Word) (n : Nat) : (s.receive v n).params = s.params := rfl
@[simp] theorem State.receive_cmd (v : Word) (n : Nat) : (s.receive v n).cmd = s.cmd := rfl
@[simp] theorem State.receive_status (v : Word) (n : Nat) : (s.receive v n).status = s.status := rfl
@[simp] theorem State.receive_ie (v : Word) (n : Nat) : (s.receive v n).ie = s.ie := rfl
@[simp] theorem State.receive_inLen (v : Word) (n : Nat) : (s.receive v n).inLen = s.inLen := rfl
@[simp] theorem State.receive_outLen (v : Word) (n : Nat) : (s.receive v n).outLen = s.outLen := rfl
@[simp] theorem State.receive_arg (v : Word) (n : Nat) : (s.receive v n).arg = s.arg := rfl
@[simp] theorem State.receive_result (v : Word) (n : Nat) : (s.receive v n).result = s.result := rfl
@[simp] theorem State.receive_bb (v : Word) (n : Nat) : (s.receive v n).bb = s.bb := rfl
@[simp] theorem State.receive_inMem (v : Word) (n : Nat) : (s.receive v n).inMem = s.inMem := rfl
@[simp] theorem State.receive_outMem (v : Word) (n : Nat) : (s.receive v n).outMem = s.outMem := rfl
@[simp] theorem State.receive_current (v : Word) (n : Nat) : (s.receive v n).current = s.current := rfl
@[simp] theorem State.receive_turns (v : Word) (n : Nat) : (s.receive v n).turns = s.turns := rfl
@[simp] theorem State.receive_reads (v : Word) (n : Nat) : (s.receive v n).reads = v :: s.reads := rfl
@[simp] theorem State.receive_draws (v : Word) (n : Nat) : (s.receive v n).draws = s.draws + n := rfl

/-! `State.place` -/

@[simp] theorem State.place_params (c : Word) : (s.place c).params = s.params := rfl
@[simp] theorem State.place_cmd (c : Word) : (s.place c).cmd = c := rfl
@[simp] theorem State.place_status (c : Word) : (s.place c).status = s.status.accepted := rfl
@[simp] theorem State.place_ie (c : Word) : (s.place c).ie = s.ie := rfl
@[simp] theorem State.place_inLen (c : Word) : (s.place c).inLen = s.inLen := rfl
@[simp] theorem State.place_outLen (c : Word) : (s.place c).outLen = s.outLen := rfl
@[simp] theorem State.place_arg (c : Word) : (s.place c).arg = s.arg := rfl
@[simp] theorem State.place_result (c : Word) : (s.place c).result = s.result := rfl
@[simp] theorem State.place_bb (c : Word) : (s.place c).bb = s.bb := rfl
@[simp] theorem State.place_inMem (c : Word) : (s.place c).inMem = s.inMem := rfl
@[simp] theorem State.place_outMem (c : Word) : (s.place c).outMem = s.outMem := rfl
@[simp] theorem State.place_current (c : Word) : (s.place c).current = some c := rfl
@[simp] theorem State.place_turns (c : Word) : (s.place c).turns = [] := rfl
@[simp] theorem State.place_reads (c : Word) : (s.place c).reads = s.reads := rfl
@[simp] theorem State.place_draws (c : Word) : (s.place c).draws = s.draws := rfl

end

section
variable (st : Status)

/-! `Status.accepted` -/

@[simp] theorem Status.accepted_busy : (st.accepted).busy = true := rfl
@[simp] theorem Status.accepted_done : (st.accepted).done = false := rfl
@[simp] theorem Status.accepted_err : (st.accepted).err = false := rfl
@[simp] theorem Status.accepted_absent : (st.accepted).absent = false := rfl
@[simp] theorem Status.accepted_lost : (st.accepted).lost = st.lost := rfl
@[simp] theorem Status.accepted_errcode : (st.accepted).errcode = 0 := rfl

/-! `Status.completed` -/

@[simp] theorem Status.completed_busy : (st.completed).busy = false := rfl
@[simp] theorem Status.completed_done : (st.completed).done = true := rfl
@[simp] theorem Status.completed_err : (st.completed).err = st.err := rfl
@[simp] theorem Status.completed_absent : (st.completed).absent = st.absent := rfl
@[simp] theorem Status.completed_lost : (st.completed).lost = st.lost := rfl
@[simp] theorem Status.completed_errcode : (st.completed).errcode = st.errcode := rfl

/-! `Status.failed` -/

@[simp] theorem Status.failed_busy (e : ErrorCode) : (st.failed e).busy = false := rfl
@[simp] theorem Status.failed_done (e : ErrorCode) : (st.failed e).done = true := rfl
@[simp] theorem Status.failed_err (e : ErrorCode) : (st.failed e).err = true := rfl
@[simp] theorem Status.failed_absent (e : ErrorCode) : (st.failed e).absent = false := rfl
@[simp] theorem Status.failed_lost (e : ErrorCode) : (st.failed e).lost = st.lost := rfl
@[simp] theorem Status.failed_errcode (e : ErrorCode) : (st.failed e).errcode = e.code := rfl

/-! `Status.markAbsent` -/

@[simp] theorem Status.markAbsent_busy : (st.markAbsent).busy = st.busy := rfl
@[simp] theorem Status.markAbsent_done : (st.markAbsent).done = st.done := rfl
@[simp] theorem Status.markAbsent_err : (st.markAbsent).err = st.err := rfl
@[simp] theorem Status.markAbsent_absent : (st.markAbsent).absent = true := rfl
@[simp] theorem Status.markAbsent_lost : (st.markAbsent).lost = st.lost := rfl
@[simp] theorem Status.markAbsent_errcode : (st.markAbsent).errcode = st.errcode := rfl

/-! `Status.markLost` -/

@[simp] theorem Status.markLost_busy : (st.markLost).busy = st.busy := rfl
@[simp] theorem Status.markLost_done : (st.markLost).done = st.done := rfl
@[simp] theorem Status.markLost_err : (st.markLost).err = st.err := rfl
@[simp] theorem Status.markLost_absent : (st.markLost).absent = st.absent := rfl
@[simp] theorem Status.markLost_lost : (st.markLost).lost = true := rfl
@[simp] theorem Status.markLost_errcode : (st.markLost).errcode = st.errcode := rfl

/-! `Status.hostWrite` -/

@[simp] theorem Status.hostWrite_busy (v : Word) : (st.hostWrite v).busy = st.busy := rfl
@[simp] theorem Status.hostWrite_done (v : Word) : (st.hostWrite v).done = (st.done && !v.getLsbD 1) := rfl
@[simp] theorem Status.hostWrite_err (v : Word) : (st.hostWrite v).err = st.err := rfl
@[simp] theorem Status.hostWrite_absent (v : Word) : (st.hostWrite v).absent = st.absent := rfl
@[simp] theorem Status.hostWrite_lost (v : Word) : (st.hostWrite v).lost = (st.lost && !v.getLsbD 4) := rfl
@[simp] theorem Status.hostWrite_errcode (v : Word) : (st.hostWrite v).errcode = st.errcode := rfl

end

end Sys2Proof.Machine
end

