-- ==== Sys2Proof/Laws/Ops.lean ====
section
/-! SUPPORT. What each shared operation of a command can do, said once: the common checks, the input block, an
algorithm's error, the delivery of a result. -/

namespace Sys2Proof.Machine

/-- A command's common checks do one of three things. -/
theorem commonChecks_cases (i : Instr) (s : State) (body : Result) :
    (i.wellFormed s.params.nbb = false ∧ commonChecks i s body = .next (s.failed (writesOut i) .badRegister)) ∨
    (i.wellFormed s.params.nbb = true ∧ (inputClass i).lengthOk s = false ∧
      commonChecks i s body = .next (s.failed (writesOut i) .badLength)) ∨
    (i.wellFormed s.params.nbb = true ∧ (inputClass i).lengthOk s = true ∧ commonChecks i s body = body) := by
  unfold commonChecks raise
  cases i.wellFormed s.params.nbb <;> cases (inputClass i).lengthOk s <;> simp

/-- When the common checks pass, the command is its body. -/
theorem commonChecks_pass {i : Instr} {s : State} {body : Result} (hr : i.wellFormed s.params.nbb = true)
    (hl : (inputClass i).lengthOk s = true) : commonChecks i s body = body := by
  simp [commonChecks, hr, hl]

theorem withInBytes_some {s : State} {block : List Byte} {body : List Byte → Result}
    (h : s.inBlock = some block) : withInBytes s body = body block := by
  simp [withInBytes, h]

theorem withInBytes_none {s : State} {body : List Byte → Result} (h : s.inBlock = none) :
    withInBytes s body = .refused .unwrittenInput := by
  simp [withInBytes, h]

theorem withInWords_some {s : State} {block : List Byte} {body : List Word → Result}
    (h : s.inBlock = some block) : withInWords s body = body (wordsOfBytes block) := by
  simp [withInWords, withInBytes, h]

/-- A body over the input block runs on the block, or the command is refused. -/
theorem withInBytes_cases (s : State) (body : List Byte → Result) :
    (∃ block, s.inBlock = some block ∧ withInBytes s body = body block) ∨
    (s.inBlock = none ∧ withInBytes s body = .refused .unwrittenInput) := by
  unfold withInBytes
  cases s.inBlock <;> simp

@[simp] theorem orRaise_ok {α : Type} (i : Instr) (s : State) (a : α) (body : α → Result) :
    orRaise i s (.ok a) body = body a := rfl

@[simp] theorem orRaise_error {α : Type} (i : Instr) (s : State) (e : ErrorCode) (body : α → Result) :
    orRaise i s (.error e) body = .next (s.failed (writesOut i) e) := rfl

/-- Delivering words ends in CAPACITY or stores them. -/
theorem deliverWords_cases (i : Instr) (s : State) (ws : List Word) :
    (s.params.outCap < 8 * ws.length ∧ deliverWords i s ws = .next (s.failed (writesOut i) .capacity)) ∨
    (8 * ws.length ≤ s.params.outCap ∧
      deliverWords i s ws = .next (s.storeOut (bytesOfWords ws)).completed) := by
  unfold deliverWords raise complete
  split
  · exact .inl ⟨by assumption, rfl⟩
  · exact .inr ⟨by omega, rfl⟩

@[simp] theorem length_leBytes (w : Word) : (leBytes w).length = 8 := by simp [leBytes]

/-- A word sequence takes 8 bytes a word. -/
@[simp] theorem length_bytesOfWords (ws : List Word) : (bytesOfWords ws).length = 8 * ws.length := by
  induction ws with
  | nil => rfl
  | cons w ws ih =>
    show (leBytes w ++ bytesOfWords ws).length = _
    simp [ih]
    omega

@[simp] theorem length_wordsOfBits (b : BitSeq) : (wordsOfBits b).length = ceilDiv b.length 64 := by
  simp [wordsOfBits]

end Sys2Proof.Machine
end

