-- ==== Sys2Proof/Laws/Exec.lean ====
section
/-! SUPPORT. What a command can do, said once: it ends with an error, is refused for unwritten input, or completes after one
of five effects. Frames and invariants follow from this inversion, without unfolding a meaning again. -/

namespace Sys2Proof.Machine

/-- The BitBuffer register a command may write. -/
def destination : Instr → Option RegIx
  | .bbClear rd => some rd
  | .bbSingle rd _ => some rd
  | .bbAppend rd _ => some rd
  | .bbLoad rd => some rd
  | .hufCode rd _ => some rd
  | .nop => none
  | .bbBitat _ => none
  | .bbEq _ _ => none
  | .bbStore _ => none
  | .hufEnc => none
  | .hufDec => none
  | .hufFreq => none
  | .lzwEnc => none
  | .lzwDec => none
  | .lzwCodes => none
  | .lzwPack => none
  | .lzwUnpack => none
  | .lzwExpand => none

/-- What a command i does to a state s before it completes. -/
inductive CommandEffect (i : Instr) (s : State) : State → Prop
  /-- NOP -/
  | nothing : i = .nop → CommandEffect i s s
  /-- a destination register is written, within its capacity, or with the code of a symbol -/
  | buffer (rd : RegIx) (b : BitSeq) : destination i = some rd →
      (b.length ≤ max 1 s.params.bbCapBits ∨ ∃ block sym, symbolCode block sym = some b) →
      CommandEffect i s (s.setBitBuffer rd b)
  /-- BB.BITAT finds the bit, or BB.EQ compares -/
  | result (w : Word) : ((∃ r, i = .bbBitat r ∧ s.arg.toNat < (s.bitBuffer r).length) ∨ ∃ r r', i = .bbEq r r') →
      CommandEffect i s (s.setResult w)
  /-- BB.BITAT finds no bit -/
  | absentBit (r : RegIx) : i = .bbBitat r → (s.bitBuffer r).length ≤ s.arg.toNat →
      CommandEffect i s (s.setResult 0).markAbsent
  /-- HUF.CODE finds no symbol -/
  | absentSymbol (rd : RegIx) (sym : Byte) (block : List Byte) : i = .hufCode rd sym →
      s.inBlock = some block → symbolCode block sym = none → CommandEffect i s s.markAbsent
  /-- a result is stored to OUT; it fits when OUT holds at least one byte -/
  | stored (r : List Byte) : writesOut i = true → (1 ≤ s.params.outCap → r.length ≤ s.params.outCap) →
      CommandEffect i s (s.storeOut r)

/-- The three ways a command ends. -/
inductive CommandEnd (i : Instr) (s : State) : Result → Prop
  | failed (e : ErrorCode) : e ≠ .illegalCommand → CommandEnd i s (.next (s.failed (writesOut i) e))
  | refused : inputClass i ≠ .noInput → s.inBlock = none → CommandEnd i s (.refused .unwrittenInput)
  | completed (u : State) : CommandEffect i s u → CommandEnd i s (.next u.completed)

theorem CommandEnd.checks {i : Instr} {s : State} {body : Result}
    (h : CommandEnd i s body) : CommandEnd i s (commonChecks i s body) := by
  rcases commonChecks_cases i s body with ⟨-, e⟩ | ⟨-, -, e⟩ | ⟨-, -, e⟩ <;> rw [e]
  · exact .failed _ (by decide)
  · exact .failed _ (by decide)
  · exact h

theorem CommandEnd.bytes {i : Instr} {s : State} {body : List Byte → Result} (hi : inputClass i ≠ .noInput)
    (h : ∀ block, s.inBlock = some block → CommandEnd i s (body block)) :
    CommandEnd i s (withInBytes s body) := by
  rcases withInBytes_cases s body with ⟨block, hb, e⟩ | ⟨hb, e⟩ <;> rw [e]
  · exact h block hb
  · exact .refused hi hb

theorem CommandEnd.words {i : Instr} {s : State} {body : List Word → Result} (hi : inputClass i ≠ .noInput)
    (h : ∀ w, CommandEnd i s (body w)) : CommandEnd i s (withInWords s body) :=
  CommandEnd.bytes hi fun _ _ => h _

theorem CommandEnd.deliverWords {i : Instr} {s : State} (hi : writesOut i = true) (ws : List Word) :
    CommandEnd i s (deliverWords i s ws) := by
  rcases deliverWords_cases i s ws with ⟨-, e⟩ | ⟨hw, e⟩ <;> rw [e]
  · exact .failed _ (by decide)
  · exact .completed _ (.stored _ hi fun _ => by simpa using hw)

theorem CommandEnd.deliverBytes {i : Instr} {s : State} (hi : writesOut i = true) {r : List Byte}
    (hr : 1 ≤ s.params.outCap → r.length ≤ s.params.outCap) : CommandEnd i s (deliverBytes s r) :=
  .completed _ (.stored _ hi hr)

theorem lzwPack_error {v : List Word} {e : ErrorCode} (h : lzwPack v = .error e) : e = .badOperand := by
  unfold lzwPack at h
  split at h
  · simp at h; exact h.symm
  · split at h <;> simp at h

theorem lzwUnpack_error {w : List Word} {e : ErrorCode} (h : lzwUnpack w = .error e) : e = .malformedStream := by
  unfold lzwUnpack at h
  split at h
  · simp at h
  · simp at h; exact h.symm
  · simp only at h
    split at h
    · simp at h; exact h.symm
    · split at h
      · simp at h; exact h.symm
      · simp at h

theorem loadForm_error {cap : Nat} {w : List Word} {e : ErrorCode} (h : loadForm cap w = .error e) :
    e = .malformedStream ∨ e = .capacity := by
  unfold loadForm at h
  split at h
  · simp at h; exact .inl h.symm
  · split at h
    · simp at h; exact .inl h.symm
    · split at h
      · simp at h; exact .inr h.symm
      · simp at h

theorem except_map_error {ε α β : Type} {f : α → β} {x : Except ε α} {e : ε} (h : x.map f = .error e) :
    x = .error e := by
  cases x with
  | error e' => simpa [Except.map] using h
  | ok a => simp [Except.map] at h

theorem walk_error {root : Tree} {cap : Nat} {bits : BitSeq} {node : Tree} {depth n : Nat} {e : ErrorCode}
    (h : walk root cap bits node depth n = .error e) : e = .malformedStream ∨ e = .capacity := by
  induction bits generalizing node depth n with
  | nil =>
    unfold walk at h
    split at h
    · simp at h
    · simp at h; exact .inl h.symm
  | cons b bits ih =>
    cases node with
    | leaf s => simp [walk] at h; exact .inl h.symm
    | node l rt =>
      unfold walk at h
      split at h
      · split at h
        · simp at h; exact .inr h.symm
        · exact ih (except_map_error h)
      · exact ih h

theorem hufDecode_error {cap : Nat} {w : List Word} {e : ErrorCode} (h : hufDecode cap w = .error e) :
    e = .malformedStream ∨ e = .capacity := by
  unfold hufDecode at h
  split at h
  · simp at h; exact .inl h.symm
  · simp only at h
    iterate 5 (split at h; · simp at h; exact .inl h.symm)
    unfold decodeBits at h
    split at h
    · split at h
      · simp at h; exact .inl h.symm
      · simp at h
    · simp only at h
      split at h
      · simp at h; exact .inl h.symm
      · split at h
        · simp at h; exact .inr h.symm
        · simp at h
    · exact walk_error h

theorem expandLoop_error {cap : Nat} {D : List (List Byte)} {cur : List Byte} {n : Nat} {v : List Word}
    {e : ErrorCode} (h : expandLoop cap D cur n v = .error e) : e = .malformedStream ∨ e = .capacity := by
  induction v generalizing D cur n with
  | nil => simp [expandLoop] at h
  | cons x v ih =>
    unfold expandLoop at h
    split at h
    · simp at h; exact .inl h.symm
    · split at h
      · simp at h; exact .inr h.symm
      · exact ih (except_map_error h)

theorem lzwExpand_error {cap : Nat} {v : List Word} {e : ErrorCode} (h : lzwExpand cap v = .error e) :
    e = .malformedStream ∨ e = .capacity := by
  cases v with
  | nil => simp [lzwExpand] at h
  | cons x v =>
    rw [lzwExpand] at h
    split at h
    · simp at h; exact .inl h.symm
    · exact expandLoop_error (except_map_error h)

/-- An algorithm's error is never ILLEGAL_COMMAND, so a command may end with it. -/
theorem CommandEnd.orRaise {α : Type} {i : Instr} {s : State} {x : Except ErrorCode α} {body : α → Result}
    (he : ∀ e, x = .error e → e ≠ .illegalCommand) (h : ∀ a, x = .ok a → CommandEnd i s (body a)) :
    CommandEnd i s (orRaise i s x body) := by
  cases x with
  | ok a => exact h a rfl
  | error e => exact .failed e (he e rfl)

theorem not_illegal {e : ErrorCode} (h : e = .malformedStream ∨ e = .capacity) : e ≠ .illegalCommand := by
  rcases h with rfl | rfl <;> decide

/-- Every command ends in one of the three ways. -/
theorem exec_end (i : Instr) (s : State) : CommandEnd i s (exec i s) := by
  cases i with
  | nop => exact .checks (.completed _ (.nothing rfl))
  | bbClear rd => exact .checks (.completed _ (.buffer rd [] rfl (.inl (by simp))))
  | bbSingle rd v => exact .checks (.completed _ (.buffer rd [v] rfl (.inl (by simp))))
  | bbAppend rd rs1 =>
    refine .checks ?_
    dsimp only
    split
    · exact .failed _ (by decide)
    · exact .completed _ (.buffer rd _ rfl (.inl (by simp only [List.length_append]; omega)))
  | bbBitat rs1 =>
    refine .checks ?_
    split
    · rename_i b hb
      exact .completed _ (.result _ (.inl ⟨rs1, rfl, (List.getElem?_eq_some_iff.1 hb).1⟩))
    · rename_i hb
      exact .completed _ (.absentBit rs1 rfl (by simpa using hb))
  | bbEq rs1 rs2 => exact .checks (.completed _ (.result _ (.inr ⟨rs1, rs2, rfl⟩)))
  | bbStore rs1 => exact .checks (.deliverWords rfl _)
  | bbLoad rd =>
    refine .checks (.words (by simp [inputClass]) fun w => .orRaise (fun e h => not_illegal (loadForm_error h)) fun b hb => ?_)
    refine .completed _ (.buffer rd b rfl (.inl ?_))
    unfold loadForm at hb
    split at hb
    · simp at hb
    · split at hb
      · simp at hb
      · split at hb
        · simp at hb
        · simp at hb
          subst hb
          exact le_trans length_loadForm_bits (by omega)
  | hufEnc => exact .checks (.bytes (by decide) fun _ _ => .deliverWords rfl _)
  | hufDec =>
    exact .checks (.words (by decide) fun w => .orRaise (fun e h => not_illegal (hufDecode_error h)) fun r hr =>
      .deliverBytes rfl fun _ => length_hufDecode hr)
  | hufFreq => exact .checks (.bytes (by decide) fun _ _ => .deliverWords rfl _)
  | hufCode rd sym =>
    refine .checks (.bytes (by simp [inputClass]) fun block hb => ?_)
    split
    · exact .completed _ (.absentSymbol rd sym block rfl hb (by assumption))
    · exact .completed _ (.buffer rd _ rfl (.inr ⟨block, sym, by assumption⟩))
  | lzwEnc =>
    exact .checks (.bytes (by decide) fun _ _ => .orRaise (fun e h => by rw [lzwPack_error h]; decide) fun _ _ =>
      .deliverWords rfl _)
  | lzwDec =>
    exact .checks (.words (by decide) fun w => .orRaise (fun e h => by rw [lzwUnpack_error h]; decide) fun v _ =>
      .orRaise (fun e h => not_illegal (lzwExpand_error h)) fun r hr => .deliverBytes rfl fun hc => length_lzwExpand hc hr)
  | lzwCodes => exact .checks (.bytes (by decide) fun _ _ => .deliverWords rfl _)
  | lzwPack =>
    exact .checks (.words (by decide) fun _ => .orRaise (fun e h => by rw [lzwPack_error h]; decide) fun _ _ =>
      .deliverWords rfl _)
  | lzwUnpack =>
    exact .checks (.words (by decide) fun _ => .orRaise (fun e h => by rw [lzwUnpack_error h]; decide) fun _ _ =>
      .deliverWords rfl _)
  | lzwExpand =>
    exact .checks (.words (by decide) fun _ => .orRaise (fun e h => not_illegal (lzwExpand_error h)) fun r hr =>
      .deliverBytes rfl fun hc => length_lzwExpand hc hr)

end Sys2Proof.Machine
end

