-- ==== Sys2Proof/Laws/PerInstr.lean ====
section
/-! SUPPORT. Laws stated per command. Family ReservedBits: the reserved field `rsv`, bits 63:28, of every encoded command
is 0 (30_encoding.md R121, R123). -/

namespace Sys2Proof.Laws

/-- The reserved field of format C is 0 whatever the other fields hold. -/
theorem formatC_reserved (op : Byte) (rd rs1 rs2 : RegIx) (imm8 : Byte) :
    formatC op rd rs1 rs2 imm8 >>> 28 = 0 := by
  apply BitVec.eq_of_getLsbD_eq
  intro k _
  simp only [formatC, BitVec.getLsbD_ushiftRight, BitVec.getLsbD_or, BitVec.getLsbD_shiftLeft,
    BitVec.getLsbD_setWidth]
  simp [BitVec.getLsbD_of_ge op (28 + k) (by omega), BitVec.getLsbD_of_ge rd (28 + k - 8) (by omega),
    BitVec.getLsbD_of_ge rs1 (28 + k - 12) (by omega), BitVec.getLsbD_of_ge rs2 (28 + k - 16) (by omega),
    BitVec.getLsbD_of_ge imm8 (28 + k - 20) (by omega)]

namespace ReservedBits

/-- `rsv` of the encoded command is 0. -/
def Statement (i : Instr) : Prop := encode i >>> 28 = 0

theorem nop : Statement .nop := formatC_reserved ..
theorem bbClear (rd : RegIx) : Statement (.bbClear rd) := formatC_reserved ..
theorem bbSingle (rd : RegIx) (v : Bool) : Statement (.bbSingle rd v) := formatC_reserved ..
theorem bbAppend (rd rs1 : RegIx) : Statement (.bbAppend rd rs1) := formatC_reserved ..
theorem bbBitat (rs1 : RegIx) : Statement (.bbBitat rs1) := formatC_reserved ..
theorem bbEq (rs1 rs2 : RegIx) : Statement (.bbEq rs1 rs2) := formatC_reserved ..
theorem bbStore (rs1 : RegIx) : Statement (.bbStore rs1) := formatC_reserved ..
theorem bbLoad (rd : RegIx) : Statement (.bbLoad rd) := formatC_reserved ..
theorem hufEnc : Statement .hufEnc := formatC_reserved ..
theorem hufDec : Statement .hufDec := formatC_reserved ..
theorem hufFreq : Statement .hufFreq := formatC_reserved ..
theorem hufCode (rd : RegIx) (sym : Byte) : Statement (.hufCode rd sym) := formatC_reserved ..
theorem lzwEnc : Statement .lzwEnc := formatC_reserved ..
theorem lzwDec : Statement .lzwDec := formatC_reserved ..
theorem lzwCodes : Statement .lzwCodes := formatC_reserved ..
theorem lzwPack : Statement .lzwPack := formatC_reserved ..
theorem lzwUnpack : Statement .lzwUnpack := formatC_reserved ..
theorem lzwExpand : Statement .lzwExpand := formatC_reserved ..

end ReservedBits

end Sys2Proof.Laws
end

