-- ==== Sys2Proof/Laws/Streams.lean ====
section
/-! SUPPORT. The small lemmas of the stream predicates: the dictionary's strings, and codes that stand for strings with
their indices bounded. -/

namespace Sys2Proof.Machine

@[simp] theorem dictString_byte {strings : List (List Byte)} {k : Nat} (h : k < 256) :
    dictString strings k = [BitVec.ofNat 8 k] := by
  simp [dictString, h]

@[simp] theorem dictString_entry (strings : List (List Byte)) (j : Nat) :
    dictString strings (256 + j) = strings.getD j [] ++ (strings.getD (j + 1) []).take 1 := by
  have h : ¬ 256 + j < 256 := by omega
  rw [dictString, if_neg h, show 256 + j - 256 = j by omega, show 256 + j - 255 = j + 1 by omega]

@[simp] theorem codesStandFor_nil : CodesStandFor [] [] := ⟨rfl, by simp⟩

/-- The codes one by one, over bounded indices. -/
theorem codesStandFor_iff (codes : List Int) (strings : List (List Byte)) :
    CodesStandFor codes strings ↔
      strings.length = codes.length ∧ ∀ (i : Nat) (h : i < codes.length),
        0 ≤ codes[i] ∧ codes[i] ≤ 255 + i ∧ strings[i]? = some (dictString strings codes[i].toNat) := by
  simp only [CodesStandFor, List.getElem?_eq_some_iff]
  exact ⟨fun ⟨hl, h⟩ => ⟨hl, fun i hi => h i _ ⟨hi, rfl⟩⟩, fun ⟨hl, h⟩ => ⟨hl, fun i _ ⟨hi, e⟩ => e ▸ h i hi⟩⟩

end Sys2Proof.Machine
end

