-- ==== Sys2Proof/Machine/Assembler.lean ====
section
/-! DEFINITION. The assembler syntax of 30_encoding.md R128 and R129: a line of text, its operands, the commands it
stands for. A line is a list of characters. -/

namespace Sys2Proof.Machine

/-- An operand as written: a register `b0` .. `b15`, a number, or a character literal (R128). -/
inductive AsmOperand where
  | reg (n : Nat)
  | num (n : Nat)
  | chr (c : Char)
  deriving DecidableEq, Repr

/-! ### Reading a line -/

/-- The value of a decimal digit. -/
def decDigit (c : Char) : Option Nat :=
  if '0'.toNat ≤ c.toNat ∧ c.toNat ≤ '9'.toNat then some (c.toNat - '0'.toNat) else none

/-- The value of a hexadecimal digit. -/
def hexDigit (c : Char) : Option Nat :=
  if 'A'.toNat ≤ c.toNat ∧ c.toNat ≤ 'F'.toNat then some (c.toNat - 'A'.toNat + 10)
  else if 'a'.toNat ≤ c.toNat ∧ c.toNat ≤ 'f'.toNat then some (c.toNat - 'a'.toNat + 10)
  else decDigit c

/-- Drop leading spaces. -/
def skipSpaces : List Char → List Char
  | [] => []
  | c :: cs => if c = ' ' then skipSpaces cs else c :: cs

/-- A register number: one or two digits. DESIGN CHOICE: a leading zero is accepted (assumption 19). -/
def readRegNumber : List Char → Option (Nat × List Char)
  | [] => none
  | d :: cs =>
    match decDigit d, cs with
    | none, _ => none
    | some x, [] => some (x, [])
    | some x, e :: cs' =>
      match decDigit e with
      | some y => some (10 * x + y, cs')
      | none => some (x, e :: cs')

/-- One operand and the rest of the line. -/
def readOperand : List Char → Option (AsmOperand × List Char)
  | 'b' :: cs => (readRegNumber cs).map fun r => (.reg r.1, r.2)
  | '\'' :: c :: '\'' :: cs => some (.chr c, cs)
  | '0' :: 'x' :: h :: l :: cs =>
    match hexDigit h, hexDigit l with
    | some x, some y => some (.num (16 * x + y), cs)
    | _, _ => none
  | '0' :: cs => some (.num 0, cs)
  | '1' :: cs => some (.num 1, cs)
  | _ => none

/-- At most `fuel` operands separated by commas, to the end of the line. -/
def readOperands : Nat → List Char → Option (List AsmOperand)
  | 0, _ => none
  | fuel + 1, cs =>
    match readOperand (skipSpaces cs) with
    | none => none
    | some (o, rest) =>
      match skipSpaces rest with
      | [] => some [o]
      | ',' :: rest' => (readOperands fuel rest').map (o :: ·)
      | _ :: _ => none

/-- The mnemonic of a line, and what follows it. -/
def readMnemonic : List Char → List Char × List Char
  | [] => ([], [])
  | c :: cs => if c = ' ' then ([], cs) else ((c :: (readMnemonic cs).1), (readMnemonic cs).2)

/-- A line as a mnemonic and its operands (no instruction has more than three, R129). -/
def readLine (line : List Char) : Option (List Char × List AsmOperand) :=
  let m := readMnemonic (skipSpaces line)
  match skipSpaces m.2 with
  | [] => some (m.1, [])
  | rest => (readOperands 3 rest).map fun ops => (m.1, ops)

/-! ### Operands as fields -/

/-- A register operand as a field. -/
def AsmOperand.regIx : AsmOperand → Option RegIx
  | .reg n => if n < 16 then some (BitVec.ofNat 4 n) else none
  | .num _ => none
  | .chr _ => none

/-- A bit operand. DESIGN CHOICE: any spelling of 0 or 1 is accepted, 0x00 and 0x01 too (assumption 19). -/
def AsmOperand.bit : AsmOperand → Option Bool
  | .reg _ => none
  | .num n => if n = 0 then some false else if n = 1 then some true else none
  | .chr _ => none

/-- A symbol operand: a number, or a character standing for its 8-bit code. DESIGN CHOICE: the 8-bit code of a character
is its code point below 256; the plain numbers 0 and 1 are accepted too (assumption 19). -/
def AsmOperand.symbol : AsmOperand → Option Byte
  | .reg _ => none
  | .num n => if n < 256 then some (BitVec.ofNat 8 n) else none
  | .chr c => if c.toNat < 256 then some (BitVec.ofNat 8 c.toNat) else none

/-! ### Commands -/

/-- A mnemonic without operands. -/
def assemble0 (m : List Char) : Option Instr :=
  if m = "nop".toList then some .nop
  else if m = "huf.enc".toList then some .hufEnc
  else if m = "huf.dec".toList then some .hufDec
  else if m = "huf.freq".toList then some .hufFreq
  else if m = "lzw.enc".toList then some .lzwEnc
  else if m = "lzw.dec".toList then some .lzwDec
  else if m = "lzw.codes".toList then some .lzwCodes
  else if m = "lzw.pack".toList then some .lzwPack
  else if m = "lzw.unpack".toList then some .lzwUnpack
  else if m = "lzw.expand".toList then some .lzwExpand
  else none

/-- A mnemonic with one register operand. -/
def assemble1 (m : List Char) (r : RegIx) : Option (List Instr) :=
  if m = "bb.clear".toList then some [.bbClear r]
  else if m = "bb.bitat".toList then some [.bbBitat r]
  else if m = "bb.store".toList then some [.bbStore r]
  else if m = "bb.load".toList then some [.bbLoad r]
  else if m = "bb.empty".toList then (Pseudo.bbEmpty r).expand
  else if m = "bb.double".toList then (Pseudo.bbDouble r).expand
  else none

/-- A mnemonic with a register and a second operand. -/
def assemble2 (m : List Char) (r : RegIx) (o : AsmOperand) : Option (List Instr) :=
  if m = "bb.single".toList then o.bit.map fun v => [.bbSingle r v]
  else if m = "bb.append".toList then o.regIx.map fun x => [.bbAppend r x]
  else if m = "bb.eq".toList then o.regIx.map fun x => [.bbEq r x]
  else if m = "huf.code".toList then o.symbol.map fun x => [.hufCode r x]
  else if m = "bb.copy".toList then o.regIx.bind fun x => (Pseudo.bbCopy r x).expand
  else none

/-- The commands a mnemonic and its operands stand for (R128, R129). -/
def assemble (m : List Char) : List AsmOperand → Option (List Instr)
  | [] => (assemble0 m).map ([·])
  | [a] => a.regIx.bind (assemble1 m)
  | [a, b] => a.regIx.bind fun r => assemble2 m r b
  | [a, b, c] =>
    if m = "bb.concat".toList then
      a.regIx.bind fun d => b.regIx.bind fun x => c.regIx.bind fun y => (Pseudo.bbConcat d x y).expand
    else none
  | _ => none

/-- The commands a line of assembler text stands for. -/
def assembleLine (line : List Char) : Option (List Instr) :=
  (readLine line).bind fun p => assemble p.1 p.2

end Sys2Proof.Machine
end

