-- ==== Sys2Proof/Machine/Container.lean ====
section
/-! DEFINITION. The host's block container passes (43_block_container.md R320 to R326), driven over `step`: the
compress pass frames each block's output words behind their count, the decompress pass takes the frames apart. -/

namespace Sys2Proof.Machine

/-- The codec of a run, chosen once (R326). -/
inductive Codec where
  | huffman
  | lzw
  deriving DecidableEq, Repr

/-- The command that compresses one block. -/
def Codec.compressCommand : Codec → Instr
  | .huffman => .hufEnc
  | .lzw => .lzwEnc

/-- The command that decompresses one block. -/
def Codec.decompressCommand : Codec → Instr
  | .huffman => .hufDec
  | .lzw => .lzwDec

/-- Why a pass ends before its input does (R325). -/
inductive PassStop where
  /-- The command of a block ended with this STATUS.ERRCODE. -/
  | commandError (code : Byte)
  /-- The file ends inside a frame. -/
  | truncatedFrame
  /-- The engine gave a host access or a command no meaning. -/
  | stopped (r : Result)

/-- A pass: what it appended to its output file, and the state it ended in or why it stopped (R325: what was
appended stays). -/
structure Pass (α : Type) where
  output : List α
  ended : Except PassStop State

/-- The chunks of at most k elements, the last one possibly shorter (R320); `fuel` bounds their number. DESIGN CHOICE: with
k = 0, of which the spec says nothing (R323 has 1 <= k), they are `fuel` empty chunks (assumption 23). -/
def chunksOf (k : Nat) : Nat → List Byte → List (List Byte)
  | 0, _ => []
  | _ + 1, [] => []
  | fuel + 1, x :: xs => (x :: xs).take k :: chunksOf k fuel ((x :: xs).drop k)

/-- The chunks of a whole input (for k ≥ 1 its length is fuel enough; for k = 0 an empty chunk for each byte,
assumption 23). -/
def chunks (k : Nat) (input : List Byte) : List (List Byte) := chunksOf k input.length input

/-- The state of a result, or why there is none. -/
def resultState (r : Result) : Except PassStop State :=
  match r with
  | .next s => .ok s
  | .fault e => .error (.stopped (.fault e))
  | .refused e => .error (.stopped (.refused e))

/-- Reads of OUT: n accesses of the given width, `step` bytes apart. -/
def outReads (p : Params) (width bytes : Nat) (n : Nat) : List Turn :=
  (List.range n).map fun k => .access (.read (p.outBase + bytes * k) width)

/-- The n values the host read last, oldest first. -/
def State.lastReads (s : State) (n : Nat) : List Word := (s.reads.take n).reverse

/-- Give the engine an input and run one command; an error of the command stops the pass. DESIGN CHOICE: the engine's turn
comes right after the CMD write, before the wait loop reads STATUS, since R384 leaves the latency open (assumption 24). -/
def runBlock (load : List HostStmt) (inLen : Nat) (i : Instr) (s : State) : Except PassStop State :=
  match resultState (runHost (load ++ [.wr .inLen (BitVec.ofNat 64 inLen), .exec (encode i) 0]) s) with
  | .error e => .error e
  | .ok s' => if s'.status.err then .error (.commandError s'.status.errcode) else .ok s'

/-- One frame of the compress pass: the word count, then the words of OUT (R320, R321). Of a chunk larger than IN the
host writes what IN holds, and the engine answers its IN_LEN with BAD_LENGTH (R320; assumption 22). -/
def compressBlock (codec : Codec) (chunk : List Byte) (s : State) : Except PassStop (List Word × State) :=
  match runBlock [.wrb 0 (chunk.take s.params.inCap)] chunk.length codec.compressCommand s with
  | .error e => .error e
  | .ok s1 =>
    let n := s1.outLen.toNat / 8
    match resultState (runTurns (outReads s1.params 64 8 n) s1) with
    | .error e => .error e
    | .ok s2 => .ok (BitVec.ofNat 64 n :: s2.lastReads n, s2)

/-- The frames of a list of chunks. -/
def compressChunks (codec : Codec) : List (List Byte) → State → Pass Word
  | [], s => ⟨[], .ok s⟩
  | c :: cs, s =>
    match compressBlock codec c s with
    | .error e => ⟨[], .error e⟩
    | .ok (frame, s') =>
      let p := compressChunks codec cs s'
      ⟨frame ++ p.output, p.ended⟩

/-- The compress pass (R320). -/
def compressPass (codec : Codec) (blockSize : Nat) (input : List Byte) (s : State) : Pass Word :=
  compressChunks codec (chunks blockSize input) s

/-- One block of the decompress pass: the bytes OUT[0..OUT_LEN) (R322). A block larger than IN ends with BAD_LENGTH, as
in the compress pass (assumption 22). -/
def decompressBlock (codec : Codec) (words : List Word) (s : State) : Except PassStop (List Byte × State) :=
  match runBlock [.wrw 0 (words.take (s.params.inCap / 8))] (8 * words.length) codec.decompressCommand s with
  | .error e => .error e
  | .ok s1 =>
    let n := s1.outLen.toNat
    match resultState (runTurns (outReads s1.params 8 1 n) s1) with
    | .error e => .error e
    | .ok s2 => .ok ((s2.lastReads n).map (·.setWidth 8), s2)

/-- The frames of a file, one after the other; `fuel` bounds their number. -/
def decompressFrames (codec : Codec) : Nat → List Word → State → Pass Byte
  | _, [], s => ⟨[], .ok s⟩
  | 0, _ :: _, _ => ⟨[], .error .truncatedFrame⟩
  | fuel + 1, count :: rest, s =>
    if rest.length < count.toNat then ⟨[], .error .truncatedFrame⟩
    else
      match decompressBlock codec (rest.take count.toNat) s with
      | .error e => ⟨[], .error e⟩
      | .ok (bytes, s') =>
        let p := decompressFrames codec fuel (rest.drop count.toNat) s'
        ⟨bytes ++ p.output, p.ended⟩

/-- The decompress pass (R322): to the end of the compressed input. -/
def decompressPass (codec : Codec) (file : List Word) (s : State) : Pass Byte :=
  decompressFrames codec file.length file s

end Sys2Proof.Machine
end

