-- ==== Sys2Proof/Tests/Slice0.lean ====
section
/-! SUPPORT. Tests against the worked examples and vectors of spec/95_test_vectors.md and the rules' own examples (each
test names its source), and a witness for the hypotheses of every statement. -/

namespace Sys2Proof.Tests

open Sys2Proof Sys2Proof.Machine

/-! ### Helpers -/

/-- The next state of a result, if there is one. -/
def after (r : Result) : Option State :=
  match r with
  | .next s => some s
  | .fault _ => none
  | .refused _ => none

/-- STATUS after a result. -/
def statusAfter (r : Result) : Option Word := (after r).map (·.status.word)

/-- OUT after a result, as the bytes it defines. -/
def outAfter (r : Result) : Option Memory := (after r).map (·.outMem)

/-- The BitBuffer registers after a result. -/
def buffersAfter (r : Result) : Option (List BitSeq) := (after r).map (·.bb)

/-- The reset state with an input block. -/
def withBlock (block : List Byte) : State :=
  { State.reset with inMem := Memory.ofBytes 0 block, inLen := BitVec.ofNat 64 block.length }

/-- The reset state with input words. -/
def withWords (ws : List Word) : State := withBlock (bytesOfWords ws)

/-- The reset state with BitBuffer registers. -/
def withBuffers (bb : List BitSeq) : State := { State.reset with bb := bb }

/-- OUT as the given words. -/
def wordsOut (ws : List Word) : Option Memory := some (Memory.ofBytes 0 (bytesOfWords ws))

/-- OUT as the given bytes. -/
def bytesOut (bs : List Byte) : Option Memory := some (Memory.ofBytes 0 bs)

/-- The idle reset state with one turn to come. -/
def idleWith (t : Turn) : State := { State.reset with turns := [t] }

/-- A state with a NOP in flight and one turn to come. -/
def busyWith (t : Turn) : State := { State.reset.accept 0 with turns := [t] }

/-- The smallest parameters 00_scope.md R8 allows, for tests at a capacity's edge. -/
def smallParams : Params := { Params.reference with bbCapBits := 256, inCap := 64, outCap := 16 }

/-- A state with the smallest parameters and an input block. -/
def small (block : List Byte) : State := { withBlock block with params := smallParams }

/-! ### Well-formedness -/

theorem test_wellFormed_refuses_missing_destination : (Instr.bbClear 5).wellFormed 4 = false := by decide
theorem test_wellFormed_refuses_register_nbb : (Instr.bbLoad 4).wellFormed 4 = false := by decide
theorem test_wellFormed_refuses_missing_source : (Instr.bbAppend 3 4).wellFormed 4 = false := by decide
theorem test_wellFormed_refuses_missing_second_source : (Instr.bbEq 0 15).wellFormed 4 = false := by decide
theorem test_wellFormed_accepts_last_register : (Instr.hufCode 3 0xFF).wellFormed 4 = true := by decide

/-! ### Decoding: one word a constructor, written out from 30_encoding.md R121 and R124 -/

theorem test_decode_nop : decode 0x0000000000000000 = .ok .nop := by rfl
/-- 40_bitbuffer.md R152 -/
theorem test_decode_bbClear : decode 0x0000000000000201 = .ok (.bbClear 2) := by rfl
/-- R128 -/
theorem test_decode_bbSingle : decode 0x0000000000100002 = .ok (.bbSingle 0 true) := by rfl
/-- R128 -/
theorem test_decode_bbAppend : decode 0x0000000000002103 = .ok (.bbAppend 1 2) := by rfl
/-- rs1 = 9 in bits 15:12 -/
theorem test_decode_bbBitat : decode 0x0000000000009004 = .ok (.bbBitat 9) := by rfl
/-- 95_test_vectors.md section 2 -/
theorem test_decode_bbEq : decode 0x0000000000021005 = .ok (.bbEq 1 2) := by rfl
/-- 95_test_vectors.md section 2 -/
theorem test_decode_bbStore : decode 0x0000000000003006 = .ok (.bbStore 3) := by rfl
/-- 95_test_vectors.md section 2 -/
theorem test_decode_bbLoad : decode 0x0000000000000107 = .ok (.bbLoad 1) := by rfl
theorem test_decode_hufEnc : decode 0x0000000000000010 = .ok .hufEnc := by rfl
theorem test_decode_hufDec : decode 0x0000000000000011 = .ok .hufDec := by rfl
theorem test_decode_hufFreq : decode 0x0000000000000012 = .ok .hufFreq := by rfl
/-- R128 -/
theorem test_decode_hufCode : decode 0x0000000002400313 = .ok (.hufCode 3 0x24) := by rfl
theorem test_decode_lzwEnc : decode 0x0000000000000020 = .ok .lzwEnc := by rfl
theorem test_decode_lzwDec : decode 0x0000000000000021 = .ok .lzwDec := by rfl
theorem test_decode_lzwCodes : decode 0x0000000000000022 = .ok .lzwCodes := by rfl
theorem test_decode_lzwPack : decode 0x0000000000000023 = .ok .lzwPack := by rfl
theorem test_decode_lzwUnpack : decode 0x0000000000000024 = .ok .lzwUnpack := by rfl
theorem test_decode_lzwExpand : decode 0x0000000000000025 = .ok .lzwExpand := by rfl
/-- V41 -/
theorem test_decode_reserved : decode 0x0000000000000008 = .error (.reservedOpcode 0x08) := by rfl
/-- V43 -/
theorem test_decode_rsv_bit : decode 0x0000000010000000 = .error (.nonzeroUnusedField 0x00) := by rfl
/-- V45: imm8 = 2 -/
theorem test_decode_single_imm : decode 0x0000000000200002 = .error (.nonzeroUnusedField 0x02) := by rfl
/-- V52: an unused register field -/
theorem test_decode_unused_rs1 : decode 0x0000000000005011 = .error (.nonzeroUnusedField 0x11) := by rfl
/-- A table word of fewer bits is the same word with zeros above. -/
theorem test_decode_table_word : decodeTableWord 64 0x2400313 = some (.hufCode 3 0x24) := by rfl

/-! ### Commands: expected values from 95_test_vectors.md -/

/-- V40, V51: no input is read. -/
theorem test_nop : statusAfter (exec .nop { State.reset with inLen := 0x10000000000 }) = some 0x2 := by decide
theorem test_bbClear : buffersAfter (exec (.bbClear 1) (withBuffers [[true], [true, false], [], []])) =
    some [[true], [], [], []] := by decide
/-- V46 -/
theorem test_bbClear_bad_register : statusAfter (exec (.bbClear 5) State.reset) = some 0x206 := by decide
theorem test_bbSingle : buffersAfter (exec (.bbSingle 0 true) State.reset) = some [[true], [], [], []] := by decide
/-- V16 -/
theorem test_bbAppend : buffersAfter (exec (.bbAppend 0 1) (withBuffers [[true, false, true], [true, true], [], []])) =
    some [[true, false, true, true, true], [true, true], [], []] := by decide
/-- V18: source and destination are one register. -/
theorem test_bbAppend_self : buffersAfter (exec (.bbAppend 0 0) (withBuffers [[true, false], [], [], []])) =
    some [[true, false, true, false], [], [], []] := by decide
/-- V30 -/
theorem test_bbBitat : (after (exec (.bbBitat 0)
    { withBuffers [[true, false, true, true, true], [], [], []] with arg := 2 })).map (·.result) = some 1 := by decide
/-- V33: the index is read unsigned. -/
theorem test_bbBitat_absent : statusAfter (exec (.bbBitat 0)
    { withBuffers [[true, false, true, true, true], [], [], []] with arg := 0x8000000000000000 }) = some 0xA := by decide
/-- V34 -/
theorem test_bbEq : (after (exec (.bbEq 1 2) (withBuffers [[], [true, true], [true, true], []]))).map (·.result) =
    some 1 := by decide
/-- V35: the lengths differ. -/
theorem test_bbEq_lengths : (after (exec (.bbEq 1 2) (withBuffers [[], [false], [], []]))).map (·.result) =
    some 0 := by decide
/-- V36 -/
theorem test_bbStore : outAfter (exec (.bbStore 0) (withBuffers [[true, false, true, true, true], [], [], []])) =
    wordsOut [0x5, 0xB800000000000000] := by decide
/-- V39: padding is ignored. -/
theorem test_bbLoad : buffersAfter (exec (.bbLoad 1) (withWords [0x3, 0xBFFFFFFFFFFFFFFF])) =
    some [[], [true, false, true], [], []] := by decide
/-- V63: a trailing word. -/
theorem test_bbLoad_trailing : statusAfter (exec (.bbLoad 1) (withWords [0x3, 0xA000000000000000, 0x0])) =
    some 0x406 := by decide
/-- V6: equal counts across 0x7F/0x80, the signed order. -/
theorem test_hufEnc_signed_tie : outAfter (exec .hufEnc (withBlock [0x01, 0x80])) =
    wordsOut [0x2, 0x8000000000000001, 0x0100000000000001, 0x2, 0x4000000000000000] := by decide
/-- V5 -/
theorem test_hufEnc : outAfter (exec .hufEnc (withBlock [0x41, 0x42, 0x42, 0x43, 0x43, 0x43])) =
    wordsOut [0x3, 0x4100000000000001, 0x4200000000000002, 0x4300000000000003, 0x9, 0x4380000000000000] := by
  decide
/-- V74: the table is sorted again. -/
theorem test_hufDec : outAfter (exec .hufDec
    (withWords [0x2, 0x4200000000000001, 0x4100000000000001, 0x2, 0x4000000000000000])) =
    bytesOut [0x42, 0x41] := by decide
/-- V82: the bits run out before a leaf. -/
theorem test_hufDec_truncated : statusAfter (exec .hufDec
    (withWords [0x3, 0x4100000000000001, 0x4200000000000001, 0x4300000000000002, 0x1, 0x0])) = some 0x406 := by
  decide
/-- 41_huffman.md R230 -/
theorem test_hufFreq : outAfter (exec .hufFreq (withBlock [0x41, 0x42, 0x42, 0x43, 0x43, 0x43])) =
    wordsOut [0x3, 0x4100000000000001, 0x4200000000000002, 0x4300000000000003] := by decide
/-- V1 with every count: '$' = 1100. -/
theorem test_hufCode : (buildTree [(0x23, 25), (0x24, 2), (0x2B, 3), (0x2E, 9), (0x45, 1)]).map (Tree.code 0x24) =
    some [true, true, false, false] := by decide
/-- V53 -/
theorem test_hufCode_absent : statusAfter (exec (.hufCode 1 0x00) State.reset) = some 0xA := by decide
/-- V114 -/
theorem test_lzwEnc : outAfter (exec .lzwEnc (withBlock [0x61, 0x62, 0x61, 0x62, 0x61, 0x62, 0x61, 0x62])) =
    wordsOut [0x4, 0x5, 0x0061006201000102, 0x0062000000000000] := by decide
/-- V111: byte 255 has code 255. -/
theorem test_lzwEnc_high_bytes : outAfter (exec .lzwEnc (withBlock [0xFF, 0xFF])) =
    wordsOut [0x4, 0x2, 0x00FF00FF00000000] := by decide
/-- V112 -/
theorem test_lzwDec : outAfter (exec .lzwDec (withWords [0x4, 0x3, 0x0061010000610000])) =
    bytesOut [0x61, 0x61, 0x61, 0x61] := by decide
/-- V109: no words decode to the empty block. -/
theorem test_lzwDec_empty : statusAfter (exec .lzwDec State.reset) = some 0x2 := by decide
/-- V29 -/
theorem test_lzwCodes : outAfter (exec .lzwCodes (withBlock [0x61, 0x62, 0x61, 0x62, 0x61, 0x62, 0x61, 0x62])) =
    wordsOut [97, 98, 256, 258, 98] := by decide
/-- V21: 127 does not get stride 8. -/
theorem test_lzwPack : outAfter (exec .lzwPack (withWords [1, 127, 0])) =
    wordsOut [0x4, 0x3, 0x0001007F00000000] := by decide
/-- V91 -/
theorem test_lzwPack_negative : statusAfter (exec .lzwPack (withWords [1, 0x8000000000000000])) = some 0x606 := by
  decide
/-- V93: sign extension. -/
theorem test_lzwUnpack : outAfter (exec .lzwUnpack (withWords [0x2, 0x2, 0xFFFFFFFF00000005])) =
    wordsOut [0xFFFFFFFFFFFFFFFF, 0x5] := by decide
/-- V98: stride 3. -/
theorem test_lzwUnpack_stride : statusAfter (exec .lzwUnpack (withWords [0x3, 0x1, 0x0])) = some 0x406 := by
  decide
/-- V102: the self-referential case twice. -/
theorem test_lzwExpand : outAfter (exec .lzwExpand (withWords [97, 256, 257])) =
    bytesOut [0x61, 0x61, 0x61, 0x61, 0x61, 0x61] := by decide
/-- V106: a negative code. -/
theorem test_lzwExpand_negative : statusAfter (exec .lzwExpand (withWords [97, 0xFFFFFFFFFFFFFFFF])) = some 0x406 := by
  decide

/-! ### Steps, accesses, the interrupt -/

/-- V41: a reserved opcode, and OUT_LEN 0. -/
theorem test_step_illegal : statusAfter (step (State.reset.withFetchWord 64 0x08)) = some 0x106 := by decide
/-- V47: ILLEGAL_COMMAND before BAD_REGISTER. -/
theorem test_step_illegal_first : statusAfter (step (State.reset.withFetchWord 64 0x10000501)) = some 0x106 := by decide
/-- V49: BAD_LENGTH before the input is looked at. -/
theorem test_step_bad_length :
    statusAfter (step ({ State.reset with inLen := 12 }.withFetchWord 64 0x11)) = some 0x306 := by decide
/-- P5: the NOP is lost while another command runs. -/
theorem test_lost : statusAfter (step (busyWith (.access (.write 0 64 0)))) = some 0x11 := by decide
/-- P5: DONE and LOST are cleared by writing ones. -/
theorem test_status_write : statusAfter (step { idleWith (.access (.write 8 64 0x12)) with
    status := ⟨false, true, true, false, true, 2⟩ }) = some 0x204 := by decide
/-- 20_memory.md R82 -/
theorem test_in_write : (after (step (idleWith (.access (.write 0x10000008 64 0x0102030405060708))))).map (·.inMem) =
    some [(8, 0x08), (9, 0x07), (10, 0x06), (11, 0x05), (12, 0x04), (13, 0x03), (14, 0x02), (15, 0x01)] := by decide
/-- 20_memory.md R88: a misaligned register access. -/
theorem test_misaligned : (after (step (idleWith (.access (.read 4 64))))).isNone = true := by decide
/-- 60_exceptions.md R345 -/
theorem test_irq : (after (exec .nop { State.reset with ie := true })).map State.irq = some true := by decide

/-! ### Assembler, container -/

/-- R128, R129 -/
theorem test_assemble : assembleLine "huf.code b3, '$'".toList = some [.hufCode 3 0x24] := by decide
theorem test_assemble_pseudo : assembleLine "bb.concat b1, b2, b3".toList =
    some [.bbClear 1, .bbAppend 1 2, .bbAppend 1 3] := by decide
/-- V4: a one-frame file, L = 5. -/
theorem test_compress : (compressPass .huffman 1000000 [0x41, 0x42] State.reset).output =
    [0x5, 0x2, 0x4100000000000001, 0x4200000000000001, 0x2, 0x8000000000000000] := by decide
theorem test_decompress : (decompressPass .lzw [0x3, 0x8, 0x1, 0x6100000000000000] State.reset).output = [0x61] := by
  decide

/-! ### Witnesses: the hypotheses of each statement, met together

Every theorem is named after its statement. A statement of several clauses has a state for each, at the edges of the
clause's range. -/

/-- A result that is a next state with a decidable property. -/
theorem exists_next {r : Result} (P : State → Prop) [DecidablePred P]
    (h : (after r).any (fun t => decide (P t)) = true) :
    ∃ t, r = .next t ∧ P t := by
  cases r with
  | next s => exact ⟨s, rfl, by simpa [after] using h⟩
  | fault e => simp [after] at h
  | refused e => simp [after] at h

/-- A host write of 64 bits to a register offset, base 0. -/
def wr (off : Nat) (v : Word) : Turn := .access (.write (Params.reference.regBase + off) 64 v)

/-- A host read of 64 bits of a register offset, base 0. -/
def rd (off : Nat) : Turn := .access (.read (Params.reference.regBase + off) 64)

/-- The smallest parameters with BitBuffer registers. -/
def smallBuffers (bb : List BitSeq) : State := { small [] with bb := bb }

/-- The smallest parameters with input words. -/
def smallWords (ws : List Word) : State := small (bytesOfWords ws)

theorem witness_DecodedWordIsItsCommandsEncoding : decode 0x0000000002400313 = .ok (.hufCode 3 0x24) := by rfl

theorem witness_StepRunsTheDecodedCommand :
    (busyWith .engine).current = some 0 ∧ decode 0 = .ok .nop ∧ (busyWith .engine).turns = [.engine] ∧
    { busyWith .engine with turns := [] }.turns = [] ∧ decodeTableWord 64 0x13 = some (.hufCode 0 0) :=
  ⟨rfl, rfl, rfl, rfl, rfl⟩

theorem witness_IdleEngineKeepsItsState : State.reset.current = none ∧ State.reset.turns = [] ∧
    (idleWith .engine).current = none ∧ (idleWith .engine).turns = [.engine] := ⟨rfl, rfl, rfl, rfl⟩

theorem witness_CmdWriteWhileIdleIsAccepted :
    (idleWith (wr 0 0x10)).status.busy = false ∧
    (idleWith (wr 0 0x10)).turns = [.access (.write State.reset.params.regBase 64 0x10)] ∧
    decode 0x10 = .ok .hufEnc ∧ decode 0x08 = .error (.reservedOpcode 0x08) := ⟨rfl, rfl, rfl, rfl⟩

theorem witness_CmdWriteWhileBusyIsDropped :
    (busyWith (wr 0 0x10)).status.busy = true ∧
    (busyWith (wr 0 0x10)).turns = [.access (.write State.reset.params.regBase 64 0x10)] := ⟨rfl, rfl⟩

theorem witness_StatusWriteClearsDoneAndLost :
    (idleWith (wr 8 0x12)).turns = [.access (.write (State.reset.params.regBase + 0x08) 64 0x12)] := rfl

theorem witness_RegisterWritesReachTheirRegister : (idleWith (wr 0x18 7)).status.busy = false ∧
    ∀ off ∈ [0x10, 0x18, 0x28, 0x20, 0x30],
      (idleWith (wr off 7)).turns = [.access (.write (State.reset.params.regBase + off) 64 7)] := by decide

theorem witness_CapabilityRegistersAreConstants :
    ∀ e ∈ [(0x38, 2 ^ 20), (0x40, 2 ^ 23), (0x48, 65536), (0x50, 4)],
      e ∈ [(0x38, State.reset.params.inCap), (0x40, State.reset.params.outCap), (0x48, State.reset.params.bbCapBits),
        (0x50, State.reset.params.nbb)] ∧
      (idleWith (rd e.1)).turns = [.access (.read (State.reset.params.regBase + e.1) 64)] ∧
      (idleWith (wr e.1 9)).turns = [.access (.write (State.reset.params.regBase + e.1) 64 9)] := by decide

theorem witness_ReservedOffsetsReadZero : ∀ off ∈ [0x58, 0xF8],
    0x58 ≤ off ∧ off ≤ 0xF8 ∧ off % 8 = 0 ∧
    (idleWith (rd off)).turns = [.access (.read (State.reset.params.regBase + off) 64)] ∧
    (idleWith (wr off 9)).turns = [.access (.write (State.reset.params.regBase + off) 64 9)] := by decide

/-- Idle and busy: OUT_LEN and RESULT are the value held, and the free value. -/
theorem witness_RegisterReadsReturnTheirValue :
    (∀ off ∈ [0x00, 0x08, 0x10, 0x18, 0x28, 0x20, 0x30],
      (idleWith (rd off)).turns = [.access (.read (State.reset.params.regBase + off) 64)]) ∧
    (0x20, (0 : Word)) ∈ [(0x20, if (idleWith (rd 0x20)).status.busy then Config.freeWord 0 else 0)] ∧
    (0x30, Config.freeWord 0) ∈ [(0x30, if (busyWith (rd 0x30)).status.busy then Config.freeWord 0 else 0)] :=
  ⟨by decide, .head _, .head _⟩

theorem witness_InputWritesWhileBusyAreRefused : (busyWith (wr 0x18 1)).status.busy = true ∧
    State.reset.params.windowsApart ∧
    ∀ e ∈ [(0, 8), (0, 64), (2 ^ 20 - 1, 8), (2 ^ 20 - 8, 64)],
      e.1 < State.reset.params.inCap ∧ (e.2 = 8 ∨ (e.2 = 64 ∧ e.1 % 8 = 0)) ∧
      (busyWith (.access (.write (2 ^ 28 + e.1) e.2 1))).turns =
        [.access (.write (State.reset.params.inBase + e.1) e.2 1)] := by decide

theorem witness_HostReadsChangeNothingOfTheEngine : (idleWith (rd 8)).turns = [.access (.read 8 64)] := rfl

/-- First and last address of each window, and one past it. -/
theorem witness_ExactlyTheListedAccessesAreAdmitted : State.reset.params.windowsApart ∧
    (∀ e ∈ [(0, 64), (0xF8, 64), (2 ^ 28, 64), (2 ^ 28 + 2 ^ 20 - 1, 8), (2 ^ 29, 8), (2 ^ 29 + 2 ^ 23 - 8, 64)],
      (after (step (idleWith (.access (.read e.1 e.2))))).isSome = true) ∧
    (∀ e ∈ [(0, 8), (4, 64), (0x100, 64), (2 ^ 28 + 4, 64), (2 ^ 28 + 2 ^ 20, 8), (2 ^ 29 + 2 ^ 23, 8), (2 ^ 29, 32)],
      (after (step (idleWith (.access (.read e.1 e.2))))).isSome = false) := by decide

theorem witness_InWritesAreLittleEndian : State.reset.status.busy = false ∧ State.reset.params.windowsApart ∧
    (∀ off ∈ [0, 2 ^ 20 - 8, 2 ^ 20 - 1], off < State.reset.params.inCap) ∧
    0 % 8 = 0 ∧ (2 ^ 20 - 8) % 8 = 0 := by decide

theorem witness_WordsAreAssembledLittleEndian :
    8 * 0 + 8 ≤ (leBytes 0x0102030405060708).length ∧
    wordsOfBytes (leBytes 0x0102030405060708) = [0x0102030405060708] ∧
    (bytesOfWords [0x0102030405060708])[7]? = some 0x01 := by decide

theorem witness_OutReadsAreLittleEndian : ∀ off ∈ [0, 2 ^ 23 - 8],
    let s := { idleWith (.access (.read (State.reset.params.outBase + off) 64)) with
      outMem := Memory.ofBytes off (leBytes 0x0102030405060708) }
    s.status.busy = false ∧ s.params.windowsApart ∧ off < s.params.outCap ∧ off % 8 = 0 ∧
    Memory.read s.outMem off = some 0x08 ∧
    ∀ j, j < 8 → Memory.read s.outMem (off + j) = some ((0x0102030405060708 : Word).extractLsb' (8 * j) 8) := by decide

/-- IN, while BUSY. -/
theorem witness_OutReadsAreLittleEndian_in : ∀ off ∈ [0, 2 ^ 20 - 8],
    let s := { busyWith (.access (.read (State.reset.params.inBase + off) 64)) with
      inMem := Memory.ofBytes off (leBytes 0x0102030405060708) }
    s.status.busy = true ∧ s.params.windowsApart ∧ off < s.params.inCap ∧ off % 8 = 0 ∧
    Memory.read s.inMem off = some 0x08 ∧
    ∀ j, j < 8 → Memory.read s.inMem (off + j) = some ((0x0102030405060708 : Word).extractLsb' (8 * j) 8) := by decide

theorem witness_IrqFollowsDoneAndEnable : (∃ t, runWord 0 State.reset = .next t) ∧
    (idleWith (wr 0x10 1)).turns = [.access (.write (State.reset.params.regBase + 0x10) 64 1)] ∧
    (idleWith (wr 0x08 2)).turns = [.access (.write (State.reset.params.regBase + 0x08) 64 2)] ∧
    (idleWith (wr 0 0)).status.busy = false := ⟨⟨_, rfl⟩, rfl, rfl, rfl⟩

/-- Register 3 of 4 exists, 4 does not. -/
theorem witness_DecodeChecksComeFirst :
    (State.reset.place 0x08).current = some 0x08 ∧ (State.reset.place 0x08).turns = [] ∧
    decode 0x08 = .error (.reservedOpcode 0x08) ∧ decode 0x0401 = .ok (.bbClear 4) ∧
    (∃ r ∈ (Instr.bbClear 4).registers, State.reset.params.nbb ≤ r.toNat) ∧
    ¬ (∃ r ∈ (Instr.bbClear 3).registers, State.reset.params.nbb ≤ r.toNat) :=
  ⟨rfl, rfl, rfl, rfl, by decide, by decide⟩

theorem witness_LengthCheckComesThird :
    (Instr.bbLoad 3).wellFormed State.reset.params.nbb = true ∧
    (inputClass .hufEnc ≠ .noInput ∧ State.reset.params.inCap < (2 ^ 20 + 1 : Word).toNat) ∧
    (inputClass (.bbLoad 3) = .wordInput ∧ (12 : Word).toNat % 8 ≠ 0) ∧
    inputClass .nop = .noInput ∧
    ∃ t, exec .nop { State.reset with status := { Status.zero with err := true, errcode := 3 } } = .next t ∧
      t.status.errcode = 3 := ⟨by decide, by decide, by decide, rfl, exists_next _ (by decide)⟩

/-- One OUT-writing command and one that is not. -/
theorem witness_ErrorsArePrecise : decode 0x08 = .error (.reservedOpcode 0x08) ∧ State.reset.status.err = false ∧
    (∃ t, exec .lzwUnpack (withWords [8]) = .next t ∧ t.status.err = true) ∧
    (∃ t, exec (.bbClear 4) State.reset = .next t ∧ t.status.err = true) :=
  ⟨rfl, rfl, exists_next _ (by decide), exists_next _ (by decide)⟩

theorem witness_CompletionStatus : State.reset.status = Status.zero ∧
    (∃ t, exec .nop State.reset = .next t ∧ t.status.err = false) ∧
    (∃ t, exec (.bbBitat 0) State.reset = .next t ∧ t.status.err = false ∧ t.status.absent = true) :=
  ⟨rfl, exists_next _ (by decide), exists_next _ (by decide)⟩

theorem witness_EngineLeavesTheHostsRegisters : ∃ t, runWord 0x0000000000000201 State.reset = .next t := ⟨_, rfl⟩

theorem witness_ResultIsWrittenOnlyByBitAtAndEq :
    ∃ t, runWord 0x0000000000021005 State.reset = .next t ∧ t.result ≠ State.reset.result := exists_next _ (by decide)

/-- Index = length, index = length - 1, a symbol not in the block, an error. -/
theorem witness_AbsentIsSetExactlyByTwoCommands :
    (∃ t, exec (.bbBitat 0) { withBuffers [[true], [], [], []] with arg := 1 } = .next t ∧
      t.status.err = false ∧ t.status.absent = true) ∧
    (∃ t, exec (.bbBitat 0) { withBuffers [[true], [], [], []] with arg := 0 } = .next t ∧
      t.status.err = false ∧ t.status.absent = false) ∧
    (∃ t, exec (.hufCode 0 0x42) (withBlock [0x41]) = .next t ∧ t.status.err = false ∧ t.status.absent = true) ∧
    (∃ t, exec (.bbBitat 4) State.reset = .next t ∧ t.status.err = true) :=
  ⟨exists_next _ (by decide), exists_next _ (by decide), exists_next _ (by decide), exists_next _ (by decide)⟩

theorem witness_OnlyTheDestinationBitBufferChanges :
    ∃ t, exec (.bbSingle 3 true) State.reset = .next t ∧ t.bb[3]? ≠ State.reset.bb[3]? := exists_next _ (by decide)

theorem witness_OtherCommandsLeaveOut :
    (∃ t, exec (.bbClear 0) { State.reset with outMem := [(0, 1)], outLen := 1 } = .next t ∧ t.status.err = false) ∧
    (∀ r, Instr.bbClear 0 ≠ .bbStore r) ∧
    Instr.bbClear 0 ∉ [.hufEnc, .hufDec, .hufFreq, .lzwEnc, .lzwDec, .lzwCodes, .lzwPack, .lzwUnpack, .lzwExpand] :=
  ⟨exists_next _ (by decide), fun _ => nofun, by decide⟩

theorem witness_NopClearAndSingleComplete : (3 : RegIx).toNat < State.reset.params.nbb := by decide

/-- |a| + |b| = BB_CAP_BITS for n = 255, and one more for n = 256. -/
theorem witness_AppendConcatenatesOrFails (n : Nat) :
    let s := smallBuffers [List.replicate n true, [false], [], []]
    (0 : RegIx).toNat < s.params.nbb ∧ (1 : RegIx).toNat < s.params.nbb ∧
    (n = 255 → (s.bb.getD 0 []).length + (s.bb.getD 1 []).length ≤ s.params.bbCapBits) ∧
    (n = 256 → s.params.bbCapBits < (s.bb.getD 0 []).length + (s.bb.getD 1 []).length) := by
  refine ⟨by simp [smallBuffers, small, smallParams, Params.reference], by simp [smallBuffers, small, smallParams,
    Params.reference], fun h => ?_, fun h => ?_⟩ <;>
  · simp only [smallBuffers, small, smallParams, List.getD_cons_zero, List.getD_cons_succ, List.length_replicate,
      List.length_cons, List.length_nil]
    omega

theorem witness_BitAtReadsOneBitOrIsAbsent :
    let s := { withBuffers [[], [], [], [true, false]] with arg := 1 }
    (3 : RegIx).toNat < s.params.nbb ∧ s.arg.toNat < (s.bb.getD 3 []).length ∧
    (s.bb.getD 3 []).length ≤ { s with arg := 2 }.arg.toNat := by decide

theorem witness_EqIsStructuralEquality : (0 : RegIx).toNat < State.reset.params.nbb ∧
    (3 : RegIx).toNat < State.reset.params.nbb := by decide

theorem witness_StorageFormIsMostSignificantFirst :
    (wordsOfBits (List.replicate 64 false ++ [true]))[1]? = some 0x8000000000000000 ∧ 63 < 64 := by decide

/-- 16 bytes fill OUT; 65 bits need 24. -/
theorem witness_StoreWritesCountAndWords :
    let s := smallBuffers [List.replicate 64 true, List.replicate 65 true, [], []]
    (1 : RegIx).toNat < s.params.nbb ∧
    8 * (1 + ((s.bb.getD 0 []).length + 63) / 64) ≤ s.params.outCap ∧
    s.params.outCap < 8 * (1 + ((s.bb.getD 1 []).length + 63) / 64) := by decide

/-- No words; a word too few; 257 bits of 256; 256 bits. -/
theorem witness_LoadReadsBackTheBits :
    (3 : RegIx).toNat < smallParams.nbb ∧
    (∀ ws ∈ [[], [1], [257, 0, 0, 0, 0, 0], [256, 1, 2, 3, 4]],
      (smallWords ws).inLen.toNat ≤ (smallWords ws).params.inCap ∧ (smallWords ws).inLen.toNat % 8 = 0 ∧
      (smallWords ws).inBlock = some (bytesOfWords ws) ∧ wordsOfBytes (bytesOfWords ws) = ws) ∧
    ([] : List Word).length ≠ ((1 : Word).toNat + 63) / 64 ∧
    ([0, 0, 0, 0, 0] : List Word).length = ((257 : Word).toNat + 63) / 64 ∧ smallParams.bbCapBits < (257 : Word).toNat ∧
    ([1, 2, 3, 4] : List Word).length = ((256 : Word).toNat + 63) / 64 ∧ (256 : Word).toNat ≤ smallParams.bbCapBits := by
  decide

/-- A state other than reset that meets the invariant. -/
theorem witness_inv_buffers : (withBuffers [[true], [], [], []]).Inv where
  params_valid := by decide
  bb_count := rfl
  bb_cap := by decide
  in_wf := List.Pairwise.nil
  in_bound := by simp [Memory.below, withBuffers, State.reset, State.resetWith]
  out_wf := List.Pairwise.nil
  out_bound := by simp [Memory.below, withBuffers, State.reset, State.resetWith]
  outLen_le := by decide
  out_defined := by decide
  err_iff := by decide
  errcode_le := by decide
  err_not_absent := by decide
  busy_iff := rfl
  current_cmd := nofun
  busy_flags := nofun

theorem witness_LoadInvertsStore : (withBuffers [[true], [], [], []]).Inv ∧
    (0 : RegIx).toNat < (withBuffers [[true], [], [], []]).params.nbb ∧
    8 * (1 + ([true].length + 63) / 64) ≤ State.reset.params.outCap ∧
    8 * (1 + ([true].length + 63) / 64) ≤ State.reset.params.inCap := ⟨witness_inv_buffers, by decide, by decide, by decide⟩

theorem witness_FrequencyTableReadsBack : 2 ^ 56 - 1 < 2 ^ 56 ∧ ([0x41] : List Byte).length < 2 ^ 56 ∧
    List.Perm ([(0x80, 1), (0x01, 2)] : List Entry) [(0x01, 2), (0x80, 1)] ∧
    (([(0x80, 1), (0x01, 2)] : List Entry).map (·.1)).Nodup := by decide

theorem witness_InsertGoesAfterEqualPriorities :
    ([(1, .leaf 0x41), (1, .leaf 0x42), (2, .leaf 0x43)] : PriorityList).Pairwise (fun a b => a.1 ≤ b.1) ∧
    ([(1, .leaf 0x41), (1, .leaf 0x42)] : PriorityList).length ≤ 1 + 1 := by decide

/-- One entry and two. -/
theorem witness_CodesArePrefixFree :
    (([(0x41, 1), (0x42, 1)] : List Entry).map (·.1)).Nodup ∧
    buildTree [(0x41, 1), (0x42, 1)] = some (.node (.leaf 0x42) (.leaf 0x41)) ∧
    (([(0x41, 1)] : List Entry).map (·.1)).Nodup ∧ buildTree [(0x41, 1)] = some (.leaf 0x41) ∧
    (0x41 : Byte) ≠ 0x42 ∧ Machine.Tree.occurs 0x42 (.leaf 0x42) = true ∧ Machine.Tree.occurs 0x41 (.leaf 0x42) = false ∧
    Machine.Tree.occurs 0x41 (.leaf 0x41) = true := by decide

theorem witness_HuffmanRoundTrip : ([] : List Byte).length ≤ 0 ∧ ([0x41, 0x42] : List Byte).length ≤ 2 ∧
    ([0x41, 0x42] : List Byte).length < 2 ^ 56 := by decide

theorem witness_SpecialHuffmanEncodings : 1 ≤ 1 := by decide

/-- HUF.ENC of the empty block fills OUT, of one byte it does not fit; HUF.FREQ of one byte fills it, of two it does
not fit. -/
theorem witness_HufEncAndFreqWriteTheirWords :
    ∀ block ∈ [[], [0x41], [0x41, 0x42]],
      (small block).inLen.toNat ≤ (small block).params.inCap ∧ (small block).inBlock = some block := by decide

theorem witness_HufEncAndFreqWriteTheirWords_sizes :
    8 * (hufEncode []).length ≤ smallParams.outCap ∧ smallParams.outCap < 8 * (hufEncode [0x41]).length ∧
    8 * (freqTable (freqPass [0x41])).length ≤ smallParams.outCap ∧
    smallParams.outCap < 8 * (freqTable (freqPass [0x41, 0x42])).length := by decide

theorem witness_inv_block : (withBlock [0x41, 0x42]).Inv where
  params_valid := by decide
  bb_count := rfl
  bb_cap := by decide
  in_wf := by decide
  in_bound := by unfold Memory.below; decide
  out_wf := List.Pairwise.nil
  out_bound := by simp [Memory.below, withBlock, State.reset, State.resetWith]
  outLen_le := by decide
  out_defined := by decide
  err_iff := by decide
  errcode_le := by decide
  err_not_absent := by decide
  busy_iff := rfl
  current_cmd := nofun
  busy_flags := nofun

theorem witness_HufDecInvertsHufEnc : (withBlock [0x41, 0x42]).Inv ∧
    (withBlock [0x41, 0x42]).inLen.toNat ≤ (withBlock [0x41, 0x42]).params.inCap ∧
    (withBlock [0x41, 0x42]).inBlock = some [0x41, 0x42] ∧ (withBlock [0x41, 0x42]).status.err = false ∧
    (∃ t, exec .hufEnc (withBlock [0x41, 0x42]) = .next t ∧ t.status.err = false ∧ t.outLen.toNat ≤ 2 ^ 20) ∧
    ([0x41, 0x42] : List Byte).length ≤ (withBlock [0x41, 0x42]).params.outCap :=
  ⟨witness_inv_block, by decide, by decide, rfl, exists_next _ (by decide), by decide⟩

theorem witness_HufCodeWritesTheCodeOrIsAbsent : (3 : RegIx).toNat < (withBlock [0x41]).params.nbb ∧
    (withBlock [0x41]).inLen.toNat ≤ (withBlock [0x41]).params.inCap ∧ (withBlock [0x41]).inBlock = some [0x41] ∧
    (0x41 : Byte) ∈ ([0x41] : List Byte) ∧ (0x42 : Byte) ∉ ([0x41] : List Byte) := by decide

/-- The bound is met: code 256 at index 1; and an entry of the dictionary begins the rest of the block. -/
theorem witness_ScanCodesAreBounded : (lzwScan [0x61, 0x61, 0x61])[1]? = some 256 ∧
    dictString [[0x61], [0x61, 0x61]] (256 + 0) <+: (([[0x61], [0x61, 0x61]] : List (List Byte)).drop 1).flatten := by
  decide

theorem witness_StrideIsTheLargestThatFits :
    [0, 126, 127, 32766, 32767, 2147483646, 2147483647].map chooseStride = [8, 8, 4, 4, 2, 2, 1] := by
  simp [chooseStride]

theorem witness_UnpackInvertsPack :
    (∀ x ∈ ([0, 0x7FFFFFFFFFFFFFFF] : List Word), x.getLsbD 63 = false) ∧
    ([0, 0x7FFFFFFFFFFFFFFF] : List Word).length < 2 ^ 64 := by simp

theorem witness_UnpackSignExtendsSlots : ∀ st ∈ [1, 2, 4, 8], 0 < st ∧ st - 1 < st := by decide

theorem witness_LzwRoundTrip : ([] : List Byte).length ≤ 0 ∧ ([0x61] : List Byte).length ≤ 1 ∧
    ([0x61] : List Byte).length < 2 ^ 56 := by decide

/-- LZW.CODES: two codes fill OUT, three do not fit. LZW.ENC: nothing fits, one byte's three words do not. -/
theorem witness_LzwEncAndCodesWriteTheirWords : smallParams.inRange ∧
    (∀ block ∈ [[], [0x61], [0x61, 0x62], [0x61, 0x62, 0x63]],
      (small block).inLen.toNat ≤ (small block).params.inCap ∧ (small block).inBlock = some block) ∧
    8 * (lzwScan [0x61, 0x62]).length ≤ smallParams.outCap ∧
    smallParams.outCap < 8 * (lzwScan [0x61, 0x62, 0x63]).length ∧
    smallParams.outCap < 8 * (2 + (packWords 8 (scanWords [0x61])).length) := by decide

/-- LZW.UNPACK: two values fill OUT, three do not fit, one word is an error; LZW.PACK: nothing fits, one value's three
words do not, a negative value is an error. -/
theorem witness_LzwPackAndUnpackWriteTheirWords :
    (∀ ws ∈ [[], [1], [8, 2, 0x0102000000000000], [8, 3, 0x0102030000000000]],
      (smallWords ws).inLen.toNat ≤ (smallWords ws).params.inCap ∧ (smallWords ws).inLen.toNat % 8 = 0 ∧
      (smallWords ws).inBlock = some (bytesOfWords ws) ∧ wordsOfBytes (bytesOfWords ws) = ws) ∧
    lzwUnpack [8, 2, 0x0102000000000000] = .ok [1, 2] ∧ lzwUnpack [8, 3, 0x0102030000000000] = .ok [1, 2, 3] ∧
    (3 : Word).toNat ∉ [1, 2, 4, 8] ∧ (1 : Nat) ≠ ((9 : Word).toNat + 8 - 1) / 8 ∧
    lzwUnpack [1] = .error .malformedStream ∧ lzwPack [] = .ok [] ∧
    lzwPack [1] = .ok [8, 1, 0x0100000000000000] ∧ lzwPack [0x8000000000000000] = .error .badOperand := by
  refine ⟨by decide, ?_⟩; decide

theorem witness_DecodersWriteTheirBytes : smallParams.inRange ∧
    (∀ ws ∈ [[], [0, 0], [97, 256], [97, 257]],
      (smallWords ws).inLen.toNat ≤ (smallWords ws).params.inCap ∧ (smallWords ws).inLen.toNat % 8 = 0 ∧
      (smallWords ws).inBlock = some (bytesOfWords ws) ∧ wordsOfBytes (bytesOfWords ws) = ws) ∧
    hufDecode 16 [0, 0] = .ok [] ∧ hufDecode 16 [] = .error .malformedStream ∧
    lzwExpand 16 [97, 256] = .ok [97, 97, 97] ∧ lzwExpand 16 [97, 257] = .error .malformedStream ∧
    hufDecode 16 [1, 0x4100000000000010, 0] = .ok (List.replicate 16 0x41) ∧
    hufDecode 16 [1, 0x4100000000000011, 0] = .error .capacity := by
  refine ⟨by decide, by decide, ?_⟩; decide

/-- A stream of the form, with one entry, with two, with none; and one that is not. -/
theorem witness_DecodersWriteTheirBytes_huffman :
    HuffmanForm [1, 0x4100000000000010, 0] [0x4100000000000010] 0 [] ∧
    HuffmanForm [2, 0x4100000000000001, 0x8000000000000001, 2, 0x4000000000000000]
      [0x4100000000000001, 0x8000000000000001] 2 [0x4000000000000000] ∧
    HuffmanForm [0, 0] [] 0 [] ∧ ¬ ∃ T nb body, HuffmanForm [] T nb body :=
  ⟨by simp [HuffmanForm], by simp [HuffmanForm], by simp [HuffmanForm],
    fun ⟨_, _, _, h, _⟩ => by simp at h⟩

/-- The tree of two entries: its bits "01" are one byte of each; with a bound of 1 the second byte is one too many; and of
three entries the bit 0 after no byte begins no code (V82 cuts a code short). -/
theorem witness_DecodersWriteTheirBytes_bits :
    let E : List Entry := [(0x80, 1), (0x41, 1)]
    let F : List Entry := [(0x41, 1), (0x42, 1), (0x43, 2)]
    E.Perm (([0x4100000000000001, 0x8000000000000001] : List Word).map fun x =>
      (x.extractLsb' 56 8, (x.extractLsb' 0 56).toNat)) ∧
    E.Pairwise (fun x y => x.1.toInt < y.1.toInt) ∧
    buildTree E = some (.node (.leaf 0x41) (.leaf 0x80)) ∧
    ([0x41, 0x80] : List Byte).flatMap (fun x => Machine.Tree.code x (.node (.leaf 0x41) (.leaf 0x80))) = [false, true] ∧
    buildTree F = some (.node (.node (.leaf 0x42) (.leaf 0x41)) (.leaf 0x43)) ∧
    ∀ x ∈ F.map (·.1), ¬ Machine.Tree.code x (.node (.node (.leaf 0x42) (.leaf 0x41)) (.leaf 0x43)) <+: [false] := by
  decide

/-- The self-referential code 256 at index 1; the next code may be at most 257. -/
theorem witness_DecodersWriteTheirBytes_codes :
    CodesStandFor (([97, 256] : List Word).map (·.toInt)) [[97], [97, 97]] ∧
    255 + ([97, 256] : List Word).length < (258 : Word).toInt ∧
    ([[97], [97, 97]] : List (List Byte)).flatten.length = 3 :=
  ⟨(codesStandFor_iff _ _).2 (by decide), by decide, by decide⟩

theorem witness_ResetSetsEveryRegister : (busyWith .reset).turns = [.reset] := rfl

theorem witness_EveryStepKeepsTheInvariant : (withBuffers [[true], [], [], []]).Inv ∧
    ∃ t, step (withBuffers [[true], [], [], []]) = .next t := ⟨witness_inv_buffers, _, rfl⟩

/-! ### The host's own work -/

/-- R130: of 11 bytes of output two words are copied, the second of them only in part below OUT_LEN. -/
theorem test_copy_rounds_up : (after (HostStmt.copyOutToIn.run
    { State.reset with outMem := Memory.ofBytes 0 (List.replicate 11 0x61), outLen := 11 })).map
      (fun s => (s.inLen, s.inMem.take 8, s.inMem.map (·.1))) =
    some (11, Memory.ofBytes 0 (List.replicate 8 0x61), List.range 16) := by decide

/-- R320: a chunk larger than IN_CAP ends the pass with BAD_LENGTH. -/
theorem test_compress_large_chunk :
    (match (compressPass .huffman 65 (List.replicate 65 0x61) (small [])).ended with
      | .error (.commandError e) => some e
      | _ => none) = some 3 := by decide

/-- P5: both interleavings of two CMD writes and the engine. -/
theorem test_lost_interleavings :
    statusAfter (runHost [.wr .cmd 0, .wr .cmd 0, .engine] State.reset) = some 0x12 ∧
    statusAfter (runHost [.wr .cmd 0, .engine, .wr .cmd 0, .engine] State.reset) = some 0x02 := by decide

end Sys2Proof.Tests
end

section
/-! The register window at the level of a step (10_state.md R30, R32, R35, R43, R44): what an aligned 64-bit
read or write of an offset of the window does, said once. -/

namespace Sys2Proof.Machine

/-- An offset below the window's size reaches that offset of the register window, whatever the other windows are. -/
theorem windowAt_regs (p : Params) {off : Nat} (h : off < regWindowSize) :
    windowAt p (p.regBase + off) = some (.regs, off) := by
  simp [windowAt, h]

theorem admitted_regs {off : Nat} (h : off % 8 = 0) : admitted .regs off 64 = true := by
  simp [admitted, h]

/-- The offsets from 0x58 on are the reserved ones (R30, R44). -/
theorem HostReg.atOffset_reserved {off : Nat} (h : 0x58 ≤ off) : HostReg.atOffset off = .reserved := by
  unfold HostReg.atOffset
  iterate 11 rw [if_neg (by omega)]

section
variable {s : State} {off : Nat} {v : Word} {rest : List Turn}

/-- An aligned 64-bit read in the register window returns the register's value and counts one draw. -/
theorem step_readReg (ho : off < regWindowSize) (ha : off % 8 = 0)
    (h : s.turns = .access (.read (s.params.regBase + off) 64) :: rest) :
    step s = .next { s with
      turns := rest, reads := s.readReg (HostReg.atOffset off) :: s.reads, draws := s.draws + 1 } := by
  simp only [step, h, takeTurn, hostAccess, windowAt_regs s.params ho, admitted_regs ha, if_true]
  rfl

/-- An aligned 64-bit write in the register window writes the register. -/
theorem step_writeReg (ho : off < regWindowSize) (ha : off % 8 = 0)
    (h : s.turns = .access (.write (s.params.regBase + off) 64 v) :: rest) :
    step s = State.writeReg { s with turns := rest } v (HostReg.atOffset off) := by
  simp only [step, h, takeTurn, hostAccess, windowAt_regs s.params ho, admitted_regs ha, if_true]
  rfl

theorem step_reset (h : s.turns = .reset :: rest) :
    step s = .next (State.platformReset { s with turns := rest }) := by
  simp only [step, h, takeTurn]

end

/-- Settles O9: CMD is at offset 0, and a write to it while BUSY only marks LOST. -/
theorem cmdWriteWhileBusyIsDropped : Obligations.CmdWriteWhileBusyIsDropped := by
  intro s c rest hbusy hturns
  rw [step_writeReg (off := 0) (by decide) rfl hturns]
  exact if_pos hbusy

/-- A STATUS write clears DONE and LOST where the written bits are 1 (R35). -/
theorem Status.hostWrite_eq (v : Word) (st : Status) :
    st.hostWrite v = { st with
      done := if v.getLsbD 1 = true then false else st.done
      lost := if v.getLsbD 4 = true then false else st.lost } := by
  unfold Status.hostWrite
  cases v.getLsbD 1 <;> cases v.getLsbD 4 <;> simp

/-- Settles O10: a write at STATUS's offset is `Status.hostWrite`. -/
theorem statusWriteClearsDoneAndLost : Obligations.StatusWriteClearsDoneAndLost := by
  intro s v rest hturns
  rw [step_writeReg (by decide) rfl hturns, ← Status.hostWrite_eq]
  rfl

/-- Settles O12: each of the four offsets names its constant, and reset keeps the parameters. -/
theorem capabilityRegistersAreConstants : Obligations.CapabilityRegistersAreConstants := by
  intro s off n v rest hmem
  simp only [List.mem_cons, Prod.mk.injEq, List.not_mem_nil, or_false] at hmem
  have hreset : s.turns = .reset :: rest → ∃ t, step s = .next t ∧ t.params = s.params :=
    fun h => ⟨_, step_reset h, rfl⟩
  obtain ⟨rfl, rfl⟩ | ⟨rfl, rfl⟩ | ⟨rfl, rfl⟩ | ⟨rfl, rfl⟩ := hmem <;>
    exact ⟨step_readReg (by decide) rfl, step_writeReg (by decide) rfl, hreset⟩

/-- Settles O13: every aligned offset from 0x58 on is in the window and reserved. -/
theorem reservedOffsetsReadZero : Obligations.ReservedOffsetsReadZero := by
  intro s off v rest hlo hhi haligned
  have hwin : off < regWindowSize := Nat.lt_of_le_of_lt hhi (by decide)
  have hres := HostReg.atOffset_reserved hlo
  constructor
  · intro hturns
    rw [step_readReg hwin haligned hturns, hres]
    rfl
  · intro hturns
    rw [step_writeReg hwin haligned hturns, hres]
    rfl

end Sys2Proof.Machine
end

section
/-! The storage form of a bit sequence (10_state.md R41, R42): its bits one by one, and that it determines the
sequence when the bit count is known. -/

namespace Sys2Proof.Machine

/-- The one bit of a slot of width 1. -/
theorem getLsbD_bitWord_mask (b : Bool) (k : Nat) :
    (bitWord b &&& mask 1).getLsbD k = (decide (k = 0) && b) := by
  cases b <;> cases k <;> simp [bitWord, mask]

/-- The bit put in slot t stands at bit 63 - t, and nowhere else. -/
theorem getLsbD_bit_in_slot (b : Bool) {t p : Nat} (ht : t < 64) (hp : p < 64) :
    ((bitWord b &&& mask 1) <<< (64 - (t + 1) * 1)).getLsbD (63 - p) = (decide (p = t) && b) := by
  rw [BitVec.getLsbD_shiftLeft, getLsbD_bitWord_mask, ← Bool.and_assoc]
  congr 1
  rw [Bool.eq_iff_iff]
  simp only [Bool.and_eq_true, Bool.not_eq_true', decide_eq_true_eq, decide_eq_false_iff_not]
  omega

/-- Bits packed from slot t on: bit 63 - p is the bit of slot p, and 0 before slot t and past the last bit. -/
theorem getLsbD_packSlots_bits (bs : BitSeq) {t p : Nat} (ht : t + bs.length ≤ 64) (hp : p < 64) :
    (packSlots 1 t (bs.map bitWord)).getLsbD (63 - p) = (decide (t ≤ p) && bs.getD (p - t) false) := by
  induction bs generalizing t with
  | nil => simp [packSlots]
  | cons b bs ih =>
    simp only [List.length_cons] at ht
    rw [List.map_cons, packSlots, BitVec.getLsbD_or, getLsbD_bit_in_slot b (by omega) hp, ih (by omega)]
    rcases Nat.lt_trichotomy p t with h | rfl | h
    · simp [h.ne, show ¬ t + 1 ≤ p by omega, show ¬ t ≤ p by omega]
    · simp
    · obtain ⟨k, rfl⟩ := Nat.exists_eq_add_of_lt h
      simp [h.ne', show t + k + 1 - t = k + 1 by omega, show t + k + 1 - (t + 1) = k by omega,
        show t ≤ t + k + 1 by omega]

/-- Settles O37: word k packs the bits from 64k on. -/
theorem storageFormIsMostSignificantFirst : Obligations.StorageFormIsMostSignificantFirst := by
  refine fun b => ⟨length_wordsOfBits b, fun k p w hw hp => ?_⟩
  obtain ⟨_, rfl⟩ := List.getElem?_eq_some_iff.1 hw
  simp only [wordsOfBits, List.getElem_map, List.getElem_range]
  rw [getLsbD_packSlots_bits _ (by simp) hp]
  simp [List.getD_eq_getElem?_getD, hp]

/-- Bit i of a sequence is a bit of word i / 64 of its storage form. -/
theorem exists_word_of_bit {b : BitSeq} {i : Nat} (hi : i < b.length) :
    ∃ w, (wordsOfBits b)[i / 64]? = some w ∧ w.getLsbD (63 - i % 64) = b.getD i false := by
  obtain ⟨hlen, hbit⟩ := storageFormIsMostSignificantFirst b
  have hk : i / 64 < (wordsOfBits b).length := by omega
  refine ⟨_, List.getElem?_eq_getElem hk, ?_⟩
  rw [hbit _ _ _ (List.getElem?_eq_getElem hk) (Nat.mod_lt _ (by decide)), Nat.div_add_mod]

/-- The storage form and the bit count determine the bits (R42). -/
theorem wordsOfBits_inj {a b : BitSeq} (hlen : a.length = b.length) (hw : wordsOfBits a = wordsOfBits b) :
    a = b := by
  refine List.ext_getElem hlen fun i ha hb => ?_
  obtain ⟨v, hv, hva⟩ := exists_word_of_bit ha
  obtain ⟨w, hw', hwb⟩ := exists_word_of_bit hb
  have hvw : v = w := Option.some.inj (by rw [← hv, hw, hw'])
  rw [hvw, hwb, List.getD_eq_getElem _ _ ha, List.getD_eq_getElem _ _ hb] at hva
  exact hva.symm

theorem structural_eq_iff (a b : BitSeq) : (a.length = b.length ∧ wordsOfBits a = wordsOfBits b) ↔ a = b :=
  ⟨fun ⟨hlen, hw⟩ => wordsOfBits_inj hlen hw, fun h => h ▸ ⟨rfl, rfl⟩⟩

/-- BB.EQ over existing registers answers their equality and completes (R156). -/
theorem exec_bbEq {s : State} {rs1 rs2 : RegIx} (h1 : rs1.toNat < s.params.nbb) (h2 : rs2.toNat < s.params.nbb) :
    exec (.bbEq rs1 rs2) s =
      .next (s.setResult (bitWord (decide (s.bitBuffer rs1 = s.bitBuffer rs2)))).completed :=
  commonChecks_pass (by simp [Instr.wellFormed, Instr.registers, h1, h2]) rfl

/-- Settles O36: the storage form with the bit count is injective, so BB.EQ's answer is structural equality. -/
theorem eqIsStructuralEquality : Obligations.EqIsStructuralEquality := by
  refine ⟨fun a b => and_comm.trans (structural_eq_iff a b), fun s rs1 rs2 h1 h2 => ?_⟩
  simp only [exec_bbEq h1 h2, structural_eq_iff]
  simp [bitWord, State.bitBuffer, State.setResult, State.completed, Status.completed]

end Sys2Proof.Machine
end

section
/-! Which symbols have a code (41_huffman.md R207, R208, R231): the frequency pass lists exactly the bytes of the
block, and building the tree loses no leaf and adds none. -/

namespace Sys2Proof.Machine

/-- Every byte is among the 256 in signed order. -/
theorem mem_signedBytes (x : Byte) : x ∈ signedBytes := by
  refine List.mem_map.2 ⟨(x.toNat + 128) % 256, List.mem_range.2 (by omega), ?_⟩
  apply BitVec.eq_of_toNat_eq
  simp only [BitVec.toNat_ofNat]
  omega

/-- The frequency pass lists exactly the bytes that occur in the block (R207). -/
theorem mem_map_fst_freqPass {block : List Byte} {x : Byte} : x ∈ (freqPass block).map (·.1) ↔ x ∈ block := by
  simp [freqPass, mem_signedBytes, Nat.one_le_iff_ne_zero, ← Nat.pos_iff_ne_zero, List.count_pos_iff]

/-- Insertion adds one element and moves none away. -/
theorem PriorityList.insertAt_perm (L : PriorityList) (p : Nat) (x : Tree) :
    (L.insertAt p x).Perm ((p, x) :: L) := by
  induction L with
  | nil => exact .refl _
  | cons e L ih =>
    unfold PriorityList.insertAt
    split
    · exact (ih.cons e).trans (.swap _ _ _)
    · exact .refl _

/-- The initial list is the table's leaves, reordered. -/
theorem initialList_perm (E : List Entry) : (initialList E).Perm (E.map fun e => (e.2, Tree.leaf e.1)) := by
  suffices h : ∀ L : PriorityList, (E.foldl (fun L e => PriorityList.insertAt L e.2 (.leaf e.1)) L).Perm
      (E.map (fun e => (e.2, Tree.leaf e.1)) ++ L) by
    simpa [initialList] using h []
  induction E with
  | nil => exact fun L => .refl _
  | cons e E ih =>
    intro L
    exact (ih _).trans (((PriorityList.insertAt_perm L _ _).append_left _).trans List.perm_middle)

/-- A byte occurs in some tree of a priority list. -/
def PriorityList.Occurs (L : PriorityList) (x : Byte) : Prop := ∃ e ∈ L, e.2.occurs x = true

theorem PriorityList.Occurs.congr {L M : PriorityList} (h : L.Perm M) (x : Byte) : L.Occurs x ↔ M.Occurs x := by
  simp only [PriorityList.Occurs, h.mem_iff]

/-- One round of the merge keeps which bytes occur. -/
theorem PriorityList.occurs_insertAt_node (L : PriorityList) (p q : Nat) (a b : Tree) (x : Byte) :
    (L.insertAt (p + q) (.node b a)).Occurs x ↔ PriorityList.Occurs ((p, a) :: (q, b) :: L) x := by
  rw [PriorityList.Occurs.congr (PriorityList.insertAt_perm ..)]
  simp [PriorityList.Occurs, Tree.occurs, or_assoc, or_left_comm]

/-- With fuel enough the loop merges a nonempty list into one tree, in which exactly the list's bytes occur. -/
theorem mergeLoop_occurs {n : Nat} {L : PriorityList} (hne : L ≠ []) (hn : L.length ≤ n + 1) :
    ∃ t, mergeLoop n L = some t ∧ ∀ x, t.occurs x = true ↔ L.Occurs x := by
  induction n generalizing L with
  | zero =>
    match L, hne, hn with
    | [(p, t)], _, _ => exact ⟨t, rfl, fun x => by simp [PriorityList.Occurs]⟩
  | succ n ih =>
    match L, hne, hn with
    | [(p, t)], _, _ => exact ⟨t, rfl, fun x => by simp [PriorityList.Occurs]⟩
    | (p, a) :: (q, b) :: L, _, hn =>
      have hlen := (PriorityList.insertAt_perm L (p + q) (.node b a)).length_eq
      simp only [List.length_cons] at hlen hn
      obtain ⟨t, ht, hocc⟩ := ih (L := PriorityList.insertAt L (p + q) (.node b a))
        (List.ne_nil_of_length_eq_add_one hlen) (by omega)
      exact ⟨t, ht, fun x => (hocc x).trans (PriorityList.occurs_insertAt_node L p q a b x)⟩

/-- A nonempty table has a tree, whose leaves are the table's bytes (R208). -/
theorem buildTree_occurs {E : List Entry} (hne : E ≠ []) :
    ∃ t, buildTree E = some t ∧ ∀ x, t.occurs x = true ↔ x ∈ E.map (·.1) := by
  have hperm := initialList_perm E
  have hlen : (initialList E).length = E.length := by simpa using hperm.length_eq
  have hnil : initialList E ≠ [] := fun h => hne (List.length_eq_zero_iff.1 (by simp [← hlen, h]))
  obtain ⟨t, ht, hocc⟩ := mergeLoop_occurs (n := E.length) hnil (by omega)
  refine ⟨t, ht, fun x => (hocc x).trans ((PriorityList.Occurs.congr hperm x).trans ?_)⟩
  simp [PriorityList.Occurs, Tree.occurs]

/-- A symbol has no code exactly when it is not in the block (R231). -/
theorem symbolCode_eq_none_iff {block : List Byte} {sym : Byte} : symbolCode block sym = none ↔ sym ∉ block := by
  rw [← mem_map_fst_freqPass]
  unfold symbolCode
  by_cases hE : freqPass block = []
  · simp [hE, buildTree, initialList, mergeLoop]
  · obtain ⟨t, ht, hocc⟩ := buildTree_occurs hE
    simp [ht, ← hocc sym]

end Sys2Proof.Machine
end

section
/-! ABSENT (10_state.md R46): which completions set it. -/

namespace Sys2Proof.Machine

section
variable {i : Instr} {s t u : State}

theorem CommandEffect.status_err (h : CommandEffect i s u) : u.status.err = s.status.err := by
  cases h <;> rfl

/-- An effect that sets ABSENT is one of the two absent answers. -/
theorem CommandEffect.absent_answer (h : CommandEffect i s u) (hs : s.status.absent = false)
    (hu : u.status.absent = true) :
    (∃ r, i = .bbBitat r ∧ (s.bitBuffer r).length ≤ s.arg.toNat) ∨
    (∃ r sym block, i = .hufCode r sym ∧ s.inBlock = some block ∧ sym ∉ block) := by
  cases h with
  | absentBit r hi harg => exact .inl ⟨r, hi, harg⟩
  | absentSymbol rd sym block hi hb hcode => exact .inr ⟨rd, sym, block, hi, hb, symbolCode_eq_none_iff.1 hcode⟩
  | nothing | buffer | result | stored => simp [hs] at hu

/-- BB.BITAT past the end of the register sets ABSENT unless it fails (R155). -/
theorem exec_bbBitat_absent {r : RegIx} (h : exec (.bbBitat r) s = .next t)
    (hr : (s.bitBuffer r).length ≤ s.arg.toNat) (ht : t.status.err = false) : t.status.absent = true := by
  change commonChecks _ _ _ = _ at h
  rw [List.getElem?_eq_none hr] at h
  rcases commonChecks_cases (.bbBitat r) s (complete (s.setResult 0).markAbsent) with
    ⟨-, e⟩ | ⟨-, -, e⟩ | ⟨-, -, e⟩ <;> cases e.symm.trans h <;> simp at ht ⊢

/-- HUF.CODE of a symbol that is not in the block sets ABSENT unless it fails (R231). -/
theorem exec_hufCode_absent {r : RegIx} {sym : Byte} {block : List Byte} (h : exec (.hufCode r sym) s = .next t)
    (hb : s.inBlock = some block) (hsym : sym ∉ block) (ht : t.status.err = false) : t.status.absent = true := by
  change commonChecks _ _ _ = _ at h
  rw [withInBytes_some hb, symbolCode_eq_none_iff.2 hsym] at h
  rcases commonChecks_cases (.hufCode r sym) s (complete s.markAbsent) with
    ⟨-, e⟩ | ⟨-, -, e⟩ | ⟨-, -, e⟩ <;> cases e.symm.trans h <;> simp at ht ⊢

/-- A command that ends fails, with ABSENT 0 (R335), or completes one of the effects. -/
theorem exec_failed_or_completed (h : exec i s = .next t) :
    (t.status.err = true ∧ t.status.absent = false) ∨ ∃ u, CommandEffect i s u ∧ t = u.completed := by
  have hend := exec_end i s
  rw [h] at hend
  cases hend with
  | failed e => exact .inl ⟨rfl, rfl⟩
  | completed u hu => exact .inr ⟨u, hu, rfl⟩

end

/-- A word that does not decode ends with ILLEGAL_COMMAND. -/
theorem runWord_error {c : Word} {d : DecodeError} (s : State) (h : decode c = .error d) :
    runWord c s = .next (s.failed false .illegalCommand) := by
  simp only [runWord, h]
  rfl

/-- Settles O30: an effect sets ABSENT only as one of the two answers, and each answer sets it when it does not fail. -/
theorem absentIsSetExactlyByTwoCommands : Obligations.AbsentIsSetExactlyByTwoCommands := by
  refine ⟨fun i s t h herr habs => ?_, fun c s d hd => ⟨_, runWord_error s hd, rfl⟩, fun s c => rfl⟩
  rcases exec_failed_or_completed h with ⟨hterr, htabs⟩ | ⟨u, hu, rfl⟩
  · exact ⟨fun _ => htabs, fun h0 => (nomatch hterr.symm.trans h0)⟩
  · have huerr : u.completed.status.err = false := hu.status_err.trans herr
    refine ⟨fun h1 => (nomatch huerr.symm.trans h1), fun _ => ⟨hu.absent_answer habs, ?_⟩⟩
    rintro (⟨r, rfl, hr⟩ | ⟨r, sym, block, rfl, hb, hsym⟩)
    · exact exec_bbBitat_absent h hr huerr
    · exact exec_hufCode_absent h hb hsym huerr

end Sys2Proof.Machine
end

section
/-! The windows on the host bus (20_memory.md R80, R81, R88): which address reaches which window, and which accesses
are admitted there. -/

namespace Sys2Proof.Machine

/-- The bus address a window begins at (00_scope.md R8). -/
def Window.base (p : Params) : Window → Nat
  | .regs => p.regBase
  | .input => p.inBase
  | .output => p.outBase

/-- The size of a window in bytes (R81). -/
def Window.size (p : Params) : Window → Nat
  | .regs => regWindowSize
  | .input => p.inCap
  | .output => p.outCap

/-- Windows that do not overlap: an address reaches a window exactly when it lies in it, so the order in which
`windowAt` asks does not matter. -/
theorem windowAt_eq_some_iff {p : Params} (hp : p.windowsApart) {addr off : Nat} {w : Window} :
    windowAt p addr = some (w, off) ↔
      (w.base p ≤ addr ∧ addr < w.base p + w.size p) ∧ addr - w.base p = off := by
  obtain ⟨hri, hro, hio⟩ := hp
  unfold rangesApart at hri hro hio
  unfold windowAt
  constructor
  · intro h
    split_ifs at h with hr hi ho <;> cases h
    · exact ⟨hr, rfl⟩
    · exact ⟨hi, rfl⟩
    · exact ⟨ho, rfl⟩
  · rintro ⟨hw, rfl⟩
    cases w <;> simp only [Window.base, Window.size] at hw ⊢
    case regs => rw [if_pos hw]
    case input => rw [if_neg (by omega), if_pos hw]
    case output => rw [if_neg (by omega), if_neg (by omega), if_pos hw]

theorem admitted_iff {w : Window} {off width : Nat} :
    admitted w off width = true ↔ (width = 64 ∧ off % 8 = 0) ∨ (width = 8 ∧ w ≠ .regs) := by
  simp [admitted]

/-- The access reaches a window that admits its offset and width. -/
def AccessAdmitted (p : Params) (addr width : Nat) : Prop :=
  ∃ w off, windowAt p addr = some (w, off) ∧ admitted w off width = true

/-- The admitted accesses, window by window: R88's list. -/
theorem accessAdmitted_iff {p : Params} (hp : p.windowsApart) (addr width : Nat) :
    AccessAdmitted p addr width ↔
      ((p.regBase ≤ addr ∧ addr < p.regBase + regWindowSize) ∧ width = 64 ∧ (addr - p.regBase) % 8 = 0) ∨
      ((p.inBase ≤ addr ∧ addr < p.inBase + p.inCap) ∧
        (width = 8 ∨ (width = 64 ∧ (addr - p.inBase) % 8 = 0))) ∨
      ((p.outBase ≤ addr ∧ addr < p.outBase + p.outCap) ∧
        (width = 8 ∨ (width = 64 ∧ (addr - p.outBase) % 8 = 0))) := by
  simp only [AccessAdmitted, windowAt_eq_some_iff hp, admitted_iff]
  constructor
  · rintro ⟨w, _, ⟨hw, rfl⟩, ha⟩
    cases w with
    | regs => exact .inl ⟨hw, by simpa [Window.base] using ha⟩
    | input => exact .inr (.inl ⟨hw, by simpa [Window.base, or_comm] using ha⟩)
    | output => exact .inr (.inr ⟨hw, by simpa [Window.base, or_comm] using ha⟩)
  · rintro (⟨hw, ha⟩ | ⟨hw, ha⟩ | ⟨hw, ha⟩)
    · exact ⟨.regs, _, ⟨hw, rfl⟩, .inl ha⟩
    · exact ⟨.input, _, ⟨hw, rfl⟩, by simpa [Window.base, or_comm] using ha⟩
    · exact ⟨.output, _, ⟨hw, rfl⟩, by simpa [Window.base, or_comm] using ha⟩

/-- A register write ends in a next state, or it comes while BUSY to a register that shuts it out (R380). -/
theorem State.writeReg_cases (s : State) (v : Word) (r : HostReg) :
    (∃ t, s.writeReg v r = .next t) ∨
    (s.status.busy = true ∧ s.writeReg v r = .refused .inputWriteWhileBusy) := by
  cases r with
  | cmd | inLen | arg => cases hbusy : s.status.busy <;> simp [State.writeReg, hbusy]
  | status | ctrl | outLen | result | capIn | capOut | capBb | capNbb | reserved => exact .inl ⟨_, rfl⟩

/-- So does an admitted write to any window. -/
theorem State.writeWindow_cases (s : State) (w : Window) (off width : Nat) (v : Word) :
    (∃ t, s.writeWindow w off width v = .next t) ∨
    (s.status.busy = true ∧ s.writeWindow w off width v = .refused .inputWriteWhileBusy) := by
  cases w with
  | regs => exact s.writeReg_cases v _
  | input => cases hbusy : s.status.busy <;> simp [State.writeWindow, State.writeIn, hbusy]
  | output => exact .inl ⟨s, rfl⟩

/-- An admitted write is never refused as not admitted. -/
theorem State.writeWindow_ne_notAdmitted (s : State) (w : Window) (off width : Nat) (v : Word) :
    s.writeWindow w off width v ≠ .refused .accessNotAdmitted := by
  rcases s.writeWindow_cases w off width v with ⟨t, h⟩ | ⟨-, h⟩ <;> simp [h]

section
variable {s : State} {addr width : Nat} {v : Word} {rest : List Turn}

/-- A host's turn is its access. -/
theorem step_access {a : Access} (h : s.turns = .access a :: rest) :
    step s = hostAccess a { s with turns := rest } := by
  simp only [step, h, takeTurn]

theorem hostAccess_read_notAdmitted_iff :
    hostAccess (.read addr width) s = .refused .accessNotAdmitted ↔ ¬ AccessAdmitted s.params addr width := by
  rcases hw : windowAt s.params addr with _ | ⟨w, off⟩
  · simp [hostAccess, AccessAdmitted, hw]
  · cases ha : admitted w off width <;> simp [hostAccess, AccessAdmitted, hw, ha]

theorem hostAccess_write_notAdmitted_iff :
    hostAccess (.write addr width v) s = .refused .accessNotAdmitted ↔ ¬ AccessAdmitted s.params addr width := by
  rcases hw : windowAt s.params addr with _ | ⟨w, off⟩
  · simp [hostAccess, AccessAdmitted, hw]
  · cases ha : admitted w off width <;> simp [hostAccess, AccessAdmitted, hw, ha, State.writeWindow_ne_notAdmitted]

/-- An admitted write to OUT is ignored (R80). -/
theorem hostAccess_write_output {off : Nat} (hw : windowAt s.params addr = some (.output, off))
    (ha : AccessAdmitted s.params addr width) : hostAccess (.write addr width v) s = .next s := by
  obtain ⟨w', off', hw', had⟩ := ha
  cases hw.symm.trans hw'
  simp [hostAccess, hw, had, State.writeWindow]

end

/-- Settles O18: an access is refused as not admitted exactly when its window does not admit it, and the windows'
admitted accesses are R88's list. -/
theorem exactlyTheListedAccessesAreAdmitted : Obligations.ExactlyTheListedAccessesAreAdmitted := by
  intro s addr width v rest p wide inRegs inIn inOut hapart ok
  have hok : AccessAdmitted s.params addr width ↔ ok := accessAdmitted_iff hapart addr width
  refine ⟨fun hturns => ?_, fun hturns => ⟨?_, fun hout hadm => ?_⟩⟩
  · rw [step_access hturns, hostAccess_read_notAdmitted_iff, hok]
  · rw [step_access hturns, hostAccess_write_notAdmitted_iff, hok]
  · rw [step_access hturns]
    exact hostAccess_write_output ((windowAt_eq_some_iff hapart).2 ⟨hout, rfl⟩) (hok.2 hadm)

end Sys2Proof.Machine
end

section
/-! Little-endian assembly (20_memory.md R82): the value of a word in terms of its bytes, and where each word and byte
of a string stands. -/

namespace Sys2Proof.Machine

/-- The value of a word, first byte least significant: the bytes are its digits to the base 256. -/
theorem toNat_leWord_eq_ofDigits {bs : List Byte} (h : bs.length ≤ 8) :
    (leWord bs).toNat = Nat.ofDigits 256 (bs.map (·.toNat)) := by
  induction bs with
  | nil => rfl
  | cons b bs ih =>
    simp only [List.length_cons] at h
    have hdigits : Nat.ofDigits 256 (bs.map (·.toNat)) < 256 ^ bs.length := by
      simpa using Nat.ofDigits_lt_base_pow_length (b := 256) (l := bs.map (·.toNat)) (by decide)
        (by simpa using fun x _ => x.isLt)
    have hfits : 256 ^ bs.length ≤ 256 ^ 7 := Nat.pow_le_pow_right (by decide) (by omega)
    have hvalue := ih (by omega)
    have hshift : (leWord bs).toNat <<< 8 < 2 ^ 64 := by rw [hvalue, Nat.shiftLeft_eq]; omega
    rw [List.map_cons, Nat.ofDigits_cons, ← hvalue, leWord, BitVec.toNat_or, BitVec.toNat_shiftLeft,
      Nat.mod_eq_of_lt hshift, BitVec.toNat_setWidth_of_le (by decide), Nat.or_comm,
      ← Nat.shiftLeft_add_eq_or_of_lt b.isLt, Nat.shiftLeft_eq]
    omega

/-- The value of a word as the sum of its bytes, byte j shifted left by 8j. -/
theorem toNat_leWord {bs : List Byte} (h : bs.length ≤ 8) :
    (leWord bs).toNat = ∑ j ∈ Finset.range bs.length, (bs.getD j 0).toNat * 2 ^ (8 * j) := by
  rw [toNat_leWord_eq_ofDigits h]
  clear h
  induction bs with
  | nil => rfl
  | cons b bs ih =>
    rw [List.map_cons, Nat.ofDigits_cons, ih, List.length_cons, Finset.sum_range_succ', Finset.mul_sum, add_comm]
    congr 1
    · refine Finset.sum_congr rfl fun j _ => ?_
      rw [List.getD_cons_succ, Nat.mul_succ, pow_add]
      ring
    · simp

/-- The first word of a string with 8 bytes or more. -/
theorem wordsOfBytes_eq_cons {bs : List Byte} (h : 8 ≤ bs.length) :
    wordsOfBytes bs = leWord (bs.take 8) :: wordsOfBytes (bs.drop 8) := by
  match bs, h with
  | _ :: _ :: _ :: _ :: _ :: _ :: _ :: _ :: _, _ => rfl

theorem wordsOfBytes_eq_nil {bs : List Byte} (h : bs.length < 8) : wordsOfBytes bs = [] := by
  unfold wordsOfBytes
  split
  · simp only [List.length_cons] at h
    omega
  · rfl

/-- Word k of a string is made of the 8 bytes from byte 8k on. -/
theorem getElem?_wordsOfBytes {bs : List Byte} {k : Nat} (h : 8 * k + 8 ≤ bs.length) :
    (wordsOfBytes bs)[k]? = some (leWord ((bs.drop (8 * k)).take 8)) := by
  rw [wordsOfBytes_eq_cons (by omega)]
  induction k generalizing bs with
  | zero => rfl
  | succ k ih =>
    have hrest : 8 * k + 8 ≤ (bs.drop 8).length := by rw [List.length_drop]; omega
    rw [List.getElem?_cons_succ, wordsOfBytes_eq_cons (by omega), ih hrest, List.drop_drop,
      show 8 + 8 * k = 8 * (k + 1) by omega]

theorem length_wordsOfBytes (bs : List Byte) : (wordsOfBytes bs).length = bs.length / 8 := by
  by_cases h : 8 ≤ bs.length
  · have ih := length_wordsOfBytes (bs.drop 8)
    rw [wordsOfBytes_eq_cons h, List.length_cons, ih, List.length_drop]
    omega
  · rw [wordsOfBytes_eq_nil (by omega), List.length_nil]
    omega
termination_by bs.length
decreasing_by rw [List.length_drop]; omega

theorem getElem?_leBytes (w : Word) {j : Nat} (h : j < 8) : (leBytes w)[j]? = some (w.extractLsb' (8 * j) 8) := by
  simp [leBytes, h]

/-- Byte j of word k stands at place 8k + j. -/
theorem getElem?_bytesOfWords {ws : List Word} {k j : Nat} {w : Word} (hw : ws[k]? = some w) (hj : j < 8) :
    (bytesOfWords ws)[8 * k + j]? = some (w.extractLsb' (8 * j) 8) := by
  induction ws generalizing k with
  | nil => simp at hw
  | cons x ws ih =>
    change (leBytes x ++ bytesOfWords ws)[8 * k + j]? = _
    cases k with
    | zero =>
      cases hw
      rw [Nat.mul_zero, Nat.zero_add, List.getElem?_append_left (by simpa using hj), getElem?_leBytes _ hj]
    | succ k =>
      rw [List.getElem?_append_right (by rw [length_leBytes]; omega), length_leBytes,
        show 8 * (k + 1) + j - 8 = 8 * k + j by omega]
      exact ih hw

/-- Settles O20: word k is made of the 8 bytes from 8k on, whose sum is its value. -/
theorem wordsAreAssembledLittleEndian : Obligations.WordsAreAssembledLittleEndian := by
  refine ⟨fun bs k h => ⟨_, getElem?_wordsOfBytes h, ?_⟩, length_wordsOfBytes, fun ws k j w => getElem?_bytesOfWords⟩
  have hlen : ((bs.drop (8 * k)).take 8).length = 8 := by simp; omega
  rw [toNat_leWord hlen.le, hlen]
  refine Finset.sum_congr rfl fun j hj => ?_
  simp [List.getD_eq_getElem?_getD, Finset.mem_range.1 hj]

end Sys2Proof.Machine
end

section
/-! The command word by its fields (30_encoding.md R121, R123, R124): when a word is what format C gives, and so when
it selects a row of the opcode map. From it, decoding and encoding are inverse to each other. -/

namespace Sys2Proof

/-! ### Format C -/

/-- `rsv`, bits 63:28 (R121). -/
def rsvField (c : Word) : BitVec 36 := c.extractLsb' 28 36

section
variable {x : Word} {n k : Nat} (f : BitVec k)

/-- A k-bit field put above n bits adds its value at that place. -/
theorem toNat_or_field (hx : x.toNat < 2 ^ n) (hk : n + k ≤ 64) :
    (x ||| f.setWidth 64 <<< n).toNat = x.toNat + f.toNat * 2 ^ n := by
  have hfit : f.toNat * 2 ^ n < 2 ^ 64 :=
    calc f.toNat * 2 ^ n < 2 ^ k * 2 ^ n := Nat.mul_lt_mul_of_pos_right f.isLt (Nat.two_pow_pos n)
      _ = 2 ^ (n + k) := by rw [Nat.mul_comm, Nat.pow_add]
      _ ≤ 2 ^ 64 := Nat.pow_le_pow_right (by decide) hk
  rw [BitVec.toNat_or, BitVec.toNat_shiftLeft, BitVec.toNat_setWidth_of_le (by omega), Nat.shiftLeft_eq,
    Nat.mod_eq_of_lt hfit, Nat.or_comm, ← Nat.shiftLeft_eq, ← Nat.shiftLeft_add_eq_or_of_lt hx, Nat.shiftLeft_eq,
    Nat.add_comm]

theorem toNat_or_field_lt (hx : x.toNat < 2 ^ n) (hk : n + k ≤ 64) :
    (x ||| f.setWidth 64 <<< n).toNat < 2 ^ (n + k) :=
  calc (x ||| f.setWidth 64 <<< n).toNat = x.toNat + f.toNat * 2 ^ n := toNat_or_field f hx hk
    _ < (f.toNat + 1) * 2 ^ n := by rw [Nat.add_mul, Nat.one_mul]; omega
    _ ≤ 2 ^ k * 2 ^ n := Nat.mul_le_mul_right _ f.isLt
    _ = 2 ^ (n + k) := by rw [Nat.mul_comm, Nat.pow_add]

end

/-- The fields of format C do not overlap, so that the word is the sum of the shifted fields (R121). -/
theorem toNat_formatC (op : Byte) (rd rs1 rs2 : RegIx) (imm8 : Byte) :
    (formatC op rd rs1 rs2 imm8).toNat =
      op.toNat + rd.toNat * 2 ^ 8 + rs1.toNat * 2 ^ 12 + rs2.toNat * 2 ^ 16 + imm8.toNat * 2 ^ 20 := by
  have hop : (op.setWidth 64).toNat = op.toNat := BitVec.toNat_setWidth_of_le (by decide)
  have h8 : (op.setWidth 64).toNat < 2 ^ 8 := by rw [hop]; exact op.isLt
  have h12 := toNat_or_field_lt rd h8 (by decide)
  have h16 := toNat_or_field_lt rs1 h12 (by decide)
  have h20 := toNat_or_field_lt rs2 h16 (by decide)
  rw [formatC, toNat_or_field imm8 h20 (by decide), toNat_or_field rs2 h16 (by decide),
    toNat_or_field rs1 h12 (by decide), toNat_or_field rd h8 (by decide), hop]

/-- A word is the format C word of some fields exactly when it has these fields and `rsv` 0. -/
theorem formatC_eq_iff {op : Byte} {rd rs1 rs2 : RegIx} {imm8 : Byte} {c : Word} :
    formatC op rd rs1 rs2 imm8 = c ↔
      rsvField c = 0 ∧ opField c = op ∧ rdField c = rd ∧ rs1Field c = rs1 ∧ rs2Field c = rs2 ∧
        imm8Field c = imm8 := by
  have hc := c.isLt
  have hop := op.isLt
  have hrd := rd.isLt
  have hrs1 := rs1.isLt
  have hrs2 := rs2.isLt
  have himm := imm8.isLt
  simp only [BitVec.toNat_eq, toNat_formatC, rsvField, opField, rdField, rs1Field, rs2Field, imm8Field,
    BitVec.extractLsb'_toNat, Nat.shiftRight_eq_div_pow, BitVec.ofNat_eq_ofNat, BitVec.toNat_ofNat]
  omega

/-! ### The rows of the opcode map -/

/-- Every row of R124 fixes `rsv` to 0 and `op` to its opcode, and asks of the other fields only that some bits are
0 (R123). -/
theorem opcodeTable_format :
    ∀ r ∈ opcodeTable, rsvField r.mask = BitVec.allOnes 36 ∧ opField r.mask = BitVec.allOnes 8 ∧
      r.matchWord = formatC r.opcode 0 0 0 0 := by decide

theorem opcodeTable_opcode_nodup : (opcodeTable.map (·.opcode)).Nodup := by decide

/-- The fields are those of a word of the row: `op` is its opcode, and the masked bits of every other field are 0. -/
def OpcodeRow.Fits (r : OpcodeRow) (op : Byte) (rd rs1 rs2 : RegIx) (imm8 : Byte) : Prop :=
  op = r.opcode ∧ rd &&& rdField r.mask = 0 ∧ rs1 &&& rs1Field r.mask = 0 ∧ rs2 &&& rs2Field r.mask = 0 ∧
    imm8 &&& imm8Field r.mask = 0

/-- A mask of ones over a field keeps the field. -/
theorem extractLsb'_and_of_allOnes {c m : Word} {lo n : Nat} (h : m.extractLsb' lo n = BitVec.allOnes n) :
    (c &&& m).extractLsb' lo n = c.extractLsb' lo n := by
  rw [BitVec.extractLsb'_and, h, BitVec.and_allOnes]

/-- A word selects a row exactly when `rsv` is 0 and its fields fit the row. -/
theorem selects_iff {r : OpcodeRow} (hr : r ∈ opcodeTable) (c : Word) :
    r.selects c = true ↔
      rsvField c = 0 ∧ r.Fits (opField c) (rdField c) (rs1Field c) (rs2Field c) (imm8Field c) := by
  obtain ⟨hrsv, hop, hmatch⟩ := opcodeTable_format r hr
  have hrsv' : rsvField (c &&& r.mask) = rsvField c := extractLsb'_and_of_allOnes hrsv
  have hop' : opField (c &&& r.mask) = opField c := extractLsb'_and_of_allOnes hop
  rw [OpcodeRow.selects, beq_iff_eq, hmatch, eq_comm, formatC_eq_iff, hrsv', hop']
  simp only [OpcodeRow.Fits, rdField, rs1Field, rs2Field, imm8Field, BitVec.extractLsb'_and]

/-- A word selects at most one row: the opcodes of the rows differ. -/
theorem eq_of_selects {r r' : OpcodeRow} {c : Word} (hr : r ∈ opcodeTable) (hr' : r' ∈ opcodeTable)
    (h : r.selects c = true) (h' : r'.selects c = true) : r = r' := by
  obtain ⟨-, hop, -⟩ := (selects_iff hr c).1 h
  obtain ⟨-, hop', -⟩ := (selects_iff hr' c).1 h'
  exact List.inj_on_of_nodup_map opcodeTable_opcode_nodup hr hr' (hop.symm.trans hop')

/-- The rows that a word selects are copies of one row, and no row stands twice in the map. -/
theorem length_filter_selects {r : OpcodeRow} {c : Word} (hr : r ∈ opcodeTable) (h : r.selects c = true) :
    (opcodeTable.filter (·.selects c)).length = 1 := by
  have hmem : r ∈ opcodeTable.filter (·.selects c) := List.mem_filter.2 ⟨hr, h⟩
  have hall : ∀ r' ∈ opcodeTable.filter (·.selects c), r' = r := fun r' hr' =>
    have ⟨hmem', hsel'⟩ := List.mem_filter.1 hr'
    eq_of_selects hmem' hr hsel' h
  have hnodup : (opcodeTable.filter (·.selects c)).Nodup := opcodeTable_opcode_nodup.of_map.filter _
  rw [List.eq_replicate_of_mem hall, List.nodup_replicate] at hnodup
  exact Nat.le_antisymm hnodup (List.length_pos_of_mem hmem)

/-! ### The decoder -/

/-- A word that selects a row decodes to the command of the row. -/
theorem decode_of_selects {r : OpcodeRow} {c : Word} (hr : r ∈ opcodeTable) (h : r.selects c = true) :
    decode c = .ok (r.build c) := by
  unfold decode
  cases hfind : opcodeTable.find? (·.selects c) with
  | some r' =>
    have hsel : r'.selects c = true := List.find?_some (p := fun r : OpcodeRow => r.selects c) hfind
    rw [eq_of_selects hr (List.mem_of_find?_eq_some hfind) h hsel]
  | none => exact absurd h (List.find?_eq_none.1 hfind r hr)

/-- A word that selects no row is refused, by its opcode or for a field (R126). -/
theorem decode_of_not_selects {c : Word} (h : ∀ r ∈ opcodeTable, ¬ r.selects c = true) :
    decode c = .error (.reservedOpcode (opField c)) ∨ decode c = .error (.nonzeroUnusedField (opField c)) := by
  unfold decode
  rw [List.find?_eq_none.2 h]
  dsimp only
  split
  · exact .inr rfl
  · exact .inl rfl

/-- The decoder reads a command exactly when the word selects a row that stands for it. -/
theorem decode_eq_ok_iff {c : Word} {i : Instr} :
    decode c = .ok i ↔ ∃ r ∈ opcodeTable, r.selects c = true ∧ r.build c = i := by
  constructor
  · intro h
    by_contra hnone
    rcases decode_of_not_selects (c := c) fun r hr hsel =>
        hnone ⟨r, hr, hsel, Except.ok.inj ((decode_of_selects hr hsel).symm.trans h)⟩ with he | he <;>
      cases h.symm.trans he
  · rintro ⟨r, hr, hsel, rfl⟩
    exact decode_of_selects hr hsel

/-! ### The round trips -/

@[simp] theorem getElem_bitImm (v : Bool) : (bitImm v)[0] = v := by cases v <;> rfl

/-- The bits of `imm8` that BB.SINGLE does not use are 0 exactly when `imm8` is the bit value that it reads there
(R122, R123). -/
theorem single_imm8_unused_eq_zero_iff : ∀ b : Byte, b &&& 254#8 = 0#8 ↔ b = bitImm b[0] := by decide

@[simp] theorem regIx_and_allOnes (r : RegIx) : r &&& 15#4 = r := BitVec.and_allOnes

@[simp] theorem byte_and_allOnes (b : Byte) : b &&& 255#8 = b := BitVec.and_allOnes

/-- A word selects a row exactly when it is the encoding of the command that the row builds from it. -/
theorem selects_iff_encode_build {r : OpcodeRow} (hr : r ∈ opcodeTable) (c : Word) :
    r.selects c = true ↔ encode (r.build c) = c := by
  rw [selects_iff hr]
  fin_cases hr
  all_goals
    simp only [encode, formatC_eq_iff, OpcodeRow.Fits]
    generalize rdField c = rd, rs1Field c = rs1, rs2Field c = rs2, imm8Field c = imm8
    simp [rdField, rs1Field, rs2Field, imm8Field, single_imm8_unused_eq_zero_iff]

/-- Reading the fields of a format C word gives them back. -/
theorem fields_formatC (op : Byte) (rd rs1 rs2 : RegIx) (imm8 : Byte) :
    rsvField (formatC op rd rs1 rs2 imm8) = 0 ∧ opField (formatC op rd rs1 rs2 imm8) = op ∧
      rdField (formatC op rd rs1 rs2 imm8) = rd ∧ rs1Field (formatC op rd rs1 rs2 imm8) = rs1 ∧
      rs2Field (formatC op rd rs1 rs2 imm8) = rs2 ∧ imm8Field (formatC op rd rs1 rs2 imm8) = imm8 :=
  formatC_eq_iff.1 rfl

/-- Every command has a row, which builds it from the command's encoding. -/
theorem exists_row_build_encode (i : Instr) : ∃ r ∈ opcodeTable, r.build (encode i) = i := by
  cases i <;> simp [opcodeTable, bitBufferRows, huffmanRows, lzwRows, encode, fields_formatC]

/-- A word decodes to a command exactly when it is the command's encoding. -/
theorem decode_eq_ok_iff_encode {c : Word} {i : Instr} : decode c = .ok i ↔ encode i = c := by
  rw [decode_eq_ok_iff]
  constructor
  · rintro ⟨r, hr, hsel, rfl⟩
    exact (selects_iff_encode_build hr c).1 hsel
  · rintro rfl
    obtain ⟨r, hr, hbuild⟩ := exists_row_build_encode i
    exact ⟨r, hr, (selects_iff_encode_build hr _).2 (by rw [hbuild]), hbuild⟩

/-- Settles O1: the encoding selects the command's row, which builds the command from it. -/
theorem decodeEncodeRoundTrip : Obligations.DecodeEncodeRoundTrip :=
  fun _ => decode_eq_ok_iff_encode.2 rfl

/-- Settles O2: a row is selected only by the encoding of the command it builds. -/
theorem decodedWordIsItsCommandsEncoding : Obligations.DecodedWordIsItsCommandsEncoding :=
  fun _ _ => decode_eq_ok_iff_encode.1

/-! ### The legal words -/

theorem single_imm8_unused_eq_zero_iff_le_one : ∀ b : Byte, b &&& 254#8 = 0#8 ↔ b.toNat ≤ 1 := by decide

/-- Which fields fit some row, by the opcode (R124): the rows' masks read field by field give the same 18 cases in the
order of the map. -/
theorem exists_row_fits_iff (op : Byte) (rd rs1 rs2 : RegIx) (imm8 : Byte) :
    (∃ r ∈ opcodeTable, r.Fits op rd rs1 rs2 imm8) ↔
      (op.toNat ∈ [0x00, 0x10, 0x11, 0x12, 0x20, 0x21, 0x22, 0x23, 0x24, 0x25] ∧
          rd = 0 ∧ rs1 = 0 ∧ rs2 = 0 ∧ imm8 = 0) ∨
        (op.toNat ∈ [0x01, 0x07] ∧ rs1 = 0 ∧ rs2 = 0 ∧ imm8 = 0) ∨
        (op.toNat = 0x02 ∧ rs1 = 0 ∧ rs2 = 0 ∧ imm8.toNat ≤ 1) ∨
        (op.toNat = 0x03 ∧ rs2 = 0 ∧ imm8 = 0) ∨
        (op.toNat ∈ [0x04, 0x06] ∧ rd = 0 ∧ rs2 = 0 ∧ imm8 = 0) ∨
        (op.toNat = 0x05 ∧ rd = 0 ∧ imm8 = 0) ∨
        (op.toNat = 0x13 ∧ rs1 = 0 ∧ rs2 = 0) := by
  simp only [opcodeTable, bitBufferRows, huffmanRows, lzwRows, List.cons_append, List.nil_append, List.mem_cons,
    List.not_mem_nil, or_false, exists_eq_or_imp, exists_eq_left,
    OpcodeRow.Fits, rdField, rs1Field, rs2Field, imm8Field, BitVec.ofNat_eq_ofNat, BitVec.reduceExtractLsb',
    regIx_and_allOnes, byte_and_allOnes, single_imm8_unused_eq_zero_iff_le_one, BitVec.and_zero, true_and, and_true,
    BitVec.toNat_eq (x := op), BitVec.toNat_ofNat, Nat.reducePow, Nat.reduceMod, Nat.zero_mod, Nat.one_mod]
  simp only [or_and_right]
  exact Iff.of_eq (by ac_rfl)

/-- Settles O3: a word decodes when it selects a row, so when its fields fit one. -/
theorem legalWordsByTheirFields : Obligations.LegalWordsByTheirFields := by
  intro c
  calc (∃ i, decode c = .ok i)
      ↔ ∃ r ∈ opcodeTable, r.selects c = true := by simp [decode_eq_ok_iff]
    _ ↔ ∃ r ∈ opcodeTable, rsvField c = 0 ∧
          r.Fits (opField c) (rdField c) (rs1Field c) (rs2Field c) (imm8Field c) :=
        exists_congr fun r => and_congr_right fun hr => selects_iff hr c
    _ ↔ rsvField c = 0 ∧ ∃ r ∈ opcodeTable,
          r.Fits (opField c) (rdField c) (rs1Field c) (rs2Field c) (imm8Field c) :=
        ⟨fun ⟨r, hr, hrsv, hfits⟩ => ⟨hrsv, r, hr, hfits⟩,
          fun ⟨hrsv, r, hr, hfits⟩ => ⟨r, hr, hrsv, hfits⟩⟩
    _ ↔ _ := and_congr_right' (exists_row_fits_iff ..)

/-- Settles O4: at most one row is selected, and the decoder answers by whether one is. -/
theorem everyWordSelectsOneRowOrIsRefused : Obligations.EveryWordSelectsOneRowOrIsRefused := by
  intro c
  by_cases h : ∃ r ∈ opcodeTable, r.selects c = true
  · obtain ⟨r, hr, hsel⟩ := h
    exact .inl ⟨length_filter_selects hr hsel, _, decode_of_selects hr hsel⟩
  · have hnone : ∀ r ∈ opcodeTable, ¬ r.selects c = true := fun r hr hsel => h ⟨r, hr, hsel⟩
    exact .inr ⟨List.filter_eq_nil_iff.2 hnone, decode_of_not_selects hnone⟩

/-- Settles O5: the rows of the opcode map evaluated on the words. -/
theorem specWordsDecode : Obligations.SpecWordsDecode :=
  ⟨rfl, rfl, rfl, rfl, rfl, rfl, rfl, rfl, rfl, rfl, rfl, rfl⟩

end Sys2Proof
end

section
/-! BB.LOAD inverts BB.STORE (40_bitbuffer.md R157, R158, R160): reading back inverts each layer of what is stored, the
bits of a word, the words of a byte string and the bytes of OUT. -/

namespace Sys2Proof.Machine

/-- A word is assembled from its own 8 bytes (20_memory.md R82). -/
theorem leWord_leBytes (w : Word) : leWord (leBytes w) = w := by
  apply BitVec.eq_of_toNat_eq
  rw [toNat_leWord_eq_ofDigits (by simp)]
  simp only [leBytes, List.map_map, Function.comp_def, BitVec.extractLsb'_toNat, Nat.shiftRight_eq_div_pow]
  simp only [List.range_succ, List.range_zero, List.nil_append, List.cons_append, List.map_cons, List.map_nil,
    Nat.ofDigits_cons, Nat.ofDigits_nil]
  omega

theorem wordsOfBytes_bytesOfWords (ws : List Word) : wordsOfBytes (bytesOfWords ws) = ws := by
  induction ws with
  | nil => rfl
  | cons w ws ih =>
    change wordsOfBytes (leBytes w ++ bytesOfWords ws) = _
    rw [wordsOfBytes_eq_cons (by simp), List.take_left' (length_leBytes w), List.drop_left' (length_leBytes w),
      leWord_leBytes, ih]

@[simp] theorem length_bitsOfWord (w : Word) : (bitsOfWord w).length = 64 := by simp [bitsOfWord]

/-- Bit p of word k, from the most significant on, stands at place 64k + p of the bits. -/
theorem getElem?_flatMap_bitsOfWord {ws : List Word} {k p : Nat} {w : Word} (hw : ws[k]? = some w) (hp : p < 64) :
    (ws.flatMap bitsOfWord)[64 * k + p]? = some (w.getLsbD (63 - p)) := by
  induction ws generalizing k with
  | nil => simp at hw
  | cons x ws ih =>
    rw [List.flatMap_cons]
    cases k with
    | zero =>
      cases hw
      rw [List.getElem?_append_left (by simpa using hp)]
      simp [bitsOfWord, hp]
    | succ k =>
      rw [List.getElem?_append_right (by simp; omega), length_bitsOfWord,
        show 64 * (k + 1) + p - 64 = 64 * k + p by omega]
      exact ih hw

/-- The storage form gives its bits back (10_state.md R41). -/
theorem bitsOfWords_wordsOfBits (b : BitSeq) : bitsOfWords (wordsOfBits b) b.length = b := by
  refine List.ext_getElem? fun i => ?_
  rw [bitsOfWords, List.getElem?_take]
  split
  · next hi =>
    obtain ⟨w, hw, hbit⟩ := exists_word_of_bit hi
    have hplace := getElem?_flatMap_bitsOfWord hw (Nat.mod_lt i (by decide))
    rw [Nat.div_add_mod, hbit] at hplace
    rw [hplace, List.getD_eq_getElem _ _ hi, List.getElem?_eq_getElem hi]
  · next hi => exact (List.getElem?_eq_none (by omega)).symm

/-- A stored bit sequence within the capacity loads as itself (R158). -/
theorem loadForm_storeForm {b : BitSeq} {cap : Nat} (hb : b.length ≤ cap) (hcap : cap < 2 ^ 64) :
    loadForm cap (storeForm b) = .ok b := by
  have hcount : (BitVec.ofNat 64 b.length).toNat = b.length := by
    rw [BitVec.toNat_ofNat, Nat.mod_eq_of_lt (by omega)]
  simp only [storeForm, loadForm, hcount]
  rw [if_neg (by simp), if_neg (by omega), bitsOfWords_wordsOfBits]

theorem length_storeForm (b : BitSeq) : (storeForm b).length = 1 + (b.length + 63) / 64 := by
  rw [storeForm, List.length_cons, length_wordsOfBits, ceilDiv, Nat.add_comm]
  rfl

/-- IN and IN_LEN as an OUT-writing command left OUT and OUT_LEN: the block is what was stored. -/
theorem inBlock_of_ofBytes {s : State} {r : List Byte} (hmem : s.inMem = Memory.ofBytes 0 r)
    (hlen : s.inLen = BitVec.ofNat 64 r.length) (hr : r.length < 2 ^ 64) : s.inBlock = some r := by
  rw [State.inBlock, hmem, hlen, BitVec.toNat_ofNat, Nat.mod_eq_of_lt hr, Memory.readRange_ofBytes]

/-- A block of whole words within IN_CAP is a length that word-input commands take (60_exceptions.md R332). -/
theorem lengthOk_wordInput {s : State} {ws : List Word} (hblock : s.inBlock = some (bytesOfWords ws))
    (hcap : 8 * ws.length ≤ s.params.inCap) : InputClass.wordInput.lengthOk s = true := by
  have hlen : 8 * ws.length = s.inLen.toNat := by simpa using Memory.length_readRange hblock
  simp [InputClass.lengthOk, ← hlen, hcap]

/-- BB.STORE of an existing register whose stored form fits OUT stores that form and completes (R157). -/
theorem exec_bbStore {s : State} {rs1 : RegIx} (hr : rs1.toNat < s.params.nbb)
    (hcap : 8 * (storeForm (s.bitBuffer rs1)).length ≤ s.params.outCap) :
    exec (.bbStore rs1) s = .next (s.storeOut (bytesOfWords (storeForm (s.bitBuffer rs1)))).completed := by
  change commonChecks _ _ _ = _
  rw [commonChecks_pass (by simp [Instr.wellFormed, Instr.registers, hr]) rfl]
  exact if_neg (by omega)

/-- BB.LOAD of words that store a bit sequence writes it to the register and completes (R158). -/
theorem exec_bbLoad {s : State} {rd : RegIx} {ws : List Word} {b : BitSeq} (hr : rd.toNat < s.params.nbb)
    (hblock : s.inBlock = some (bytesOfWords ws)) (hcap : 8 * ws.length ≤ s.params.inCap)
    (hload : loadForm s.params.bbCapBits ws = .ok b) :
    exec (.bbLoad rd) s = .next (s.setBitBuffer rd b).completed := by
  change commonChecks _ _ _ = _
  rw [commonChecks_pass (i := .bbLoad rd) (by simp [Instr.wellFormed, Instr.registers, hr])
      (lengthOk_wordInput hblock hcap), withInWords_some hblock, wordsOfBytes_bytesOfWords, hload]
  rfl

/-- A register of a state that meets the invariant is within BB_CAP_BITS (10_state.md R40). -/
theorem State.Inv.length_bitBuffer {s : State} (h : s.Inv) {r : RegIx} (hr : r.toNat < s.params.nbb) :
    (s.bitBuffer r).length ≤ s.params.bbCapBits := by
  have hlt : r.toNat < s.bb.length := h.bb_count ▸ hr
  rw [State.bitBuffer, List.getD_eq_getElem _ _ hlt]
  exact h.bb_cap _ (List.getElem_mem hlt)

/-- Settles O40: BB.STORE's words are the input block of BB.LOAD, and a stored sequence loads as itself. -/
theorem loadInvertsStore : Obligations.LoadInvertsStore := by
  intro s rs1 rd hinv hrs1 hrd b n hout hin
  obtain ⟨⟨-, -, -, hbits, -, -, -, -, -, houtCap, -⟩, -⟩ := hinv.params_valid
  have hn : 8 * (storeForm b).length = n := congrArg (8 * ·) (length_storeForm b)
  have hload : loadForm s.params.bbCapBits (storeForm b) = .ok b :=
    loadForm_storeForm (hinv.length_bitBuffer hrs1) (by omega)
  have hbytes : (bytesOfWords (storeForm b)).length < 2 ^ 64 := by rw [length_bytesOfWords]; omega
  exact ⟨_, _, exec_bbStore hrs1 (hn.trans_le hout),
    exec_bbLoad hrd (inBlock_of_ofBytes rfl rfl hbytes) (hn.trans_le hin) hload, rfl, rfl⟩

end Sys2Proof.Machine
end

section
/-! The frequency pass and its words (41_huffman.md R205 to R207, R219): which entries it holds and in which order, and
that sorting the entries read back from its words gives it again. -/

namespace Sys2Proof.Machine

/-! ### The frequency pass -/

/-- The signed order of the bytes is the order of the 256 places (R205). -/
theorem toInt_ofNat_add_128 {k : Nat} (hk : k < 256) : (BitVec.ofNat 8 (k + 128)).toInt = (k : Int) - 128 := by
  rw [BitVec.toInt_eq_toNat_cond, BitVec.toNat_ofNat]
  split <;> omega

theorem signedBytes_ascending : signedBytes.Pairwise fun x y => x.toInt < y.toInt := by
  refine List.pairwise_map.2 (List.pairwise_lt_range.imp_of_mem fun hj hk hjk => ?_)
  rw [toInt_ofNat_add_128 (List.mem_range.1 hj), toInt_ofNat_add_128 (List.mem_range.1 hk)]
  omega

/-- An entry is in the frequency pass when it is a byte that occurs with its count (R207). -/
theorem mem_freqPass {block : List Byte} {b : Byte} {n : Nat} :
    (b, n) ∈ freqPass block ↔ n = block.count b ∧ 1 ≤ n := by
  simp [freqPass, mem_signedBytes, eq_comm]

/-- The entries stand in ascending signed order of their bytes (R205, R207). -/
theorem freqPass_ascending (block : List Byte) :
    (freqPass block).Pairwise fun x y => x.1.toInt < y.1.toInt := by
  refine List.Pairwise.filter _ (List.pairwise_map.2 ?_)
  exact signedBytes_ascending

/-- Settles O41: the pass pairs the bytes, which are in signed order, with their counts and keeps those that occur. -/
theorem freqPassCountsInSignedOrder : Obligations.FreqPassCountsInSignedOrder :=
  fun block => ⟨fun _ _ => mem_freqPass, freqPass_ascending block⟩

theorem freqPass_bytes_nodup (block : List Byte) : ((freqPass block).map (·.1)).Nodup :=
  List.pairwise_map.2 ((freqPass_ascending block).imp fun hlt heq => hlt.ne (congrArg BitVec.toInt heq))

/-- A table with distinct bytes has at most 256 entries. -/
theorem length_le_256_of_nodup {E : List Entry} (h : (E.map (·.1)).Nodup) : E.length ≤ 256 :=
  calc E.length = (E.map (·.1)).length := (List.length_map _).symm
    _ ≤ Fintype.card Byte := h.length_le_card
    _ = 256 := FinEnum.card_eq_fintypeCard.symm.trans (FinEnum.card_bitVec 8)

/-- The frequency pass of copies of one byte is one entry (R214). -/
theorem freqPass_replicate (b : Byte) {n : Nat} (hn : 1 ≤ n) : freqPass (List.replicate n b) = [(b, n)] := by
  refine List.perm_singleton.1
    ((List.perm_ext_iff_of_nodup (freqPass_bytes_nodup _).of_map (List.nodup_singleton _)).2 fun (x, m) => ?_)
  rw [mem_freqPass, List.count_replicate, List.mem_singleton, Prod.mk.injEq]
  by_cases hx : b = x
  · simp [hx]
    omega
  · simp [hx, Ne.symm hx]

/-! ### Frequency words -/

/-- The byte stands above the 56 bits of the count (R206). -/
theorem toNat_freqWord (b : Byte) {n : Nat} (hn : n < 2 ^ 56) :
    (freqWord (b, n)).toNat = b.toNat * 2 ^ 56 + n := by
  have hval : (BitVec.ofNat 64 n).toNat = n := by rw [BitVec.toNat_ofNat, Nat.mod_eq_of_lt (by omega)]
  rw [freqWord, BitVec.or_comm, toNat_or_field b (by rwa [hval]) (by decide), hval, Nat.add_comm]

/-- The count of a frequency word is its low 56 bits (R206). -/
theorem entryOfWord_snd (w : Word) : (entryOfWord w).2 = w.toNat % 2 ^ 56 := by
  rw [entryOfWord, BitVec.toNat_and]
  exact Nat.and_two_pow_sub_one_eq_mod _ 56

theorem entryOfWord_fst_toNat (w : Word) : (entryOfWord w).1.toNat = w.toNat / 2 ^ 56 := by
  have := w.isLt
  rw [entryOfWord, BitVec.extractLsb'_toNat, Nat.shiftRight_eq_div_pow]
  omega

/-- A frequency word reads back as its entry (R206). -/
theorem entryOfWord_freqWord (b : Byte) {n : Nat} (hn : n < 2 ^ 56) : entryOfWord (freqWord (b, n)) = (b, n) := by
  have hw := toNat_freqWord b hn
  refine Prod.ext (BitVec.eq_of_toNat_eq ?_) ?_
  · rw [entryOfWord_fst_toNat, hw]; dsimp only; omega
  · rw [entryOfWord_snd, hw]; dsimp only; omega

/-- The arithmetic right shift by 56 gives the signed byte of a frequency word (R206). -/
theorem toInt_sshiftRight_56 (w : Word) : (w.sshiftRight 56).toInt = (entryOfWord w).1.toInt := by
  rw [BitVec.toInt_sshiftRight, Int.shiftRight_eq_div_pow, BitVec.toInt_eq_toNat_cond, BitVec.toInt_eq_toNat_cond,
    entryOfWord_fst_toNat]
  split <;> split <;> omega

/-- The words of a table whose counts fit 56 bits read back as the table. -/
theorem map_entryOfWord_freqWord {E : List Entry} (hE : ∀ e ∈ E, e.2 < 2 ^ 56) :
    (E.map freqWord).map entryOfWord = E := by
  rw [List.map_map]
  exact (List.map_congr_left fun e he => entryOfWord_freqWord e.1 (hE e he)).trans (List.map_id E)

/-- No count exceeds the length of the block. -/
theorem freqPass_count_lt {block : List Byte} (h : block.length < 2 ^ 56) : ∀ e ∈ freqPass block, e.2 < 2 ^ 56 := by
  intro (b, n) he
  obtain ⟨rfl, -⟩ := mem_freqPass.1 he
  exact List.count_le_length.trans_lt h

/-! ### Sorting a table -/

/-- The order in which tables stand: by the signed byte (R205). -/
abbrev Entry.le (x y : Entry) : Prop := x.1.toInt ≤ y.1.toInt

theorem insertEntry_eq_orderedInsert : insertEntry = List.orderedInsert Entry.le := by
  funext e E
  induction E with
  | nil => rfl
  | cons x E ih => rw [insertEntry, List.orderedInsert_cons, ih]

theorem sortEntries_eq_insertionSort (E : List Entry) : sortEntries E = E.insertionSort Entry.le := by
  rw [sortEntries, insertEntry_eq_orderedInsert, List.insertionSort]

theorem sortEntries_perm (E : List Entry) : (sortEntries E).Perm E :=
  sortEntries_eq_insertionSort E ▸ List.perm_insertionSort Entry.le E

theorem sortEntries_ascending (E : List Entry) : (sortEntries E).Pairwise Entry.le := by
  have : Std.Total Entry.le := ⟨fun x y => Int.le_total x.1.toInt y.1.toInt⟩
  have : IsTrans Entry Entry.le := ⟨fun _ _ _ => Int.le_trans⟩
  exact sortEntries_eq_insertionSort E ▸ List.pairwise_insertionSort Entry.le E

/-- A table in ascending order stays as it is. -/
theorem sortEntries_of_ascending {E : List Entry} (h : E.Pairwise Entry.le) : sortEntries E = E :=
  (sortEntries_eq_insertionSort E).trans h.insertionSort_eq

/-- The frequency pass is its own sorted table (R207, R215). -/
theorem sortEntries_freqPass (block : List Byte) : sortEntries (freqPass block) = freqPass block :=
  sortEntries_of_ascending ((freqPass_ascending block).imp Int.le_of_lt)

/-- Entries with distinct bytes have one sorted order (R219). -/
theorem sortEntries_congr {E F : List Entry} (hperm : E.Perm F) (hnodup : (E.map (·.1)).Nodup) :
    sortEntries E = sortEntries F := by
  refine List.Perm.eq_of_pairwise (fun x y hx hy hxy hyx => ?_) (sortEntries_ascending E) (sortEntries_ascending F)
    ((sortEntries_perm E).trans (hperm.trans (sortEntries_perm F).symm))
  have hy' : y ∈ E := hperm.mem_iff.2 ((sortEntries_perm F).mem_iff.1 hy)
  exact List.inj_on_of_nodup_map hnodup ((sortEntries_perm E).mem_iff.1 hx) hy'
    (BitVec.eq_of_toInt_eq (Int.le_antisymm hxy hyx))

/-- Settles O42: each word reads back, and a table with distinct bytes has one sorted order. -/
theorem frequencyTableReadsBack : Obligations.FrequencyTableReadsBack := by
  refine ⟨fun b n hn => ⟨toNat_freqWord b hn, entryOfWord_freqWord b hn, ?_⟩, fun block hlen => ?_,
    fun _ _ => sortEntries_congr⟩
  · rw [toInt_sshiftRight_56, entryOfWord_freqWord b hn]
  · rw [hufEncode, freqTable, List.cons_append, List.tail_cons, List.take_left' (List.length_map _),
      map_entryOfWord_freqWord (freqPass_count_lt hlen)]

end Sys2Proof.Machine
end

section
/-! The priority list, the tree and its codes (41_huffman.md R200, R201, R204, R208, R210 to R212): where Insert puts an
element, what a round of BuildTree does, and that no code of a tree begins another's
and each is shorter than the tree has leaves. -/

namespace Sys2Proof.Machine

/-! ### The priority list -/

/-- A priority list is in ascending order (R200). -/
abbrev PriorityList.Ascending (L : PriorityList) : Prop := L.Pairwise fun a b => a.1 ≤ b.1

/-- In an ascending list Insert splits at the priority: the elements of at most p, the new one, the rest (R201). -/
theorem PriorityList.insertAt_split {L : PriorityList} (hL : L.Ascending) (p : Nat) (x : Tree) :
    ∃ before after, L = before ++ after ∧ (∀ e ∈ before, e.1 ≤ p) ∧ (∀ e ∈ after, p < e.1) ∧
      L.insertAt p x = before ++ (p, x) :: after := by
  induction L with
  | nil => exact ⟨[], [], by simp [PriorityList.insertAt]⟩
  | cons e L ih =>
    obtain ⟨hle, hL⟩ := List.pairwise_cons.1 hL
    by_cases hp : e.1 ≤ p
    · obtain ⟨before, after, rfl, hbefore, hafter, hins⟩ := ih hL
      refine ⟨e :: before, after, rfl, List.forall_mem_cons.2 ⟨hp, hbefore⟩, hafter, ?_⟩
      rw [PriorityList.insertAt, if_pos hp, hins, List.cons_append]
    · rw [PriorityList.insertAt, if_neg hp]
      have hlt := Nat.lt_of_not_le hp
      exact ⟨[], e :: L, rfl, nofun, List.forall_mem_cons.2 ⟨hlt, fun y hy => hlt.trans_le (hle y hy)⟩, rfl⟩

/-- Insert keeps a list ascending (R200, R201). -/
theorem PriorityList.Ascending.insertAt {L : PriorityList} (hL : L.Ascending) (p : Nat) (x : Tree) :
    PriorityList.Ascending (L.insertAt p x) := by
  obtain ⟨before, after, rfl, hbefore, hafter, hins⟩ := PriorityList.insertAt_split hL p x
  obtain ⟨hb, ha, hba⟩ := List.pairwise_append.1 hL
  rw [hins, PriorityList.Ascending, List.pairwise_append, List.pairwise_cons]
  exact ⟨hb, ⟨fun e he => (hafter e he).le, ha⟩,
    fun e he => List.forall_mem_cons.2 ⟨hbefore e he, hba e he⟩⟩

/-! ### The merge -/

@[simp] theorem mergeLoop_nil (n : Nat) : mergeLoop n [] = none := by simp [mergeLoop]

@[simp] theorem mergeLoop_singleton (n p : Nat) (t : Tree) : mergeLoop n [(p, t)] = some t := by simp [mergeLoop]

theorem mergeLoop_cons_cons (n p q : Nat) (a b : Tree) (L : PriorityList) :
    mergeLoop (n + 1) ((p, a) :: (q, b) :: L) = mergeLoop n (PriorityList.insertAt L (p + q) (.node b a)) := rfl

theorem PriorityList.length_insertAt (L : PriorityList) (p : Nat) (x : Tree) :
    (L.insertAt p x).length = L.length + 1 :=
  (PriorityList.insertAt_perm L p x).length_eq

/-- Fuel that covers the list gives the same tree as any more (R208). -/
theorem mergeLoop_fuel {n m : Nat} {L : PriorityList} (hn : L.length ≤ n + 1) (hm : L.length ≤ m + 1) :
    mergeLoop n L = mergeLoop m L := by
  induction n generalizing m L with
  | zero =>
    match L, hn with
    | [], _ => simp
    | [(p, t)], _ => simp
  | succ n ih =>
    match L, m, hn, hm with
    | [], _, _, _ => simp
    | [(p, t)], _, _, _ => simp
    | (p, a) :: (q, b) :: L, m + 1, hn, hm =>
      have hlen := PriorityList.length_insertAt L (p + q) (.node b a)
      simp only [List.length_cons] at hn hm
      exact ih (by omega) (by omega)

/-- Settles O43: Insert splits an ascending list at the priority, and each round of the merge shortens the list. -/
theorem insertGoesAfterEqualPriorities : Obligations.InsertGoesAfterEqualPriorities :=
  ⟨fun _ p x hL => ⟨PriorityList.insertAt_split hL p x, PriorityList.Ascending.insertAt hL p x⟩, fun _ => rfl,
    fun n p q a b L => ⟨mergeLoop_nil n, mergeLoop_singleton n p a, mergeLoop_cons_cons n p q a b L⟩,
    fun _ _ _ => mergeLoop_fuel⟩

/-! ### Leaves -/

/-- The number of leaves of a tree. -/
def Tree.leafCount : Tree → Nat
  | .leaf _ => 1
  | .node l r => l.leafCount + r.leafCount

/-- The number of leaves of all trees of a priority list. -/
def PriorityList.leafCount (L : PriorityList) : Nat := (L.map (·.2.leafCount)).sum

theorem PriorityList.leafCount_congr {L M : PriorityList} (h : L.Perm M) : L.leafCount = M.leafCount :=
  (h.map _).sum_eq

/-- One round of the merge keeps the number of leaves. -/
theorem PriorityList.leafCount_insertAt_node (L : PriorityList) (p q : Nat) (a b : Tree) :
    PriorityList.leafCount (L.insertAt (p + q) (.node b a)) = PriorityList.leafCount ((p, a) :: (q, b) :: L) := by
  rw [PriorityList.leafCount_congr (PriorityList.insertAt_perm ..)]
  simp only [PriorityList.leafCount, Tree.leafCount, List.map_cons, List.sum_cons]
  omega

/-- The merged tree has the leaves of the list. -/
theorem mergeLoop_leafCount {n : Nat} {L : PriorityList} {t : Tree} (h : mergeLoop n L = some t) :
    t.leafCount = L.leafCount := by
  induction n, L using mergeLoop.induct with
  | case1 n => simp at h
  | case2 n p u =>
    obtain rfl : u = t := by simpa using h
    simp [PriorityList.leafCount]
  | case3 L hnil hone =>
    match L, hnil, hone with
    | [], hnil, _ => exact absurd rfl hnil
    | [(p, u)], _, hone => exact absurd rfl (hone p u)
    | _ :: _ :: _, _, _ => simp [mergeLoop] at h
  | case4 n p a q b L ih => exact (ih h).trans (PriorityList.leafCount_insertAt_node L p q a b)

/-- A tree has one leaf for each entry of its table (R208). -/
theorem buildTree_leafCount {E : List Entry} {t : Tree} (h : buildTree E = some t) : t.leafCount = E.length := by
  rw [mergeLoop_leafCount h, PriorityList.leafCount_congr (initialList_perm E)]
  simp [PriorityList.leafCount, Tree.leafCount, Function.comp_def]

/-! ### Codes -/

@[simp] theorem Tree.occurs_leaf {x y : Byte} : (Tree.leaf y).occurs x = true ↔ x = y := by
  rw [Tree.occurs, beq_iff_eq, eq_comm]

@[simp] theorem Tree.occurs_node {x : Byte} {l r : Tree} :
    (Tree.node l r).occurs x = true ↔ l.occurs x = true ∨ r.occurs x = true := by
  simp [Tree.occurs]

@[simp] theorem Tree.code_leaf (x y : Byte) : (Tree.leaf y).code x = [] := rfl

theorem Tree.code_left {x : Byte} {l r : Tree} (h : l.occurs x = true) :
    (Tree.node l r).code x = false :: l.code x := if_pos h

theorem Tree.code_right {x : Byte} {l r : Tree} (h : l.occurs x = false) :
    (Tree.node l r).code x = true :: r.code x := if_neg (by simp [h])

/-- Where a byte's code goes at a node: 0 and left, or 1 and right (R211). -/
theorem Tree.code_node_cases {x : Byte} {l r : Tree} (h : (Tree.node l r).occurs x = true) :
    (l.occurs x = true ∧ (Tree.node l r).code x = false :: l.code x) ∨
    (l.occurs x = false ∧ r.occurs x = true ∧ (Tree.node l r).code x = true :: r.code x) := by
  cases hl : l.occurs x with
  | true => exact .inl ⟨rfl, Tree.code_left hl⟩
  | false => exact .inr ⟨rfl, by simpa [hl] using h, Tree.code_right hl⟩

/-- A code is shorter than the tree has leaves. -/
theorem Tree.length_code_lt (x : Byte) (t : Tree) : (t.code x).length < t.leafCount := by
  induction t with
  | leaf y => simp [Tree.leafCount]
  | node l r ihl ihr =>
    rw [Tree.leafCount, Tree.code]
    split <;> rw [List.length_cons] <;> omega

/-- A code in a tree of two leaves or more is not empty. -/
theorem Tree.length_code_pos {x : Byte} {t : Tree} (h : 2 ≤ t.leafCount) : 1 ≤ (t.code x).length := by
  cases t with
  | leaf y => simp [Tree.leafCount] at h
  | node l r => rw [Tree.code]; split <;> simp

/-- No code begins another byte's code (R212). -/
theorem Tree.eq_of_code_prefix {x y : Byte} {t : Tree} (hx : t.occurs x = true) (hy : t.occurs y = true)
    (h : t.code x <+: t.code y) : x = y := by
  induction t with
  | leaf z => rw [Tree.occurs_leaf.1 hx, Tree.occurs_leaf.1 hy]
  | node l r ihl ihr =>
    rcases Tree.code_node_cases hx with ⟨hlx, hcx⟩ | ⟨-, hrx, hcx⟩ <;>
      rcases Tree.code_node_cases hy with ⟨hly, hcy⟩ | ⟨-, hry, hcy⟩ <;>
      rw [hcx, hcy, List.cons_prefix_cons] at h
    · exact ihl hlx hly h.2
    · exact absurd h.1 (by decide)
    · exact absurd h.1 (by decide)
    · exact ihr hrx hry h.2

/-- The bytes of a table's tree are the table's bytes (R208). -/
theorem buildTree_occurs_iff {E : List Entry} {t : Tree} (h : buildTree E = some t) (x : Byte) :
    t.occurs x = true ↔ x ∈ E.map (·.1) := by
  obtain ⟨u, hu, hocc⟩ := buildTree_occurs (E := E) (by rintro rfl; cases h)
  cases hu.symm.trans h
  exact hocc x

/-- A code in the tree of a table with distinct bytes has at most 255 bits (R212). -/
theorem buildTree_length_code_le {E : List Entry} {t : Tree} (hE : (E.map (·.1)).Nodup) (h : buildTree E = some t)
    (x : Byte) : (t.code x).length ≤ 255 := by
  have hlt := Tree.length_code_lt x t
  rw [buildTree_leafCount h] at hlt
  have := length_le_256_of_nodup hE
  omega

/-- Settles O44: the tree has the table's bytes and one leaf an entry, and no code begins another. -/
theorem codesArePrefixFree : Obligations.CodesArePrefixFree := by
  refine ⟨fun E t hE ht => ?_, fun x y l r =>
    ⟨Tree.occurs_leaf, Tree.occurs_node, Tree.code_leaf x x, Tree.code_left, fun hl _ => Tree.code_right hl⟩⟩
  have hocc := buildTree_occurs_iff ht
  have hleaves := buildTree_leafCount ht
  have hlt x := Tree.length_code_lt x t
  rw [hleaves] at hlt
  refine ⟨hocc, fun htwo x hx => ⟨Tree.length_code_pos (hleaves ▸ htwo), Nat.le_sub_one_of_lt (hlt x),
    buildTree_length_code_le hE ht x, fun y hy hne hpre => ?_⟩, fun hone x _ => ?_⟩
  · exact hne (Tree.eq_of_code_prefix ((hocc x).2 hx) ((hocc y).2 hy) hpre)
  · exact List.length_eq_zero_iff.1 (Nat.lt_one_iff.1 (hone ▸ hlt x))

end Sys2Proof.Machine
end

section
/-! The Huffman encoding and its decoder (41_huffman.md R213 to R218): the form of an encoding, what the walk decodes
from codes, and that decoding inverts encoding. -/

namespace Sys2Proof.Machine

/-! ### The encoding of a block -/

/-- A block whose pass builds no tree is empty. -/
theorem eq_nil_of_buildTree_none {block : List Byte} (h : buildTree (freqPass block) = none) : block = [] := by
  refine List.eq_nil_iff_forall_not_mem.2 fun x hx => ?_
  obtain ⟨t, ht, -⟩ := buildTree_occurs (E := freqPass block) fun hnil =>
    List.ne_nil_of_mem (mem_map_fst_freqPass.2 hx) (by rw [hnil, List.map_nil])
  cases h.symm.trans ht

/-- The bytes of a block are the leaves of its tree. -/
theorem occurs_iff_mem_block {block : List Byte} {t : Tree} (h : buildTree (freqPass block) = some t) (x : Byte) :
    t.occurs x = true ↔ x ∈ block :=
  (buildTree_occurs_iff h x).trans mem_map_fst_freqPass

/-- A block whose tree is one leaf is one byte repeated (R214, R217). -/
theorem eq_replicate_of_buildTree_leaf {block : List Byte} {b : Byte}
    (h : buildTree (freqPass block) = some (.leaf b)) :
    1 ≤ block.length ∧ block = List.replicate block.length b :=
  have hmem x := (occurs_iff_mem_block h x).symm.trans Tree.occurs_leaf
  ⟨List.length_pos_of_mem ((hmem b).2 rfl), List.eq_replicate_of_mem fun x hx => (hmem x).1 hx⟩

/-- The codes of a block have at most 255 bits a byte (R212). -/
theorem length_codeBits_le (block : List Byte) :
    (codeBits (buildTree (freqPass block)) block).length ≤ block.length * 255 := by
  cases h : buildTree (freqPass block) with
  | none => exact Nat.zero_le _
  | some t =>
    rw [codeBits, List.length_flatMap, ← List.length_map (as := block), ← smul_eq_mul]
    refine List.sum_le_card_nsmul _ _ fun k hk => ?_
    obtain ⟨x, -, rfl⟩ := List.mem_map.1 hk
    exact buildTree_length_code_le (freqPass_bytes_nodup block) h x

/-- The bit count of a block fits its word. -/
theorem length_codeBits_lt {block : List Byte} (h : block.length < 2 ^ 56) :
    (codeBits (buildTree (freqPass block)) block).length < 2 ^ 64 :=
  (length_codeBits_le block).trans_lt (by omega)

/-- The codes under a one-leaf tree are empty (R217). -/
theorem codeBits_leaf (b : Byte) (block : List Byte) : codeBits (some (.leaf b)) block = [] := by
  simp [codeBits]

/-- Settles O46: the pass is empty or one entry, whose tree is a leaf, so that there are no bits. -/
theorem specialHuffmanEncodings : Obligations.SpecialHuffmanEncodings := by
  refine ⟨by decide, fun b n hn => ?_⟩
  have htree : buildTree [(b, n)] = some (.leaf b) := rfl
  rw [hufEncode, freqPass_replicate b hn, htree, codeBits_leaf]
  rfl

/-! ### The form of the decoder's input -/

/-- A stream in form is decoded under its sorted table (R215). -/
theorem hufDecode_of_form {w T body : List Word} {nb : Word} (cap : Nat) (h : HuffmanForm w T nb body) :
    hufDecode cap w = decodeBits (sortEntries (T.map entryOfWord)) cap (bitsOfWords body nb.toNat) := by
  obtain ⟨rfl, hlen, hcount, hbytes, hbody⟩ := h
  have hn : (BitVec.ofNat 64 T.length).toNat = T.length := by
    rw [BitVec.toNat_ofNat, Nat.mod_eq_of_lt (by omega)]
  have hzero : ¬ ((T.map entryOfWord).any fun e => e.2 == 0) = true := by
    simp only [List.any_map, List.any_eq_true, Function.comp_apply, beq_iff_eq, entryOfWord_snd]
    rintro ⟨x, hx, h0⟩
    exact hcount x hx (by simpa using h0)
  have hnodup : ((sortEntries (T.map entryOfWord)).map (·.1)).Nodup := by
    rw [((sortEntries_perm _).map _).nodup_iff, List.map_map]
    exact hbytes
  have hceil : body.length = ceilDiv nb.toNat 64 := hbody
  have htake : (T ++ nb :: body).take T.length = T := List.take_left
  have hget : (T ++ nb :: body).getD T.length 0 = nb := by simp
  have hdrop : (T ++ nb :: body).drop (T.length + 1) = body := by simp
  rw [List.cons_append]
  simp only [hufDecode, hn, htake, hget, hdrop]
  rw [if_neg (by omega), if_neg (by simp), if_neg hzero, if_neg (not_not.2 hnodup), if_neg (not_not.2 hceil)]

/-- The encoding of a block is in form (R213, R215). -/
theorem huffmanForm_hufEncode {block : List Byte} (h : block.length < 2 ^ 56) :
    HuffmanForm (hufEncode block) ((freqPass block).map freqWord)
      (BitVec.ofNat 64 (codeBits (buildTree (freqPass block)) block).length)
      (wordsOfBits (codeBits (buildTree (freqPass block)) block)) := by
  have hread := map_entryOfWord_freqWord (freqPass_count_lt h)
  refine ⟨by simp [hufEncode, freqTable], ?_, fun w hw => ?_, ?_, (length_wordsOfBits _).trans ?_⟩
  · rw [List.length_map]
    exact length_le_256_of_nodup (freqPass_bytes_nodup block)
  · have hmem : entryOfWord w ∈ freqPass block := hread ▸ List.mem_map_of_mem hw
    have hcount : 1 ≤ (entryOfWord w).2 := (mem_freqPass.1 hmem).2
    rw [entryOfWord_snd] at hcount
    simpa using Nat.one_le_iff_ne_zero.1 hcount
  · have hbytes := freqPass_bytes_nodup block
    rw [← hread, List.map_map] at hbytes
    exact hbytes
  · rw [BitVec.toNat_ofNat, Nat.mod_eq_of_lt (length_codeBits_lt h)]
    rfl

/-! ### The walk -/

/-- The walk as it arrives at a tree: a leaf's byte is emitted, if it fits, and the walk goes on at the root; at an
inner node it goes on from there (R215). -/
def walkFrom (root : Tree) (cap : Nat) (bits : BitSeq) (depth n : Nat) : Tree → Except ErrorCode (List Byte)
  | .leaf s => if cap < n + 1 then .error .capacity else (walk root cap bits root 0 (n + 1)).map (s :: ·)
  | .node l r => walk root cap bits (.node l r) depth n

/-- A bit takes the walk to a subtree, bit 1 to the right (R215). -/
theorem walk_cons (root : Tree) (cap : Nat) (b : Bool) (bits : BitSeq) (l r : Tree) (depth n : Nat) :
    walk root cap (b :: bits) (.node l r) depth n =
      walkFrom root cap bits (depth + 1) n (if b then r else l) := by
  rw [walk]
  cases (if b then r else l) <;> rfl

/-- The code of a byte leads the walk to the byte's leaf. -/
theorem walkFrom_code {root t : Tree} {cap : Nat} {x : Byte} (hx : t.occurs x = true) (bits : BitSeq) (depth n : Nat) :
    walkFrom root cap (t.code x ++ bits) depth n t = walkFrom root cap bits depth n (.leaf x) := by
  induction t generalizing depth with
  | leaf y => rw [Tree.occurs_leaf.1 hx, Tree.code_leaf, List.nil_append]
  | node l r ihl ihr =>
    rcases Tree.code_node_cases hx with ⟨hl, hcode⟩ | ⟨-, hr, hcode⟩ <;> rw [hcode]
    · exact (walk_cons ..).trans (ihl hl _)
    · exact (walk_cons ..).trans (ihr hr _)

/-- The walk decodes the codes of bytes of the tree (R215). -/
theorem walk_codeBits {l r : Tree} {cap : Nat} {block : List Byte} {n : Nat}
    (hocc : ∀ x ∈ block, (Tree.node l r).occurs x = true) (hcap : n + block.length ≤ cap) :
    walk (.node l r) cap (codeBits (some (.node l r)) block) (.node l r) 0 n = .ok block := by
  induction block generalizing n with
  | nil => rfl
  | cons x block ih =>
    obtain ⟨hx, hblock⟩ := List.forall_mem_cons.1 hocc
    rw [List.length_cons] at hcap
    calc walk (.node l r) cap (codeBits (some (.node l r)) (x :: block)) (.node l r) 0 n
        = walkFrom (.node l r) cap (codeBits (some (.node l r)) block) 0 n (.leaf x) := walkFrom_code hx _ 0 n
      _ = (walk (.node l r) cap (codeBits (some (.node l r)) block) (.node l r) 0 (n + 1)).map (x :: ·) :=
          if_neg (by omega)
      _ = .ok (x :: block) := by rw [ih hblock (by omega)]; rfl

/-- Decoding the codes of a block under its own table gives the block (R215, R217). -/
theorem decodeBits_codeBits {block : List Byte} {cap : Nat} (h : block.length ≤ cap) :
    decodeBits (freqPass block) cap (codeBits (buildTree (freqPass block)) block) = .ok block := by
  unfold decodeBits
  cases ht : buildTree (freqPass block) with
  | none =>
    cases eq_nil_of_buildTree_none ht
    rfl
  | some t =>
    cases t with
    | leaf b =>
      obtain ⟨hpos, hrep⟩ := eq_replicate_of_buildTree_leaf ht
      have hpass : freqPass block = [(b, block.length)] := by
        rw [← freqPass_replicate b hpos, ← hrep]
      simp [codeBits_leaf, hpass, h.not_gt, ← hrep]
    | node l r =>
      exact walk_codeBits (fun x hx => (occurs_iff_mem_block ht x).2 hx) (by omega)

/-- Settles O45: an encoding is in form, its table reads back, and the codes decode under the table. -/
theorem huffmanRoundTrip : Obligations.HuffmanRoundTrip := by
  intro block cap hcap hlen
  rw [hufDecode_of_form cap (huffmanForm_hufEncode hlen), map_entryOfWord_freqWord (freqPass_count_lt hlen),
    sortEntries_freqPass, BitVec.toNat_ofNat, Nat.mod_eq_of_lt (length_codeBits_lt hlen), bitsOfWords_wordsOfBits,
    decodeBits_codeBits hcap]

end Sys2Proof.Machine
end

section
/-! The word-packing transform of the LZW codec (42_lzw.md R263 to R269): the stride's thresholds, the bits of a slot,
and that unpacking inverts packing. -/

namespace Sys2Proof.Machine

/-! ### The stride -/

/-- Settles O51: each range lies between two thresholds of R263. -/
theorem strideIsTheLargestThatFits : Obligations.StrideIsTheLargestThatFits := by
  intro m
  unfold chooseStride
  refine ⟨fun h => ?_, fun h h' => ?_, fun h h' => ?_, fun h => ?_⟩
  · rw [if_pos (by omega)]
  · rw [if_neg (by omega), if_pos (by omega)]
  · rw [if_neg (by omega), if_neg (by omega), if_pos (by omega)]
  · rw [if_neg (by omega), if_neg (by omega), if_neg (by omega)]

/-- The stride of a maximum with bit 63 clear is one of the four, and leaves the top bit of a slot clear (R268). -/
theorem chooseStride_fits {m : Nat} (hm : m < 2 ^ 63) :
    chooseStride m ∈ [1, 2, 4, 8] ∧ m < 2 ^ (64 / chooseStride m - 1) := by
  obtain ⟨h8, h4, h2, h1⟩ := strideIsTheLargestThatFits m
  rcases (by omega : m ≤ 126 ∨ (127 ≤ m ∧ m ≤ 32766) ∨ (32767 ≤ m ∧ m ≤ 2147483646) ∨ 2147483647 ≤ m) with
    h | ⟨h, h'⟩ | ⟨h, h'⟩ | h
  · rw [h8 h]
    exact ⟨by decide, by omega⟩
  · rw [h4 h h']
    exact ⟨by decide, by omega⟩
  · rw [h2 h h']
    exact ⟨by decide, by omega⟩
  · rw [h1 h]
    exact ⟨by decide, hm⟩

theorem le_maxWord {v : List Word} {x : Word} (h : x ∈ v) : x.toNat ≤ maxWord v := by
  induction v with
  | nil => simp at h
  | cons y v ih =>
    rcases List.mem_cons.1 h with rfl | h
    · exact Nat.le_max_left ..
    · exact (ih h).trans (Nat.le_max_right ..)

theorem maxWord_lt {v : List Word} {n : Nat} (hn : 0 < n) (h : ∀ x ∈ v, x.toNat < n) : maxWord v < n := by
  induction v with
  | nil => exact hn
  | cons y v ih =>
    obtain ⟨hy, hv⟩ := List.forall_mem_cons.1 h
    exact max_lt hy (ih hv)

/-! ### Slots -/

theorem getLsbD_mask {n : Nat} (hn : n ≤ 64) (i : Nat) : (mask n).getLsbD i = decide (i < n) := by
  rw [mask, BitVec.getLsbD_ofNat, Nat.testBit_two_pow_sub_one, ← Bool.decide_and, decide_eq_decide]
  omega

/-- An element put in slot t has its low bits there, and no bit in another slot. -/
theorem getLsbD_element_in_slot (x : Word) {sl t p i : Nat} (ht : (t + 1) * sl ≤ 64) (hp : (p + 1) * sl ≤ 64)
    (hi : i < sl) :
    ((x &&& mask sl) <<< (64 - (t + 1) * sl)).getLsbD (64 - (p + 1) * sl + i) =
      (decide (p = t) && x.getLsbD i) := by
  have hsl : sl ≤ 64 := (Nat.le_mul_of_pos_left sl t.succ_pos).trans ht
  have hword : 64 - (p + 1) * sl + i < 64 := by rw [Nat.add_mul] at *; omega
  rw [BitVec.getLsbD_shiftLeft, BitVec.getLsbD_and, getLsbD_mask hsl]
  rcases Nat.lt_trichotomy p t with h | rfl | h
  · have : (p + 1) * sl ≤ t * sl := Nat.mul_le_mul_right sl h
    rw [Nat.add_mul t] at *
    simp only [h.ne, show ¬ 64 - (p + 1) * sl + i - (64 - (t * sl + 1 * sl)) < sl by omega, decide_false,
      Bool.and_false, Bool.false_and]
  · simp [hword, hi]
  · have : (t + 1) * sl ≤ p * sl := Nat.mul_le_mul_right sl h
    rw [Nat.add_mul p] at *
    simp only [h.ne', show 64 - (p * sl + 1 * sl) + i < 64 - (t + 1) * sl by omega, decide_true, Bool.not_true,
      Bool.and_false, Bool.false_and, decide_false]

/-- Elements packed from slot t on: slot p holds the low bits of element p - t, and 0 before slot t and past the last
element (R264, R265). -/
theorem getLsbD_packSlots (xs : List Word) {sl t p i : Nat} (ht : (t + xs.length) * sl ≤ 64) (hp : (p + 1) * sl ≤ 64)
    (hi : i < sl) :
    (packSlots sl t xs).getLsbD (64 - (p + 1) * sl + i) = (decide (t ≤ p) && (xs.getD (p - t) 0).getLsbD i) := by
  induction xs generalizing t with
  | nil => simp [packSlots]
  | cons x xs ih =>
    rw [List.length_cons, ← Nat.add_assoc, Nat.add_right_comm] at ht
    have hslot : (t + 1) * sl ≤ 64 := (Nat.mul_le_mul_right sl (Nat.le_add_right ..)).trans ht
    rw [packSlots, BitVec.getLsbD_or, getLsbD_element_in_slot x hslot hp hi, ih ht]
    rcases Nat.lt_trichotomy p t with h | rfl | h
    · simp [h.ne, show ¬ t + 1 ≤ p by omega, show ¬ t ≤ p by omega]
    · simp
    · obtain ⟨k, rfl⟩ := Nat.exists_eq_add_of_lt h
      simp [h.ne', show t + k + 1 - t = k + 1 by omega, show t + k + 1 - (t + 1) = k by omega,
        show t ≤ t + k + 1 by omega]

/-- Unpacking a slot copies its low bits and spreads its top bit (R267). -/
theorem getLsbD_unpackedSlot (w : Word) {sl t i : Nat} (ht : (t + 1) * sl ≤ 64) (hsl : 0 < sl) (hi : i < 64) :
    ((w <<< (t * sl)).sshiftRight (64 - sl)).getLsbD i = w.getLsbD (64 - (t + 1) * sl + min i (sl - 1)) := by
  rw [Nat.add_mul] at *
  rw [BitVec.getLsbD_sshiftRight, BitVec.msb_eq_getLsbD_last, BitVec.getLsbD_shiftLeft, BitVec.getLsbD_shiftLeft]
  have hlow : 64 - (t * sl + 1 * sl) + min i (sl - 1) = min (64 - sl + i) 63 - t * sl := by omega
  rw [hlow]
  split
  · next h =>
    rw [Nat.min_eq_left (by omega)]
    simp [show ¬ 64 ≤ i by omega, h, show ¬ 64 - sl + i < t * sl by omega]
  · next h =>
    rw [Nat.min_eq_right (by omega)]
    simp [show ¬ 64 ≤ i by omega, show ¬ 63 < t * sl by omega]

/-- An element that leaves the top bit of its slot clear unpacks to itself (R268). -/
theorem unpackedSlot_packSlots {xs : List Word} {x : Word} {sl t : Nat} (hlen : xs.length * sl ≤ 64) (hsl : 0 < sl)
    (hx : xs[t]? = some x) (hfit : x.toNat < 2 ^ (sl - 1)) :
    (packSlots sl 0 xs <<< (t * sl)).sshiftRight (64 - sl) = x := by
  have ht : t < xs.length := (List.getElem?_eq_some_iff.1 hx).1
  have hslot : (t + 1) * sl ≤ 64 := (Nat.mul_le_mul_right sl ht).trans hlen
  refine BitVec.eq_of_getLsbD_eq fun i hi => ?_
  rw [getLsbD_unpackedSlot _ hslot hsl hi, getLsbD_packSlots xs (by simpa using hlen) hslot (by omega)]
  simp only [Nat.zero_le, decide_true, Bool.true_and, Nat.sub_zero, List.getD_eq_getElem?_getD, hx, Option.getD_some]
  rcases Nat.lt_or_ge i (sl - 1) with h | h
  · rw [Nat.min_eq_left h.le]
  · rw [Nat.min_eq_right h, BitVec.getLsbD, BitVec.getLsbD, Nat.testBit_lt_two_pow hfit,
      Nat.testBit_lt_two_pow (hfit.trans_le (Nat.pow_le_pow_right (by decide) h))]

/-! ### Sequences -/

@[simp] theorem length_slotsOfWord (st : Nat) (w : Word) : (slotsOfWord st w).length = st := by simp [slotsOfWord]

@[simp] theorem length_packWords (st : Nat) (v : List Word) : (packWords st v).length = ceilDiv v.length st := by
  simp [packWords]

/-- Slot t of word j stands at place j * st + t of the slots. -/
theorem getElem?_flatMap_slotsOfWord {ws : List Word} {st j t : Nat} {w : Word} (hw : ws[j]? = some w) (ht : t < st) :
    (ws.flatMap (slotsOfWord st))[j * st + t]? = some ((w <<< (t * (64 / st))).sshiftRight (64 - 64 / st)) := by
  induction ws generalizing j with
  | nil => simp at hw
  | cons x ws ih =>
    rw [List.flatMap_cons]
    cases j with
    | zero =>
      cases hw
      rw [List.getElem?_append_left (by simpa using ht)]
      simp [slotsOfWord, ht]
    | succ j =>
      rw [Nat.succ_mul, List.getElem?_append_right (by simp; omega), length_slotsOfWord,
        show j * st + st + t - st = j * st + t by omega]
      exact ih hw

theorem stride_slots : ∀ st ∈ [1, 2, 4, 8], 0 < st ∧ 0 < 64 / st ∧ st * (64 / st) ≤ 64 := by decide

/-- The word that holds element i is one of the packed words. -/
theorem div_lt_ceilDiv {i n st : Nat} (hst : 0 < st) (hi : i < n) : i / st < ceilDiv n st :=
  calc i / st < i / st + 1 := Nat.lt_succ_self _
    _ = (i + st) / st := (Nat.add_div_right i hst).symm
    _ ≤ (n + st - 1) / st := Nat.div_le_div_right (by omega)

/-- Packed words give their elements back when each element leaves the top bit of its slot clear (R268). -/
theorem take_slots_packWords {st : Nat} {v : List Word} (hst : st ∈ [1, 2, 4, 8])
    (hfit : ∀ x ∈ v, x.toNat < 2 ^ (64 / st - 1)) :
    ((packWords st v).flatMap (slotsOfWord st)).take v.length = v := by
  obtain ⟨hpos, hsl, hword⟩ := stride_slots st hst
  refine List.ext_getElem? fun i => ?_
  rw [List.getElem?_take]
  split
  · next hi =>
    have hj := div_lt_ceilDiv hpos hi
    have hw : (packWords st v)[i / st]? = some (packSlots (64 / st) 0 ((v.drop (i / st * st)).take st)) := by
      simp [packWords, hj]
    have hplace := getElem?_flatMap_slotsOfWord hw (Nat.mod_lt i hpos)
    rw [Nat.div_add_mod'] at hplace
    rw [hplace, List.getElem?_eq_getElem hi]
    refine congrArg some (unpackedSlot_packSlots ?_ hsl ?_ (hfit _ (List.getElem_mem hi)))
    · exact (Nat.mul_le_mul_right _ (List.length_take_le ..)).trans hword
    · rw [List.getElem?_take_of_lt (Nat.mod_lt i hpos), List.getElem?_drop, Nat.div_add_mod',
        List.getElem?_eq_getElem hi]
  · next hi => exact (List.getElem?_eq_none (by omega)).symm

/-- LzwPack of a non-empty sequence with bit 63 clear (R265). -/
theorem lzwPack_of_ne_nil {v : List Word} (hv : v ≠ []) (h : ∀ x ∈ v, x.getLsbD 63 = false) :
    lzwPack v = .ok (BitVec.ofNat 64 (chooseStride (maxWord v)) :: BitVec.ofNat 64 v.length ::
      packWords (chooseStride (maxWord v)) v) := by
  have hclear : v.any (·.msb) = false := by simpa [BitVec.msb_eq_getLsbD_last] using h
  simp [lzwPack, hclear, hv]

/-- LzwUnpack of words with a right header (R267). -/
theorem lzwUnpack_of_header {st cnt : Nat} {pw : List Word} (hst : st ∈ [1, 2, 4, 8]) (hcnt : cnt < 2 ^ 64)
    (hpw : pw.length = ceilDiv cnt st) :
    lzwUnpack (BitVec.ofNat 64 st :: BitVec.ofNat 64 cnt :: pw) =
      .ok ((pw.flatMap (slotsOfWord st)).take cnt) := by
  have hst' : (BitVec.ofNat 64 st).toNat = st :=
    (by decide : ∀ n ∈ [1, 2, 4, 8], (BitVec.ofNat 64 n).toNat = n) st hst
  have hcnt' : (BitVec.ofNat 64 cnt).toNat = cnt := by simpa using hcnt
  simp only [lzwUnpack, hst', hcnt', hst, hpw, not_true, if_false, ne_eq]

/-- Settles O52: the stride of the maximum leaves the top bit of every slot clear, so that sign extension gives each
element back. -/
theorem unpackInvertsPack : Obligations.UnpackInvertsPack := by
  intro v hclear hlen
  rcases eq_or_ne v [] with rfl | hv
  · exact ⟨[], rfl, rfl⟩
  · have hlt : ∀ x ∈ v, x.toNat < 2 ^ 63 := fun x hx => by
      have := BitVec.msb_eq_false_iff_two_mul_lt.1 ((BitVec.msb_eq_getLsbD_last x).trans (hclear x hx))
      omega
    obtain ⟨hst, hmax⟩ := chooseStride_fits (maxWord_lt (by decide) hlt)
    refine ⟨_, lzwPack_of_ne_nil hv hclear, ?_⟩
    rw [lzwUnpack_of_header hst hlen (length_packWords ..),
      take_slots_packWords hst fun x hx => (le_maxWord hx).trans_lt hmax]

end Sys2Proof.Machine
end

section
/-! The LZW scan (42_lzw.md R260 to R262): what its dictionary holds, that it cuts the block greedily, and the bounds of
its codes. -/

namespace Sys2Proof.Machine

/-! ### The dictionary's strings -/

/-- The entries made so far depend on the emitted strings and on the first byte of the current one only. -/
theorem dictString_append_congr {past tail tail' : List (List Byte)} {cur cur' : List Byte} {k : Nat}
    (hk : k < 256 + past.length) (hcur : cur.take 1 = cur'.take 1) :
    dictString (past ++ cur :: tail) k = dictString (past ++ cur' :: tail') k := by
  rcases Nat.lt_or_ge k 256 with hbyte | hentry
  · rw [dictString_byte hbyte, dictString_byte hbyte]
  · obtain ⟨j, rfl⟩ := Nat.exists_eq_add_of_le hentry
    have hj : j < past.length := by omega
    rw [dictString_entry, dictString_entry]
    simp only [List.getD_eq_getElem?_getD, List.getElem?_append_left hj]
    congr 1
    rcases Nat.lt_or_ge (j + 1) past.length with hlt | hge
    · simp only [List.getElem?_append_left hlt]
    · simp [show j + 1 = past.length by omega, hcur]

/-- The entry that a string makes with the one after it. -/
theorem dictString_append_cons_cons (past tail : List (List Byte)) (cur next : List Byte) :
    dictString (past ++ cur :: next :: tail) (256 + past.length) = cur ++ next.take 1 := by
  simp [dictString_entry, List.getD_eq_getElem?_getD]

theorem Dict.codeOf_nil_dict {str : List Byte} {k : Nat} (h : Dict.codeOf [] str = some k) :
    ∃ x, str = [x] ∧ k = x.toNat := by
  unfold Dict.codeOf at h
  split at h
  · next x => exact ⟨x, rfl, (Option.some.inj h).symm⟩
  · simp at h

/-- A new entry of two bytes or more is found, and hides no other string. -/
theorem Dict.codeOf_cons (D : Dict) {e str : List Byte} {n : Nat} (he : 2 ≤ e.length) :
    Dict.codeOf ((e, n) :: D) str = if str = e then some n else D.codeOf str := by
  unfold Dict.codeOf
  split
  · next x =>
    rw [if_neg]
    rintro rfl
    simp at he
  · rw [List.lookup_cons]
    by_cases h : str = e
    · simp [h]
    · simp [h, beq_false_of_ne h]

/-! ### The scan's invariant -/

/-- The dictionary of a scan that has emitted the strings `past` and has matched `cur`: its codes stand for its strings,
and every beginning of an entry, or of `cur`, has a code (R261). -/
structure ScanInv (past : List (List Byte)) (D : Dict) (cur : List Byte) : Prop where
  cur_ne_nil : cur ≠ []
  sound : ∀ str k, D.codeOf str = some k → k < 256 + past.length ∧ dictString (past ++ [cur]) k = str
  entries_closed : ∀ j < past.length, ∀ p, p ≠ [] → p <+: dictString (past ++ [cur]) (256 + j) →
    (D.codeOf p).isSome
  cur_closed : ∀ p, p ≠ [] → p <+: cur → (D.codeOf p).isSome

/-- One byte is in every dictionary, and so is its only beginning. -/
theorem isSome_codeOf_of_prefix_singleton (D : Dict) {p : List Byte} {c : Byte} (hp : p ≠ []) (h : p <+: [c]) :
    (D.codeOf p).isSome := by
  obtain ⟨x, p, rfl⟩ := List.exists_cons_of_ne_nil hp
  obtain ⟨rfl, rfl⟩ : x = c ∧ p = [] := by simpa using h
  rfl

theorem scanInv_init (c : Byte) : ScanInv [] [] [c] where
  cur_ne_nil := by simp
  sound str k h := by
    obtain ⟨x, rfl, rfl⟩ := Dict.codeOf_nil_dict h
    exact ⟨x.isLt, by simp [dictString_byte x.isLt]⟩
  entries_closed j hj := absurd hj (Nat.not_lt_zero j)
  cur_closed _ := isSome_codeOf_of_prefix_singleton _

section
variable {past : List (List Byte)} {D : Dict} {cur : List Byte} {c : Byte}

/-- What the invariant says of a known code does not depend on what follows the current string's first byte. -/
theorem ScanInv.sound_append {next : List Byte} {tail : List (List Byte)} {str : List Byte} {k : Nat}
    (h : ScanInv past D cur) (hk : D.codeOf str = some k) (hnext : next.take 1 = cur.take 1) :
    k < 256 + past.length ∧ dictString (past ++ next :: tail) k = str := by
  obtain ⟨hlt, hstr⟩ := h.sound str k hk
  exact ⟨hlt, (dictString_append_congr hlt hnext).trans hstr⟩

theorem ScanInv.entries_closed_append {next : List Byte} {tail : List (List Byte)} {j : Nat} {p : List Byte}
    (h : ScanInv past D cur) (hj : j < past.length) (hnext : next.take 1 = cur.take 1) (hp : p ≠ [])
    (hpre : p <+: dictString (past ++ next :: tail) (256 + j)) : (D.codeOf p).isSome := by
  rw [dictString_append_congr (by omega) hnext] at hpre
  exact h.entries_closed j hj p hp hpre

theorem take_one_append {cur : List Byte} (h : cur ≠ []) (str : List Byte) : (cur ++ str).take 1 = cur.take 1 :=
  List.take_append_of_le_length (List.length_pos_iff.2 h)

/-- A match that has a code with the next byte keeps the invariant. -/
theorem ScanInv.extend (h : ScanInv past D cur) (hc : (D.codeOf (cur ++ [c])).isSome) :
    ScanInv past D (cur ++ [c]) where
  cur_ne_nil := by simp
  sound _ _ hk := h.sound_append hk (take_one_append h.cur_ne_nil [c])
  entries_closed _ hj _ := h.entries_closed_append hj (take_one_append h.cur_ne_nil [c])
  cur_closed p hp hpre := by
    rcases List.prefix_concat_iff.1 hpre with rfl | hpre
    · exact hc
    · exact h.cur_closed p hp hpre

/-- Emitting a string and entering it with the byte after it keeps the invariant. -/
theorem ScanInv.emit (h : ScanInv past D cur) :
    ScanInv (past ++ [cur]) ((cur ++ [c], 256 + past.length) :: D) [c] := by
  have hentry : 2 ≤ (cur ++ [c]).length := by
    have := List.length_pos_iff.2 h.cur_ne_nil
    simpa
  have hmono : ∀ p, (D.codeOf p).isSome → (Dict.codeOf ((cur ++ [c], 256 + past.length) :: D) p).isSome := by
    intro p hp
    rw [Dict.codeOf_cons D hentry]
    split
    · rfl
    · exact hp
  have hnew : dictString (past ++ cur :: [[c]]) (256 + past.length) = cur ++ [c] :=
    dictString_append_cons_cons past [] cur [c]
  constructor
  case cur_ne_nil => simp
  case cur_closed => exact fun _ => isSome_codeOf_of_prefix_singleton _
  case sound =>
    intro str k hk
    rw [Dict.codeOf_cons D hentry] at hk
    simp only [List.length_append, List.length_singleton, List.append_assoc, List.singleton_append]
    split at hk
    · next hstr =>
      obtain rfl := Option.some.inj hk
      exact ⟨by omega, hnew.trans hstr.symm⟩
    · obtain ⟨hlt, hstr⟩ := h.sound_append hk rfl
      exact ⟨by omega, hstr⟩
  case entries_closed =>
    intro j hj p hp hpre
    simp only [List.length_append, List.length_singleton, List.append_assoc, List.singleton_append] at hj hpre
    rcases Nat.lt_succ_iff_lt_or_eq.1 hj with hj | rfl
    · exact hmono p (h.entries_closed_append hj rfl hp hpre)
    · rw [hnew] at hpre
      rcases List.prefix_concat_iff.1 hpre with rfl | hpre
      · simp [Dict.codeOf_cons D hentry]
      · exact hmono p (h.cur_closed p hp hpre)

/-! ### The cut -/

/-- The codes cut the rest of a block into `strings` after the strings `past`: each code is below the next free one and
stands for its string, and no entry made before that begins the rest is longer (R261). -/
structure GreedyCut (past strings : List (List Byte)) (codes : List Nat) : Prop where
  length_eq : strings.length = codes.length
  code : ∀ i k, codes[i]? = some k →
    k < 256 + past.length + i ∧ strings[i]? = some (dictString (past ++ strings) k)
  longest : ∀ i j, j < past.length + i → i < strings.length →
    dictString (past ++ strings) (256 + j) <+: (strings.drop i).flatten →
    (dictString (past ++ strings) (256 + j)).length ≤ (strings.getD i []).length

theorem greedyCut_nil (past : List (List Byte)) : GreedyCut past [] [] where
  length_eq := rfl
  code := by simp
  longest := by simp

/-- A string that its code stands for, and that no entry outruns, goes before a cut. -/
theorem GreedyCut.cons {strings : List (List Byte)} {codes : List Nat} {k : Nat}
    (h : GreedyCut (past ++ [cur]) strings codes) (hk : k < 256 + past.length)
    (hcur : dictString (past ++ cur :: strings) k = cur)
    (hlongest : ∀ j < past.length, dictString (past ++ cur :: strings) (256 + j) <+: cur ++ strings.flatten →
      (dictString (past ++ cur :: strings) (256 + j)).length ≤ cur.length) :
    GreedyCut past (cur :: strings) (k :: codes) := by
  obtain ⟨hlen, hcode, hmax⟩ := h
  simp only [List.length_append, List.length_singleton, List.append_assoc, List.singleton_append] at hcode hmax
  refine ⟨by simp [hlen], fun i k' hk' => ?_, fun i j hj hi hpre => ?_⟩
  · cases i with
    | zero =>
      cases hk'
      exact ⟨hk, by simp [hcur]⟩
    | succ i =>
      obtain ⟨hlt, hstr⟩ := hcode i k' hk'
      exact ⟨by omega, hstr⟩
  · cases i with
    | zero => exact hlongest j hj hpre
    | succ i => exact hmax i j (by omega) (by simpa using hi) hpre

/-- A beginning of the rest that has no code outruns every entry that begins the rest. -/
theorem ScanInv.longest {tail : List (List Byte)} {rest : List Byte} {j : Nat}
    (h : ScanInv past D cur) (hc : ¬ (D.codeOf (cur ++ [c])).isSome) (hj : j < past.length)
    (hpre : dictString (past ++ cur :: tail) (256 + j) <+: cur ++ c :: rest) :
    (dictString (past ++ cur :: tail) (256 + j)).length ≤ cur.length := by
  by_contra hlt
  have hc' : cur ++ [c] <+: cur ++ c :: rest := ⟨rest, by simp⟩
  refine hc (h.entries_closed_append hj rfl (by simp) (List.prefix_of_prefix_length_le hc' hpre ?_))
  simpa using hlt

/-- From the invariant on, a scan is a greedy cut whose first string continues the current one. -/
theorem ScanInv.greedyCut (rest : List Byte) (h : ScanInv past D cur) :
    ∃ s tail, s.take 1 = cur.take 1 ∧ (s :: tail).flatten = cur ++ rest ∧
      GreedyCut past (s :: tail) (scanLoop D (256 + past.length) cur rest) := by
  induction rest generalizing past D cur with
  | nil =>
    obtain ⟨k, hk⟩ := Option.isSome_iff_exists.1 (h.cur_closed cur h.cur_ne_nil List.prefix_rfl)
    obtain ⟨hlt, hstr⟩ := h.sound cur k hk
    refine ⟨cur, [], rfl, by simp, ?_⟩
    rw [scanLoop, if_neg h.cur_ne_nil, hk]
    exact (greedyCut_nil _).cons hlt hstr fun j _ hpre => by simpa using hpre.length_le
  | cons c rest ih =>
    rw [scanLoop]
    split
    · next hc =>
      obtain ⟨s, tail, hs, hflat, hcut⟩ := ih (h.extend hc)
      exact ⟨s, tail, hs.trans (take_one_append h.cur_ne_nil [c]), by simp [hflat], hcut⟩
    · next hc =>
      obtain ⟨s, tail, hs, hflat, hcut⟩ := ih (h.emit (c := c))
      obtain ⟨k, hk⟩ := Option.isSome_iff_exists.1 (h.cur_closed cur h.cur_ne_nil List.prefix_rfl)
      obtain ⟨hlt, hstr⟩ := h.sound_append (tail := s :: tail) hk rfl
      refine ⟨cur, s :: tail, rfl, by simp [hflat], ?_⟩
      rw [hk]
      rw [List.length_append] at hcut
      refine hcut.cons hlt hstr fun j hj hpre => ?_
      rw [hflat] at hpre
      exact h.longest hc hj hpre

end

/-! ### The whole scan -/

theorem lzwScan_cons (c : Byte) (rest : List Byte) : lzwScan (c :: rest) = scanLoop [] 256 [c] rest := rfl

theorem exists_greedyCut_lzwScan (block : List Byte) :
    ∃ strings, strings.flatten = block ∧ GreedyCut [] strings (lzwScan block) := by
  cases block with
  | nil => exact ⟨[], rfl, greedyCut_nil []⟩
  | cons c rest =>
    obtain ⟨s, tail, -, hflat, hcut⟩ := (scanInv_init c).greedyCut rest
    exact ⟨s :: tail, hflat, hcut⟩

theorem length_scanLoop_le (D : Dict) (next : Nat) (cur rest : List Byte) :
    (scanLoop D next cur rest).length ≤ rest.length + 1 := by
  induction rest generalizing D next cur with
  | nil =>
    rw [scanLoop]
    split <;> simp
  | cons c rest ih =>
    rw [scanLoop]
    split
    · exact (ih ..).trans (Nat.le_succ _)
    · exact Nat.succ_le_succ (ih ..)

theorem length_lzwScan_le (block : List Byte) : (lzwScan block).length ≤ block.length := by
  cases block with
  | nil => exact Nat.le_refl 0
  | cons c rest => exact length_scanLoop_le [] 256 [c] rest

theorem GreedyCut.codesStandFor {strings : List (List Byte)} {codes : List Nat} (h : GreedyCut [] strings codes) :
    CodesStandFor (codes.map Int.ofNat) strings := by
  refine ⟨by simp [h.length_eq], fun i k hk => ?_⟩
  simp only [List.getElem?_map, Option.map_eq_some_iff] at hk
  obtain ⟨n, hn, rfl⟩ := hk
  obtain ⟨hlt, hstr⟩ := h.code i n hn
  simp only [List.length_nil] at hlt
  exact ⟨Int.natCast_nonneg n, by simp only [Int.ofNat_eq_natCast]; omega, hstr⟩

/-- Settles O50: the scan is a greedy cut of the block. -/
theorem scanCodesAreBounded : Obligations.ScanCodesAreBounded := by
  intro block
  obtain ⟨strings, rfl, hcut⟩ := exists_greedyCut_lzwScan block
  refine ⟨⟨strings, rfl, hcut.codesStandFor, fun i j hj => hcut.longest i j (by simpa using hj)⟩,
    length_lzwScan_le _, ⟨fun hnil => ?_, fun hnil => by rw [hnil]; rfl⟩,
    fun i k hk => by simpa using (hcut.code i k hk).1⟩
  have : strings = [] := List.length_eq_zero_iff.1 (by rw [hcut.length_eq, hnil]; rfl)
  rw [this]
  rfl

end Sys2Proof.Machine
end

section
/-! The expansion of LZW codes (42_lzw.md R270 to R272): codes that stand for strings expand to the strings, and
decoding inverts encoding. -/

namespace Sys2Proof.Machine

/-! ### Codes that stand for strings -/

/-- A string that a code stands for is a byte, or continues an earlier string. -/
theorem CodesStandFor.ne_nil {codes : List Int} {strings : List (List Byte)} (h : CodesStandFor codes strings)
    {i : Nat} {s : List Byte} (hs : strings[i]? = some s) : s ≠ [] := by
  induction i using Nat.strong_induction_on generalizing s with
  | _ i ih =>
    obtain ⟨hlen, hcode⟩ := h
    have hi : i < codes.length := hlen ▸ (List.getElem?_eq_some_iff.1 hs).1
    obtain ⟨h0, hk, hstr⟩ := hcode i _ (List.getElem?_eq_getElem hi)
    obtain rfl : s = _ := Option.some.inj (hs.symm.trans hstr)
    rcases Nat.lt_or_ge codes[i].toNat 256 with hbyte | hentry
    · simp [dictString_byte hbyte]
    · obtain ⟨j, hj⟩ := Nat.exists_eq_add_of_le hentry
      have hlt : j < strings.length := by omega
      have := ih j (by omega) (List.getElem?_eq_getElem hlt)
      simp [hj, List.getD_eq_getElem?_getD, hlt, this]

/-! ### The expansion's dictionary -/

/-- The strings of the first n entries, as the expansion lists them (R270). -/
def entriesOf (strings : List (List Byte)) (n : Nat) : List (List Byte) :=
  (List.range n).map fun j => dictString strings (256 + j)

theorem stringOf_entriesOf {strings : List (List Byte)} {n k : Nat} (hk : k < 256 + n) :
    stringOf (entriesOf strings n) k = dictString strings k := by
  rcases Nat.lt_or_ge k 256 with hbyte | hentry
  · rw [stringOf, if_pos hbyte, dictString_byte hbyte]
  · obtain ⟨j, rfl⟩ := Nat.exists_eq_add_of_le hentry
    have hj : j < n := by omega
    rw [stringOf, if_neg hentry.not_gt, Nat.add_sub_cancel_left]
    simp [entriesOf, List.getD_eq_getElem?_getD, hj]

theorem entriesOf_succ {strings : List (List Byte)} {n : Nat} {cur s : List Byte} (hcur : strings[n]? = some cur)
    (hs : strings[n + 1]? = some s) : entriesOf strings n ++ [cur ++ s.take 1] = entriesOf strings (n + 1) := by
  simp [entriesOf, List.range_succ, List.getD_eq_getElem?_getD, hcur, hs]

/-- A code that stands for a string gives that string as its entry, the self-referential case included (R270). -/
theorem entryFor_entriesOf {codes : List Int} {strings : List (List Byte)} (h : CodesStandFor codes strings) {n : Nat}
    {k : Int} {cur s : List Byte} (hk : codes[n + 1]? = some k) (hcur : strings[n]? = some cur)
    (hs : strings[n + 1]? = some s) : entryFor (entriesOf strings n) cur k = some s := by
  have hlen : (entriesOf strings n).length = n := by simp [entriesOf]
  obtain ⟨h0, hle, hstr⟩ := h.2 (n + 1) k hk
  have hs' : s = dictString strings k.toNat := Option.some.inj (hs.symm.trans hstr)
  rw [entryFor, hlen]
  rcases lt_or_ge k (256 + n) with hlt | hge
  · rw [if_pos ⟨h0, hlt⟩, stringOf_entriesOf (by omega), hs']
  · obtain rfl : k = ((256 + n : Nat) : Int) := by omega
    have hself : s = cur ++ s.take 1 := by
      rw [Int.toNat_natCast, dictString_entry] at hs'
      simpa [List.getD_eq_getElem?_getD, hcur, hs] using hs'
    have hfirst : s.take 1 = cur.take 1 := by rw [hself, take_one_append (h.ne_nil hcur)]
    rw [if_neg (by omega), if_pos (by simp), ← hfirst, ← hself]

/-! ### The expansion -/

theorem flatten_take_succ {strings : List (List Byte)} {n : Nat} {s : List Byte} (hs : strings[n]? = some s) :
    (strings.take (n + 1)).flatten = (strings.take n).flatten ++ s := by
  rw [List.take_add_one, hs]
  simp

theorem length_flatten_take_le (strings : List (List Byte)) (n : Nat) :
    (strings.take n).flatten.length ≤ strings.flatten.length :=
  (List.take_sublist n strings).flatten.length_le

/-- The loop appends the strings that the codes stand for, one by one, as long as they fit (R270). -/
theorem expandLoop_of_codesStandFor {v : List Word} {strings : List (List Byte)} {cap n : Nat} {cur : List Byte}
    (h : CodesStandFor (v.map (·.toInt)) strings) (hcap : strings.flatten.length ≤ cap)
    (hcur : strings[n]? = some cur) :
    expandLoop cap (entriesOf strings n) cur (strings.take (n + 1)).flatten.length (v.drop (n + 1)) =
      .ok (strings.drop (n + 1)).flatten := by
  have hlen : strings.length = v.length := by simpa using h.1
  induction hv : v.drop (n + 1) generalizing n cur with
  | nil =>
    rw [List.drop_eq_nil_of_le (by rw [hlen]; exact List.drop_eq_nil_iff.1 hv)]
    rfl
  | cons x rest ih =>
    have hn : n + 1 < v.length := by
      by_contra hge
      rw [List.drop_eq_nil_of_le (by omega)] at hv
      cases hv
    rw [List.drop_eq_getElem_cons hn] at hv
    obtain ⟨rfl, hrest⟩ := List.cons.inj hv
    have hn' : n + 1 < strings.length := hlen ▸ hn
    have hs := List.getElem?_eq_getElem hn'
    have hentry := entryFor_entriesOf h (by simp [hn]) hcur hs (k := v[n + 1].toInt)
    have hfit := length_flatten_take_le strings (n + 2)
    rw [flatten_take_succ hs, List.length_append] at hfit
    have hloop := ih hs hrest
    rw [flatten_take_succ hs, List.length_append, ← entriesOf_succ hcur hs] at hloop
    rw [expandLoop, hentry]
    dsimp only
    rw [if_neg (by omega), hloop, List.drop_eq_getElem_cons hn']
    rfl

theorem toNat_toInt_of_nonneg {x : Word} (h : 0 ≤ x.toInt) : x.toInt.toNat = x.toNat := by
  rw [BitVec.toInt_eq_toNat_cond] at *
  split at * <;> omega

/-- Codes that stand for strings that fit expand to the strings (R270). -/
theorem lzwExpand_of_codesStandFor {v : List Word} {strings : List (List Byte)} {cap : Nat}
    (h : CodesStandFor (v.map (·.toInt)) strings) (hcap : strings.flatten.length ≤ cap) :
    lzwExpand cap v = .ok strings.flatten := by
  cases v with
  | nil =>
    rw [List.length_eq_zero_iff.1 h.1]
    rfl
  | cons x rest =>
    obtain ⟨h0, hle, hstr⟩ := h.2 0 x.toInt rfl
    rw [toNat_toInt_of_nonneg h0, dictString_byte (by have := toNat_toInt_of_nonneg h0; omega)] at hstr
    have hloop := expandLoop_of_codesStandFor h hcap hstr
    obtain ⟨s, tail, rfl⟩ : ∃ s tail, strings = s :: tail :=
      List.exists_cons_of_ne_nil fun hnil => by simp [hnil] at hstr
    obtain rfl : s = [BitVec.ofNat 8 x.toNat] := by simpa using hstr
    have hexpand : expandLoop cap [] [BitVec.ofNat 8 x.toNat] 1 rest = .ok tail.flatten := hloop
    rw [lzwExpand, if_neg (by omega)]
    simp only [hexpand]
    rfl

/-! ### The round trip -/

/-- The codes of a block within the bound of R272 are below 2^63 (R262). -/
theorem lt_of_mem_lzwScan {block : List Byte} (hlen : block.length < 2 ^ 56) {k : Nat} (hk : k ∈ lzwScan block) :
    k < 2 ^ 63 := by
  obtain ⟨i, hi, rfl⟩ := List.getElem_of_mem hk
  obtain ⟨-, hcount, -, hcode⟩ := scanCodesAreBounded block
  have := hcode i _ (List.getElem?_eq_getElem hi)
  omega

theorem getLsbD_63_of_mem_scanWords {block : List Byte} (hlen : block.length < 2 ^ 56) :
    ∀ x ∈ scanWords block, x.getLsbD 63 = false := by
  intro x hx
  obtain ⟨k, hk, rfl⟩ := List.mem_map.1 hx
  rw [BitVec.getLsbD_ofNat, Nat.testBit_lt_two_pow (lt_of_mem_lzwScan hlen hk), Bool.and_false]

theorem map_toInt_scanWords {block : List Byte} (hlen : block.length < 2 ^ 56) :
    (scanWords block).map (·.toInt) = (lzwScan block).map Int.ofNat := by
  rw [scanWords, List.map_map]
  refine List.map_congr_left fun k hk => ?_
  have := lt_of_mem_lzwScan hlen hk
  have hk' : (BitVec.ofNat 64 k).toNat = k := by rw [BitVec.toNat_ofNat]; omega
  rw [Function.comp_apply, BitVec.toInt_eq_toNat_of_lt (by omega), hk']
  rfl

/-- Settles O54: unpacking gives the scan's codes back, and these expand to the strings that the scan cut. -/
theorem lzwRoundTrip : Obligations.LzwRoundTrip := by
  intro block cap hcap hlen
  obtain ⟨⟨strings, rfl, hcodes, -⟩, hcount, -⟩ := scanCodesAreBounded block
  have hwords : (scanWords strings.flatten).length < 2 ^ 64 := by
    rw [scanWords, List.length_map]
    omega
  obtain ⟨w, hpack, hunpack⟩ := unpackInvertsPack _ (getLsbD_63_of_mem_scanWords hlen) hwords
  rw [← map_toInt_scanWords hlen] at hcodes
  exact ⟨w, _, hpack, hunpack, lzwExpand_of_codesStandFor hcodes hcap⟩

end Sys2Proof.Machine
end

section
/-! The interrupt output (60_exceptions.md R345): IRQ at acceptance, at the end of a command and after a host write to
CTRL or STATUS. -/

namespace Sys2Proof.Machine

section
variable {i : Instr} {s t u : State}

theorem State.irq_eq_true_iff (s : State) : s.irq = true ↔ s.ie = true ∧ s.status.done = true :=
  Bool.and_eq_true_iff

/-- Acceptance clears DONE (R31), so IRQ falls. -/
@[simp] theorem State.accept_irq (s : State) (c : Word) : (s.accept c).irq = false := Bool.and_false _

/-- `complete` sets DONE (R334). -/
@[simp] theorem State.completed_irq (s : State) : s.completed.irq = s.ie := Bool.and_true _

/-- `raise` sets DONE (R335). -/
@[simp] theorem State.failed_irq (s : State) (w : Bool) (e : ErrorCode) : (s.failed w e).irq = s.ie := Bool.and_true _

/-- No effect of a command reaches CTRL. -/
theorem CommandEffect.ie_eq (h : CommandEffect i s u) : u.ie = s.ie := by
  cases h <;> rfl

/-- A command that ends, with or without error, sets DONE and leaves IE. -/
theorem exec_irq (h : exec i s = .next t) : t.irq = s.ie := by
  have hend := exec_end i s
  rw [h] at hend
  cases hend with
  | failed e => exact s.failed_irq _ e
  | completed u hu => exact u.completed_irq.trans hu.ie_eq

/-- So does an illegal word. -/
theorem runWord_irq {c : Word} (h : runWord c s = .next t) : t.irq = s.ie := by
  cases hd : decode c with
  | ok i =>
    simp only [runWord, hd] at h
    exact exec_irq h
  | error d =>
    cases (runWord_error s hd).symm.trans h
    exact s.failed_irq _ _

end

/-- Settles O22: every command word ends with DONE 1 and IE kept; the host's writes set IE, clear DONE, or are accepted. -/
theorem irqFollowsDoneAndEnable : Obligations.IrqFollowsDoneAndEnable := by
  refine ⟨State.irq_eq_true_iff, fun c s t => runWord_irq, fun s v rest => ?_⟩
  refine ⟨fun hctrl => ?_, fun hstatus => ?_, fun hidle hcmd => ?_⟩
  · exact ⟨_, step_writeReg (by decide) rfl hctrl, rfl⟩
  · exact ⟨_, step_writeReg (by decide) rfl hstatus, (Bool.and_assoc s.ie s.status.done (!v.getLsbD 1)).symm⟩
  · refine ⟨State.accept { s with turns := rest } v, ?_, State.accept_irq _ v⟩
    rw [step_writeReg (off := 0) (by decide) rfl hcmd]
    exact if_neg (Bool.eq_false_iff.1 hidle)

end Sys2Proof.Machine
end

section
/-! Reset and the host's writes while a command is in flight (70_reset_and_hazards.md R370, R371, R380). -/

namespace Sys2Proof.Machine

/-- STATUS after reset reads 0 (R370). -/
@[simp] theorem Status.zero_word : Status.zero.word = 0 := rfl

@[simp] theorem Memory.read_nil (a : Nat) : Memory.read [] a = none := rfl

/-- Settles O58: the step is `State.platformReset`, which sets each field to its reset value and keeps the parameters. -/
theorem resetSetsEveryRegister : Obligations.ResetSetsEveryRegister := by
  intro s rest hturns
  refine ⟨_, step_reset hturns, ?_⟩
  simp [State.irq]

/-- An offset below IN_CAP reaches that offset of IN. -/
theorem windowAt_input {p : Params} (hp : p.windowsApart) {off : Nat} (h : off < p.inCap) :
    windowAt p (p.inBase + off) = some (.input, off) :=
  (windowAt_eq_some_iff hp).2
    ⟨⟨Nat.le_add_right _ _, Nat.add_lt_add_left h _⟩, Nat.add_sub_cancel_left ..⟩

section
variable {s : State} {off width : Nat} {v : Word} {rest : List Turn}

/-- An admitted write in the IN window, of one byte or of an aligned word, writes its bytes to IN (R88). -/
theorem step_writeIn (hp : s.params.windowsApart) (ho : off < s.params.inCap)
    (ha : width = 8 ∨ (width = 64 ∧ off % 8 = 0))
    (h : s.turns = .access (.write (s.params.inBase + off) width v) :: rest) :
    step s = State.writeIn { s with turns := rest } off (if width = 64 then leBytes v else [v.setWidth 8]) := by
  have hadm : admitted .input off width = true := admitted_iff.2 (ha.symm.imp_right fun h8 => ⟨h8, nofun⟩)
  simp only [step_access h, hostAccess, windowAt_input hp ho, hadm, if_true]
  rfl

end

/-- Settles O16: IN_LEN, ARG and IN each ask BUSY first and refuse; CTRL does not ask, STATUS keeps BUSY, and CMD only
marks LOST. -/
theorem inputWritesWhileBusyAreRefused : Obligations.InputWritesWhileBusyAreRefused := by
  intro s v rest hbusy hapart
  refine ⟨fun hinLen => ?_, fun harg => ?_, fun off width hoff hwidth hin => ?_,
    fun hctrl => ?_, fun hstatus => ?_, fun hcmd => ?_⟩
  · exact (step_writeReg (by decide) rfl hinLen).trans (if_pos hbusy)
  · exact (step_writeReg (by decide) rfl harg).trans (if_pos hbusy)
  · exact (step_writeIn hapart hoff hwidth hin).trans (if_pos hbusy)
  · exact step_writeReg (by decide) rfl hctrl
  · exact ⟨_, step_writeReg (by decide) rfl hstatus, hbusy⟩
  · exact ⟨_, cmdWriteWhileBusyIsDropped s v rest hbusy hcmd, rfl, rfl⟩

end Sys2Proof.Machine
end

section
/-! The invariant of the machine (10_state.md R31, R34, R40, R46, R49, 20_memory.md R80, R87): reset meets it, and each
way a turn changes the state keeps it. -/

namespace Sys2Proof.Machine

section
variable {i : Instr} {s t u : State}

/-! ### Reset -/

/-- An engine whose parameters the spec admits starts in a state that meets the invariant. -/
theorem State.inv_resetWith {p : Params} (hp : p.valid) : (State.resetWith p).Inv where
  params_valid := hp
  bb_count := List.length_replicate
  bb_cap b hb := by simp [List.eq_of_mem_replicate hb]
  in_wf := .nil
  in_bound := nofun
  out_wf := .nil
  out_bound := nofun
  outLen_le := Nat.zero_le _
  out_defined a ha := absurd ha (Nat.not_lt_zero a)
  err_iff := iff_of_false nofun (absurd rfl)
  errcode_le := Nat.zero_le _
  err_not_absent := nofun
  busy_iff := rfl
  current_cmd := nofun
  busy_flags := nofun

/-- Settles O59: the reference parameters are admitted. -/
theorem resetStateIsSound : Obligations.ResetStateIsSound :=
  State.inv_resetWith (by decide)

theorem State.Inv.platformReset (h : s.Inv) : s.platformReset.Inv :=
  { State.inv_resetWith h.params_valid with }

/-! ### The host's accesses -/

/-- The coming turns, the host's reads and the draws are not the invariant's. -/
theorem State.Inv.turns (h : s.Inv) (rest : List Turn) : State.Inv { s with turns := rest } :=
  { h with }

theorem State.Inv.receive (h : s.Inv) (v : Word) (n : Nat) : (s.receive v n).Inv :=
  { h with }

/-- Acceptance latches CMD with BUSY and clears the other flags (R31). -/
theorem State.Inv.accept (h : s.Inv) (c : Word) : (s.accept c).Inv :=
  { h with
    err_iff := by simp
    errcode_le := by simp
    err_not_absent := by simp
    busy_iff := rfl
    current_cmd := fun _ hc => Option.some.inj hc
    busy_flags := fun _ => ⟨rfl, rfl, rfl, rfl⟩ }

/-- A host write to STATUS clears DONE or LOST and touches no other flag (R35). -/
theorem State.Inv.hostWrite (h : s.Inv) (v : Word) : State.Inv { s with status := s.status.hostWrite v } :=
  { h with
    busy_flags := fun hbusy => by
      obtain ⟨hdone, hrest⟩ := h.busy_flags hbusy
      exact ⟨by simp [hdone], hrest⟩ }

theorem State.Inv.writeReg (h : s.Inv) {v : Word} {r : HostReg} (ht : s.writeReg v r = .next t) : t.Inv := by
  cases r with
  | cmd =>
    simp only [State.writeReg] at ht
    split at ht <;> cases ht
    · exact { h with }
    · exact h.accept v
  | inLen | arg =>
    simp only [State.writeReg] at ht
    split at ht <;> cases ht
    exact { h with }
  | status => cases ht; exact h.hostWrite v
  | ctrl => cases ht; exact { h with }
  | outLen | result | capIn | capOut | capBb | capNbb | reserved => cases ht; exact h

/-- Bytes written inside the IN window leave IN canonical and inside its window (R80). -/
theorem State.Inv.writeIn (h : s.Inv) {a : Nat} {bytes : List Byte} (ha : a + bytes.length ≤ s.params.inCap)
    (ht : s.writeIn a bytes = .next t) : t.Inv := by
  unfold State.writeIn at ht
  split at ht <;> cases ht
  refine { h with in_wf := Memory.writeBytes_wf a bytes h.in_wf, in_bound := fun c hc => ?_ }
  rcases Memory.mem_writeBytes hc with hold | ⟨-, hnew⟩
  · exact h.in_bound c hold
  · exact hnew.trans_le ha

theorem State.readWindow_eq_receive (s : State) (w : Window) (off width : Nat) :
    ∃ v n, s.readWindow w off width = s.receive v n := by
  cases w with
  | regs => exact ⟨_, _, rfl⟩
  | input | output =>
    simp only [State.readWindow]
    split <;> exact ⟨_, _, rfl⟩

/-- A host read is refused, or the host receives a value (R88, R90). -/
theorem hostAccess_read_cases (s : State) (addr width : Nat) :
    hostAccess (.read addr width) s = .refused .accessNotAdmitted ∨
    ∃ v n, hostAccess (.read addr width) s = .next (s.receive v n) := by
  rcases hw : windowAt s.params addr with _ | ⟨w, off⟩
  · exact .inl (by simp [Machine.hostAccess, hw])
  · cases ha : admitted w off width with
    | false => exact .inl (by simp [Machine.hostAccess, hw, ha])
    | true =>
      obtain ⟨v, n, hr⟩ := s.readWindow_eq_receive w off width
      exact .inr ⟨v, n, by simp [Machine.hostAccess, hw, ha, hr]⟩

/-- A host write that ends in a next state is one that its window admits (R88). -/
theorem hostAccess_write_next {addr width : Nat} {v : Word} (h : hostAccess (.write addr width v) s = .next t) :
    ∃ w off, windowAt s.params addr = some (w, off) ∧ admitted w off width = true ∧
      s.writeWindow w off width v = .next t := by
  rcases hw : windowAt s.params addr with _ | ⟨w, off⟩
  · simp [hostAccess, hw] at h
  · cases ha : admitted w off width with
    | false => simp [hostAccess, hw, ha] at h
    | true => exact ⟨w, off, rfl, ha, by simpa [hostAccess, hw, ha] using h⟩

/-- An offset of the IN window is below IN_CAP (20_memory.md R81). -/
theorem off_lt_of_windowAt_input {p : Params} {addr off : Nat} (h : windowAt p addr = some (.input, off)) :
    off < p.inCap := by
  unfold windowAt at h
  split_ifs at h with hr hi ho <;> cases h
  omega

theorem State.Inv.writeWindow (h : s.Inv) {w : Window} {addr off width : Nat} {v : Word}
    (hw : windowAt s.params addr = some (w, off)) (ha : admitted w off width = true)
    (ht : s.writeWindow w off width v = .next t) : t.Inv := by
  cases w with
  | regs => exact h.writeReg ht
  | output => cases ht; exact h
  | input =>
    have hoff := off_lt_of_windowAt_input hw
    refine h.writeIn ?_ ht
    rcases admitted_iff.1 ha with ⟨rfl, haligned⟩ | ⟨rfl, -⟩
    · obtain ⟨⟨-, -, -, -, -, -, -, hin, -⟩, -⟩ := h.params_valid
      rw [if_pos rfl, length_leBytes]
      omega
    · exact hoff

theorem State.Inv.hostAccess (h : s.Inv) {a : Access} (ht : hostAccess a s = .next t) : t.Inv := by
  cases a with
  | read addr width =>
    rcases hostAccess_read_cases s addr width with hr | ⟨v, n, hr⟩ <;> cases hr.symm.trans ht
    exact h.receive v n
  | write addr width v =>
    obtain ⟨w, off, hw, ha, ht⟩ := hostAccess_write_next ht
    exact h.writeWindow hw ha ht

/-! ### The end of a command -/

theorem ErrorCode.code_ne_zero (e : ErrorCode) : e.code ≠ 0 := by
  cases e <;> decide

theorem ErrorCode.code_le (e : ErrorCode) : e.code.toNat ≤ 6 := by
  cases e <;> decide

/-- An error leaves OUT_LEN 0 and a code other than 0 without ABSENT (R335). -/
theorem State.Inv.failed (h : s.Inv) (w : Bool) (e : ErrorCode) : (s.failed w e).Inv :=
  { h with
    out_wf := by cases w; exacts [h.out_wf, .nil]
    out_bound := by cases w; exacts [h.out_bound, nofun]
    outLen_le := Nat.zero_le _
    out_defined := fun a ha => absurd ha (Nat.not_lt_zero a)
    err_iff := iff_of_true rfl e.code_ne_zero
    errcode_le := e.code_le
    err_not_absent := fun _ => rfl
    busy_iff := rfl
    current_cmd := nofun
    busy_flags := nofun }

theorem State.Inv.completed (h : s.Inv) : s.completed.Inv :=
  { h with busy_iff := rfl, current_cmd := nofun, busy_flags := nofun }

/-! ### The effects of a command -/

theorem State.Inv.setResult (h : s.Inv) (w : Word) : (s.setResult w).Inv :=
  { h with }

/-- ABSENT may be set when no command is in flight and none failed (R46). -/
theorem State.Inv.markAbsent (h : s.Inv) (hbusy : s.status.busy = false) (herr : s.status.err = false) :
    s.markAbsent.Inv :=
  { h with
    err_not_absent := fun he => nomatch herr.symm.trans he
    busy_flags := fun hb => nomatch hbusy.symm.trans hb }

/-- A register written within BB_CAP_BITS keeps every register within it (R40). -/
theorem State.Inv.setBitBuffer (h : s.Inv) (rd : RegIx) {b : BitSeq} (hb : b.length ≤ s.params.bbCapBits) :
    (s.setBitBuffer rd b).Inv :=
  { h with
    bb_count := by simpa using h.bb_count
    bb_cap := fun x hx => by
      rcases List.mem_or_eq_of_mem_set hx with hold | rfl
      · exact h.bb_cap x hold
      · exact hb }

/-- A result within OUT_CAP defines OUT up to OUT_LEN (R85, R87). -/
theorem State.Inv.storeOut (h : s.Inv) {r : List Byte} (hr : r.length ≤ s.params.outCap) : (s.storeOut r).Inv := by
  obtain ⟨⟨-, -, -, -, -, -, -, -, -, hout, -⟩, -⟩ := h.params_valid
  have hlen : (BitVec.ofNat 64 r.length).toNat = r.length := by
    rw [BitVec.toNat_ofNat, Nat.mod_eq_of_lt (by omega)]
  refine { h with
    out_wf := Memory.ofBytes_wf 0 r
    out_bound := fun c hc => ?_
    outLen_le := hlen.trans_le hr
    out_defined := fun a ha => ?_ }
  · exact (Memory.mem_ofBytes hc).2.trans_le ((Nat.zero_add _).trans_le hr)
  · have ha' : a < r.length := ha.trans_eq hlen
    simp [Memory.read_ofBytes, ha']

/-- The code of a symbol is shorter than the smallest register (41_huffman.md R212). -/
theorem length_symbolCode_le {block : List Byte} {sym : Byte} {b : BitSeq} (h : symbolCode block sym = some b) :
    b.length ≤ 255 := by
  unfold symbolCode at h
  split at h
  · cases h
  · next t ht =>
    split at h <;> cases h
    exact buildTree_length_code_le (freqPass_bytes_nodup block) ht sym

/-- A command that completes after one of its effects keeps the invariant when no error stood before it. -/
theorem CommandEffect.inv_completed (hu : CommandEffect i s u) (h : s.Inv) (herr : s.status.err = false) :
    u.completed.Inv := by
  obtain ⟨⟨-, -, hbits, -, -, -, -, -, hout, -⟩, -⟩ := h.params_valid
  cases hu with
  | nothing => exact h.completed
  | buffer rd b hrd hb =>
    refine h.completed.setBitBuffer rd ?_
    rcases hb with hcap | ⟨block, sym, hcode⟩
    · exact hcap.trans (max_le (by simp; omega) le_rfl)
    · exact (length_symbolCode_le hcode).trans (by simp; omega)
  | result w => exact h.completed.setResult w
  | absentBit => exact (h.completed.setResult 0).markAbsent rfl herr
  | absentSymbol => exact h.completed.markAbsent rfl herr
  | stored r hw hr => exact h.completed.storeOut (hr (by omega))

/-! ### The engine's turn and the step -/

theorem State.Inv.exec (h : s.Inv) (herr : s.status.err = false) (ht : exec i s = .next t) : t.Inv := by
  have hend := exec_end i s
  rw [ht] at hend
  cases hend with
  | failed e => exact h.failed _ e
  | completed u hu => exact hu.inv_completed h herr

/-- A latched command stands under BUSY, so that no error stands before it runs (R31). -/
theorem State.Inv.engineTurn (h : s.Inv) (ht : engineTurn s = .next t) : t.Inv := by
  unfold Machine.engineTurn at ht
  split at ht
  · next c hc =>
    obtain ⟨-, herr, -⟩ := h.busy_flags (h.busy_iff.trans (by rw [hc]; rfl))
    cases hd : decode c with
    | ok i =>
      simp only [runWord, hd] at ht
      exact h.exec herr ht
    | error d =>
      cases (runWord_error s hd).symm.trans ht
      exact h.failed ..
  · cases ht
    exact h

theorem State.Inv.takeTurn (h : s.Inv) {turn : Turn} (ht : takeTurn turn s = .next t) : t.Inv := by
  cases turn with
  | access a => exact h.hostAccess ht
  | engine => exact h.engineTurn ht
  | reset => cases ht; exact h.platformReset

end

/-- Settles O60: a step is the engine's turn, or one of the three turns after it is taken off the list. -/
theorem everyStepKeepsTheInvariant : Obligations.EveryStepKeepsTheInvariant := by
  intro s t h ht
  unfold step at ht
  split at ht
  · exact h.engineTurn ht
  · exact (h.turns _).takeTurn ht

end Sys2Proof.Machine
end

section
/-! The engine's turn and the host's accesses at the level of a step (10_state.md R30 to R39, 20_memory.md R82, R86,
R88, R90, 60_exceptions.md R355): the register window's reads and writes, and the bytes of IN and OUT. -/

namespace Sys2Proof.Machine

section
variable {s : State} {c : Word} {rest : List Turn}

/-! ### The engine's turn -/

theorem step_of_no_turns (h : s.turns = []) : step s = engineTurn s := by
  simp only [step, h]

theorem step_engine (h : s.turns = .engine :: rest) : step s = engineTurn { s with turns := rest } := by
  simp only [step, h, takeTurn]

theorem engineTurn_latched (h : s.current = some c) : engineTurn s = runWord c s := by
  simp only [engineTurn, h]

theorem engineTurn_idle (h : s.current = none) : engineTurn s = .next s := by
  simp only [engineTurn, h]

/-- A word that decodes runs its command. -/
theorem runWord_ok {i : Instr} (s : State) (h : decode c = .ok i) : runWord c s = exec i s := by
  simp only [runWord, h]

theorem engineTurn_decoded {i : Instr} (hc : s.current = some c) (hd : decode c = .ok i) : engineTurn s = exec i s :=
  (engineTurn_latched hc).trans (runWord_ok s hd)

/-- A table word reads as the command its 64-bit word decodes to (30_encoding.md R120). -/
theorem decodeTableWord_eq_some_iff {nbits w : Nat} {i : Instr} :
    decodeTableWord nbits w = some i ↔ decode (tableWord nbits w) = .ok i := by
  unfold decodeTableWord
  cases decode (tableWord nbits w) <;> simp

end

/-- Settles O6: the turn is the engine's, and the latched word decodes to the command. -/
theorem stepRunsTheDecodedCommand : Obligations.StepRunsTheDecodedCommand := by
  refine fun s c i rest => ⟨fun hc hd => ⟨fun h => ?_, fun h => ?_⟩, fun nbits w hw => ?_⟩
  · exact (step_of_no_turns h).trans (engineTurn_decoded hc hd)
  · exact (step_engine h).trans (engineTurn_decoded hc hd)
  · exact (step_of_no_turns rfl).trans (engineTurn_decoded rfl (decodeTableWord_eq_some_iff.1 hw))

/-- Settles O7: the turn is the engine's, and no word is latched. -/
theorem idleEngineKeepsItsState : Obligations.IdleEngineKeepsItsState :=
  fun _ _ hc => ⟨fun h => (step_of_no_turns h).trans (engineTurn_idle hc),
    fun h => (step_engine h).trans (engineTurn_idle hc)⟩

/-! ### The register window -/

/-- Settles O8: CMD is at offset 0, a write to it while idle is `State.accept`, and the word it latches is the one the
engine's turn decodes. -/
theorem cmdWriteWhileIdleIsAccepted : Obligations.CmdWriteWhileIdleIsAccepted := by
  intro s c rest hidle hturns
  have haccept : step s = .next (State.accept { s with turns := rest } c) := by
    rw [step_writeReg (off := 0) (by decide) rfl hturns]
    exact if_neg (Bool.eq_false_iff.1 hidle)
  have hrun (t : State) (hc : t.current = some c) : step { t with turns := [] } = runWord c { t with turns := [] } :=
    (step_of_no_turns rfl).trans (engineTurn_latched hc)
  refine ⟨_, haccept, rfl, rfl, fun i hd => ?_, fun e hd => ?_⟩
  · rw [hrun _ rfl, runWord_ok _ hd]
  · exact ⟨_, (hrun _ rfl).trans (runWord_error _ hd), rfl, rfl⟩

/-- Settles O11: each of the five offsets names its register; IN_LEN and ARG ask BUSY first. -/
theorem registerWritesReachTheirRegister : Obligations.RegisterWritesReachTheirRegister := by
  intro s v rest
  refine ⟨fun hctrl => ?_, fun hidle hinLen => ?_, fun hidle harg => ?_, fun houtLen => ?_, fun hresult => ?_⟩
  · exact step_writeReg (by decide) rfl hctrl
  · exact (step_writeReg (by decide) rfl hinLen).trans (if_neg (Bool.eq_false_iff.1 hidle))
  · exact (step_writeReg (by decide) rfl harg).trans (if_neg (Bool.eq_false_iff.1 hidle))
  · exact step_writeReg (by decide) rfl houtLen
  · exact step_writeReg (by decide) rfl hresult

/-- Settles O14: each of the seven offsets names the register whose value is listed. -/
theorem registerReadsReturnTheirValue : Obligations.RegisterReadsReturnTheirValue := by
  intro s off v rest hmem hturns
  simp only [List.mem_cons, Prod.mk.injEq, List.not_mem_nil, or_false] at hmem
  obtain ⟨rfl, rfl⟩ | ⟨rfl, rfl⟩ | ⟨rfl, rfl⟩ | ⟨rfl, rfl⟩ | ⟨rfl, rfl⟩ | ⟨rfl, rfl⟩ | ⟨rfl, rfl⟩ := hmem <;>
    exact step_readReg (by decide) rfl hturns

/-! ### The STATUS word -/

/-- A one-bit field has its value at its place and 0 elsewhere. -/
theorem getLsbD_fieldBit (b : Bool) {k i : Nat} (hi : i < 64) : (fieldBit b k).getLsbD i = (decide (i = k) && b) := by
  cases b with
  | false => simp [fieldBit]
  | true =>
    change (BitVec.ofNat 64 (1 <<< k)).getLsbD i = _
    rw [BitVec.getLsbD_ofNat, Nat.one_shiftLeft, Nat.testBit_two_pow]
    simp [hi, eq_comm]

/-- Every bit of the STATUS word (R34). -/
theorem Status.getLsbD_word (st : Status) {i : Nat} (hi : i < 64) :
    st.word.getLsbD i =
      ((decide (i = 0) && st.busy) || (decide (i = 1) && st.done) || (decide (i = 2) && st.err) ||
        (decide (i = 3) && st.absent) || (decide (i = 4) && st.lost) ||
        (decide (8 ≤ i) && st.errcode.getLsbD (i - 8))) := by
  have hcode : (st.errcode.setWidth 64 <<< 8).getLsbD i = (decide (8 ≤ i) && st.errcode.getLsbD (i - 8)) := by
    rw [BitVec.getLsbD_shiftLeft, BitVec.getLsbD_setWidth, decide_eq_true hi,
      decide_eq_true (p := i - 8 < 64) (by omega), Bool.true_and, Bool.true_and, ← decide_not, decide_eq_decide.2 Nat.not_lt]
  simp only [Status.word, BitVec.getLsbD_or, getLsbD_fieldBit _ hi, hcode]

/-- From bit 5 on only ERRCODE stands in the STATUS word. -/
theorem Status.getLsbD_word_high (st : Status) {i : Nat} (hlo : 5 ≤ i) (hi : i < 64) :
    st.word.getLsbD i = (decide (8 ≤ i) && st.errcode.getLsbD (i - 8)) := by
  rw [st.getLsbD_word hi]
  simp [show i ≠ 0 by omega, show i ≠ 1 by omega, show i ≠ 2 by omega, show i ≠ 3 by omega, show i ≠ 4 by omega]

/-- Settles O15: each field is read off the bits of the word. -/
theorem statusWordFields : Obligations.StatusWordFields := by
  intro st
  refine ⟨?_, ?_, ?_, ?_, ?_, ?_, ?_, ?_⟩
  iterate 5 exact (st.getLsbD_word (by decide)).trans (by simp)
  all_goals
    refine BitVec.eq_of_getLsbD_eq fun i hi => ?_
    rw [BitVec.getLsbD_extractLsb', st.getLsbD_word_high (by omega) (by omega)]
  · simp [show ¬ 8 ≤ 5 + i by omega]
  · simp [hi]
  · simp [BitVec.getLsbD_of_ge st.errcode (16 + i - 8) (by omega)]

/-! ### Reads -/

/-- Settles O17: a read is refused, or the host receives a value. -/
theorem hostReadsChangeNothingOfTheEngine : Obligations.HostReadsChangeNothingOfTheEngine := by
  intro s addr width rest hturns
  rw [step_access hturns]
  exact hostAccess_read_cases _ addr width

/-! ### The bytes of IN and OUT -/

/-- Settles O19: the access writes the word's bytes, or its lowest one, from the offset on. -/
theorem inWritesAreLittleEndian : Obligations.InWritesAreLittleEndian := by
  intro s off v rest hidle hapart hoff
  have hwrite (bytes : List Byte) : State.writeIn { s with turns := rest } off bytes =
      .next { s with turns := rest, inMem := s.inMem.writeBytes off bytes } := if_neg (Bool.eq_false_iff.1 hidle)
  refine ⟨fun haligned hturns => ?_, fun hturns => ?_⟩
  · refine ⟨_, (step_writeIn hapart hoff (.inr ⟨rfl, haligned⟩) hturns).trans (hwrite _), fun j hj => ?_,
      fun a ha => ?_⟩
    · exact (Memory.read_writeBytes _ (by simpa using hj)).trans (getElem?_leBytes v hj)
    · exact Memory.read_writeBytes_other _ (by simpa using ha)
  · refine ⟨_, (step_writeIn hapart hoff (.inl rfl) hturns).trans (hwrite _), ?_, fun a ha => ?_⟩
    · exact (Memory.read_write_same ..).trans (congrArg some (BitVec.setWidth_eq_extractLsb' (by decide)))
    · exact Memory.read_write_other _ _ ha

theorem windowAt_output {p : Params} (hp : p.windowsApart) {off : Nat} (h : off < p.outCap) :
    windowAt p (p.outBase + off) = some (.output, off) :=
  (windowAt_eq_some_iff hp).2
    ⟨⟨Nat.le_add_right _ _, Nat.add_lt_add_left h _⟩, Nat.add_sub_cancel_left ..⟩

section
variable {s : State} {off width : Nat} {rest : List Turn}

/-- An admitted read in the IN window, of one byte or of an aligned word (R88). -/
theorem step_readIn (hp : s.params.windowsApart) (ho : off < s.params.inCap)
    (ha : width = 8 ∨ (width = 64 ∧ off % 8 = 0))
    (h : s.turns = .access (.read (s.params.inBase + off) width) :: rest) :
    step s = .next (State.readWindow { s with turns := rest } .input off width) := by
  have hadm : admitted .input off width = true := admitted_iff.2 (ha.symm.imp_right fun h8 => ⟨h8, nofun⟩)
  simp only [step_access h, hostAccess, windowAt_input hp ho, hadm, if_true]

/-- An admitted read in the OUT window. -/
theorem step_readOut (hp : s.params.windowsApart) (ho : off < s.params.outCap)
    (ha : width = 8 ∨ (width = 64 ∧ off % 8 = 0))
    (h : s.turns = .access (.read (s.params.outBase + off) width) :: rest) :
    step s = .next (State.readWindow { s with turns := rest } .output off width) := by
  have hadm : admitted .output off width = true := admitted_iff.2 (ha.symm.imp_right fun h8 => ⟨h8, nofun⟩)
  simp only [step_access h, hostAccess, windowAt_output hp ho, hadm, if_true]

end

/-- The eight bytes of a word, read one by one, make up the word (R82). -/
theorem leWord_map_range {f : Nat → Byte} {w : Word} (h : ∀ j, j < 8 → f j = w.extractLsb' (8 * j) 8) :
    leWord ((List.range 8).map f) = w := by
  rw [List.map_congr_left fun j hj => h j (List.mem_range.1 hj)]
  exact leWord_leBytes w

theorem State.inByte_of_read {s : State} {a : Nat} {b : Byte} (h : s.inMem.read a = some b) (draw : Nat) :
    s.inByte a draw = b := by
  rw [State.inByte, h, Option.getD_some]

theorem State.outByte_of_read {s : State} {a : Nat} {b : Byte} (hidle : s.status.busy = false)
    (h : s.outMem.read a = some b) (draw : Nat) : s.outByte a draw = b := by
  rw [State.outByte, hidle, if_neg (by decide), h, Option.getD_some]

/-- Settles O21: a read of defined bytes draws no free value into what it returns. -/
theorem outReadsAreLittleEndian : Obligations.OutReadsAreLittleEndian := by
  intro s off w b rest hapart
  have receive_congr {v v' : Word} (n : Nat) (hv : v = v') :
      (.next (State.receive { s with turns := rest } v n) : Result) =
        .next { s with turns := rest, reads := v' :: s.reads, draws := s.draws + n } := by rw [hv]; rfl
  refine ⟨fun hidle hoff => ⟨fun haligned hbytes hturns => ?_, fun hbyte hturns => ?_⟩,
    fun hoff => ⟨fun haligned hbytes hturns => ?_, fun hbyte hturns => ?_⟩⟩
  · exact (step_readOut hapart hoff (.inr ⟨rfl, haligned⟩) hturns).trans
      (receive_congr 8 (leWord_map_range fun j hj => State.outByte_of_read hidle (hbytes j hj) _))
  · exact (step_readOut hapart hoff (.inl rfl) hturns).trans
      (receive_congr 1 (congrArg _ (State.outByte_of_read hidle hbyte _)))
  · exact (step_readIn hapart hoff (.inr ⟨rfl, haligned⟩) hturns).trans
      (receive_congr 8 (leWord_map_range fun j hj => State.inByte_of_read (hbytes j hj) _))
  · exact (step_readIn hapart hoff (.inl rfl) hturns).trans
      (receive_congr 1 (congrArg _ (State.inByte_of_read hbyte _)))

end Sys2Proof.Machine
end

section
/-! How a command ends (60_exceptions.md R331 to R337) and what it leaves unchanged (10_state.md R36 to R40,
20_memory.md R80, R87): each fact is read off the ways a command can end. -/

namespace Sys2Proof.Machine

section
variable {i : Instr} {s t u : State}

/-! ### The ways a command ends -/

/-- A command that reaches a next state failed with an error of its own, or completed after one of its effects. -/
theorem exec_next_cases (h : exec i s = .next t) :
    (∃ e, e ≠ .illegalCommand ∧ t = s.failed (writesOut i) e) ∨ ∃ u, CommandEffect i s u ∧ t = u.completed := by
  have hend := exec_end i s
  rw [h] at hend
  cases hend with
  | failed e he => exact .inl ⟨e, he, rfl⟩
  | completed u hu => exact .inr ⟨u, hu, rfl⟩

/-- A command word reaches a next state as a command it decodes to, or as an illegal word. -/
theorem runWord_next_cases {c : Word} (h : runWord c s = .next t) :
    (∃ i, decode c = .ok i ∧ exec i s = .next t) ∨ t = s.failed false .illegalCommand := by
  cases hd : decode c with
  | ok i => exact .inl ⟨i, rfl, (runWord_ok s hd).symm.trans h⟩
  | error d =>
    cases (runWord_error s hd).symm.trans h
    exact .inr rfl

/-- A block that is not all written has an unwritten byte below IN_LEN (20_memory.md R84). -/
theorem exists_unwritten_of_inBlock_none (h : s.inBlock = none) :
    ∃ a, a < s.inLen.toNat ∧ s.inMem.read a = none := by
  suffices hrange : ∀ n a, s.inMem.readRange a n = none → ∃ x, x < a + n ∧ s.inMem.read x = none by
    simpa using hrange _ 0 h
  intro n
  induction n with
  | zero => exact nofun
  | succ n ih =>
    intro a hn
    cases hread : s.inMem.read a with
    | none => exact ⟨a, by omega, hread⟩
    | some b =>
      simp only [Memory.readRange, hread, Option.map_eq_none_iff] at hn
      obtain ⟨x, hx, hnone⟩ := ih (a + 1) hn
      exact ⟨x, by omega, hnone⟩

/-- Settles O27: each way a command ends is one of the two. -/
theorem everyCommandEnds : Obligations.EveryCommandEnds := by
  intro i s
  have hend := exec_end i s
  generalize exec i s = r at hend ⊢
  cases hend with
  | failed e => exact .inl ⟨_, rfl, rfl, rfl, rfl⟩
  | completed u hu => exact .inl ⟨_, rfl, rfl, rfl, rfl⟩
  | refused hi hb => exact .inr ⟨rfl, hi, exists_unwritten_of_inBlock_none hb⟩

/-! ### The common checks -/

theorem Instr.wellFormed_iff {nbb : Nat} : i.wellFormed nbb = true ↔ ∀ r ∈ i.registers, r.toNat < nbb := by
  simp [Instr.wellFormed]

/-- Every command asks the common checks before its own work. -/
theorem exec_eq_commonChecks (i : Instr) (s : State) : ∃ body, exec i s = commonChecks i s body := by
  cases i <;> exact ⟨_, rfl⟩

/-- A command that names a missing register ends with BAD_REGISTER (R331). -/
theorem exec_badRegister (h : i.wellFormed s.params.nbb = false) :
    exec i s = .next (s.failed (writesOut i) .badRegister) := by
  obtain ⟨body, hbody⟩ := exec_eq_commonChecks i s
  simp [hbody, commonChecks, h, raise]

/-- A command whose registers exist ends with BAD_LENGTH when it cannot take IN_LEN (R332). -/
theorem exec_badLength (hr : i.wellFormed s.params.nbb = true) (hl : (inputClass i).lengthOk s = false) :
    exec i s = .next (s.failed (writesOut i) .badLength) := by
  obtain ⟨body, hbody⟩ := exec_eq_commonChecks i s
  simp [hbody, commonChecks, hr, hl, raise]

/-- Settles O23: an illegal word fails before it is a command, and a missing register before anything else is asked. -/
theorem decodeChecksComeFirst : Obligations.DecodeChecksComeFirst := by
  intro s c hc hturns
  have hstep : step s = runWord c s := (step_of_no_turns hturns).trans (engineTurn_latched hc)
  refine ⟨fun e hd => ⟨_, hstep.trans (runWord_error s hd), rfl, rfl⟩, fun i hd ⟨r, hr, hbad⟩ => ?_⟩
  have hwf : i.wellFormed s.params.nbb = false :=
    Bool.eq_false_iff.2 fun hwf => (Instr.wellFormed_iff.1 hwf r hr).not_ge hbad
  exact ⟨_, hstep.trans ((runWord_ok s hd).trans (exec_badRegister hwf)), rfl, rfl⟩

/-- The lengths the classes do not take (R332). -/
theorem InputClass.lengthOk_eq_false {k : InputClass}
    (h : (k ≠ .noInput ∧ s.params.inCap < s.inLen.toNat) ∨ (k = .wordInput ∧ s.inLen.toNat % 8 ≠ 0)) :
    k.lengthOk s = false := by
  rcases h with ⟨hk, hcap⟩ | ⟨rfl, hmod⟩
  · cases k with
    | noInput => exact absurd rfl hk
    | byteInput | wordInput => simp [InputClass.lengthOk, hcap]
  · simp [InputClass.lengthOk, hmod]

/-- An effect leaves every flag but ABSENT (R334). -/
theorem CommandEffect.errcode_eq (h : CommandEffect i s u) : u.status.errcode = s.status.errcode := by
  cases h <;> rfl

/-- The checks of a command that reads no IN add BAD_REGISTER alone to the codes its own work ends with. -/
theorem commonChecks_noInput_errcode {body : Result} (hi : inputClass i = .noInput)
    (hbody : body = .next t → t.status.errcode = 5 ∨ t.status.errcode = s.status.errcode)
    (h : commonChecks i s body = .next t) :
    t.status.errcode = 2 ∨ t.status.errcode = 5 ∨ t.status.errcode = s.status.errcode := by
  rcases commonChecks_cases i s body with ⟨-, e⟩ | ⟨-, hl, -⟩ | ⟨-, -, e⟩
  · cases e.symm.trans h
    exact .inl rfl
  · rw [hi] at hl
    cases hl
  · exact .inr (hbody (e.symm.trans h))

/-- A command that reads no IN ends with BAD_REGISTER, CAPACITY, or the code that stood before. -/
theorem exec_noInput_errcode (hi : inputClass i = .noInput) (h : exec i s = .next t) :
    t.status.errcode = 2 ∨ t.status.errcode = 5 ∨ t.status.errcode = s.status.errcode := by
  cases i with
  | nop | bbClear | bbSingle | bbEq =>
    exact commonChecks_noInput_errcode hi (fun hbody => by cases hbody; exact .inr rfl) h
  | bbAppend rd rs1 =>
    refine commonChecks_noInput_errcode hi (fun hbody => ?_) h
    dsimp only at hbody
    split at hbody <;> cases hbody
    · exact .inl rfl
    · exact .inr rfl
  | bbBitat rs1 =>
    refine commonChecks_noInput_errcode hi (fun hbody => ?_) h
    split at hbody <;> cases hbody <;> exact .inr rfl
  | bbStore rs1 =>
    refine commonChecks_noInput_errcode hi (fun hbody => ?_) h
    rcases deliverWords_cases (.bbStore rs1) s (storeForm (s.bitBuffer rs1)) with ⟨-, e⟩ | ⟨-, e⟩ <;>
      cases e.symm.trans hbody
    · exact .inl rfl
    · exact .inr rfl
  | bbLoad | hufEnc | hufDec | hufFreq | hufCode | lzwEnc | lzwDec | lzwCodes | lzwPack | lzwUnpack | lzwExpand =>
    cases hi

/-- Settles O24: the length check follows the register check, and passes for a command that reads no IN. -/
theorem lengthCheckComesThird : Obligations.LengthCheckComesThird := by
  intro i s hwf
  refine ⟨fun hbad => ⟨_, exec_badLength hwf (InputClass.lengthOk_eq_false hbad), rfl, rfl⟩, fun hi t ht h3 => ?_⟩
  rcases exec_noInput_errcode hi ht with h | h | h
  · exact absurd (h.symm.trans h3) (by decide)
  · exact absurd (h.symm.trans h3) (by decide)
  · exact h.symm.trans h3

/-! ### Errors and completions -/

/-- The OUT-writing commands, listed (30_encoding.md R127). -/
theorem writesOut_iff : writesOut i = true ↔
    (∃ r, i = .bbStore r) ∨
      i ∈ [.hufEnc, .hufDec, .hufFreq, .lzwEnc, .lzwDec, .lzwCodes, .lzwPack, .lzwUnpack, .lzwExpand] := by
  cases i <;> simp [writesOut]

/-- The errors of a decoded command are numbered from 2 to 6 (R330). -/
theorem ErrorCode.two_le_code {e : ErrorCode} (h : e ≠ .illegalCommand) : 2 ≤ e.code.toNat := by
  cases e with
  | illegalCommand => exact absurd rfl h
  | badRegister | badLength | malformedStream | capacity | badOperand => decide

/-- Settles O25: a command that completes keeps ERR, so that one that sets it failed. -/
theorem errorsArePrecise : Obligations.ErrorsArePrecise := by
  refine ⟨fun c s d hd => runWord_error s hd, fun i s t h hs ht => ?_⟩
  rcases exec_next_cases h with ⟨e, he, rfl⟩ | ⟨u, hu, rfl⟩
  · exact ⟨e.code, ErrorCode.two_le_code he, e.code_le, by simp only [State.failed, writesOut_iff]; rfl⟩
  · exact nomatch (hu.status_err.trans hs).symm.trans ht

theorem CommandEffect.lost_eq (h : CommandEffect i s u) : u.status.lost = s.status.lost := by
  cases h <;> rfl

/-- Settles O26: no effect touches a flag but ABSENT, which only the two absent answers set. -/
theorem completionStatus : Obligations.CompletionStatus := by
  intro i s t h herr hcode habs ht
  rcases exec_next_cases h with ⟨e, he, rfl⟩ | ⟨u, hu, rfl⟩
  · cases ht
  · refine ⟨?_, rfl, fun h1 => ?_⟩
    · simp [Status.completed, hu.lost_eq, hu.errcode_eq, hu.status_err, herr, hcode]
    · rcases hu.absent_answer habs h1 with ⟨r, hi, -⟩ | ⟨r, sym, -, hi, -⟩
      · exact .inl ⟨r, hi⟩
      · exact .inr ⟨r, sym, hi⟩

/-! ### Frames -/

/-- No effect of a command reaches the host's registers, IN, LOST, or what is not the engine's. -/
theorem CommandEffect.host_side (h : CommandEffect i s u) :
    u.params = s.params ∧ u.cmd = s.cmd ∧ u.ie = s.ie ∧ u.inLen = s.inLen ∧ u.arg = s.arg ∧ u.inMem = s.inMem ∧
      u.turns = s.turns ∧ u.reads = s.reads ∧ u.draws = s.draws ∧ u.status.lost = s.status.lost := by
  cases h <;> exact ⟨rfl, rfl, rfl, rfl, rfl, rfl, rfl, rfl, rfl, rfl⟩

/-- Settles O28: neither an error nor an effect reaches them. -/
theorem engineLeavesTheHostsRegisters : Obligations.EngineLeavesTheHostsRegisters := by
  intro c s t h
  rcases runWord_next_cases h with ⟨i, -, h⟩ | rfl
  · rcases exec_next_cases h with ⟨e, -, rfl⟩ | ⟨u, hu, rfl⟩
    · exact ⟨rfl, rfl, rfl, rfl, rfl, rfl, rfl, rfl, rfl, rfl⟩
    · exact hu.host_side
  · exact ⟨rfl, rfl, rfl, rfl, rfl, rfl, rfl, rfl, rfl, rfl⟩

/-- An effect that changes RESULT is BB.BITAT's or BB.EQ's (R39). -/
theorem CommandEffect.writes_result (h : CommandEffect i s u) (hne : u.result ≠ s.result) :
    (∃ r, i = .bbBitat r) ∨ ∃ r r', i = .bbEq r r' := by
  cases h with
  | result w hi => exact hi.imp_left fun ⟨r, hr, _⟩ => ⟨r, hr⟩
  | absentBit r hi => exact .inl ⟨r, hi⟩
  | nothing | buffer | absentSymbol | stored => exact absurd rfl hne

/-- Settles O29: an error leaves RESULT, and so does every effect but those two commands'. -/
theorem resultIsWrittenOnlyByBitAtAndEq : Obligations.ResultIsWrittenOnlyByBitAtAndEq := by
  intro c s t h hne
  rcases runWord_next_cases h with ⟨i, hd, h⟩ | rfl
  · rcases exec_next_cases h with ⟨e, -, rfl⟩ | ⟨u, hu, rfl⟩
    · exact absurd rfl hne
    · exact ⟨i, hd, hu.writes_result hne⟩
  · exact absurd rfl hne

/-- The commands with a destination register. -/
theorem destination_eq_some {rd : RegIx} (h : destination i = some rd) :
    i = .bbClear rd ∨ (∃ v, i = .bbSingle rd v) ∨ (∃ r, i = .bbAppend rd r) ∨ i = .bbLoad rd ∨
      ∃ sym, i = .hufCode rd sym := by
  cases i with
  | bbClear | bbSingle | bbAppend | bbLoad | hufCode => simpa [destination] using h
  | nop | bbBitat | bbEq | bbStore | hufEnc | hufDec | hufFreq | lzwEnc | lzwDec | lzwCodes | lzwPack | lzwUnpack
  | lzwExpand => cases h

/-- An effect leaves every register but the destination. -/
theorem CommandEffect.bb_frame (h : CommandEffect i s u) :
    u.bb.length = s.bb.length ∧ ∀ k : Nat, u.bb[k]? ≠ s.bb[k]? → ∃ rd, rd.toNat = k ∧ destination i = some rd := by
  cases h with
  | buffer rd b hrd =>
    refine ⟨List.length_set, fun k hk => ⟨rd, ?_, hrd⟩⟩
    by_contra hne
    exact hk (List.getElem?_set_ne hne)
  | nothing | result | absentBit | absentSymbol | stored => exact ⟨rfl, fun k hk => absurd rfl hk⟩

/-- Settles O31: an error changes no register, and an effect only the destination. -/
theorem onlyTheDestinationBitBufferChanges : Obligations.OnlyTheDestinationBitBufferChanges := by
  intro i s t h
  rcases exec_next_cases h with ⟨e, -, rfl⟩ | ⟨u, hu, rfl⟩
  · exact ⟨rfl, fun k hk => absurd rfl hk⟩
  · obtain ⟨hlen, hframe⟩ := hu.bb_frame
    refine ⟨hlen, fun k hk => ?_⟩
    obtain ⟨rd, hrd, hdest⟩ := hframe k hk
    exact ⟨rd, hrd, destination_eq_some hdest⟩

/-- An effect that stores nothing leaves OUT and OUT_LEN (R87). -/
theorem CommandEffect.out_frame (h : CommandEffect i s u) (hi : writesOut i = false) :
    u.outMem = s.outMem ∧ u.outLen = s.outLen := by
  cases h with
  | stored r hw => cases hi.symm.trans hw
  | nothing | buffer | result | absentBit | absentSymbol => exact ⟨rfl, rfl⟩

/-- Settles O32: an error of such a command clears OUT_LEN alone, and its effects store nothing. -/
theorem otherCommandsLeaveOut : Obligations.OtherCommandsLeaveOut := by
  intro i s t h hstore hlist
  have hi : writesOut i = false :=
    Bool.eq_false_iff.2 fun hw => (writesOut_iff.1 hw).elim (fun ⟨r, hr⟩ => hstore r hr) hlist
  rcases exec_next_cases h with ⟨e, -, rfl⟩ | ⟨u, hu, rfl⟩
  · exact ⟨fun a => by simp [hi], fun _ ht => nomatch ht⟩
  · obtain ⟨hmem, hlen⟩ := hu.out_frame hi
    exact ⟨fun a => congrArg (Memory.read · a) hmem, fun _ _ => hlen⟩

end

end Sys2Proof.Machine
end

section
/-! The outcomes of the commands over the BitBuffer registers and of those that write words (40_bitbuffer.md R150 to
R158, 41_huffman.md R228 to R231): what a command does once its checks pass, and what a delivered result leaves in OUT. -/

namespace Sys2Proof.Machine

section
variable {i : Instr} {s : State} {block : List Byte}

/-! ### The checks that pass -/

/-- A byte-input command whose checks pass does its work on its block (60_exceptions.md R332, 20_memory.md R84). -/
theorem commonChecks_byteInput (hr : i.wellFormed s.params.nbb = true) (hi : inputClass i = .byteInput)
    (hlen : s.inLen.toNat ≤ s.params.inCap) (hb : s.inBlock = some block) (body : List Byte → Result) :
    commonChecks i s (withInBytes s body) = body block := by
  rw [commonChecks_pass hr (by simp [hi, InputClass.lengthOk, hlen]), withInBytes_some hb]

/-- A word-input command whose checks pass does its work on its words. -/
theorem commonChecks_wordInput (hr : i.wellFormed s.params.nbb = true) (hi : inputClass i = .wordInput)
    (hlen : s.inLen.toNat ≤ s.params.inCap) (hmod : s.inLen.toNat % 8 = 0) (hb : s.inBlock = some block)
    (body : List Word → Result) : commonChecks i s (withInWords s body) = body (wordsOfBytes block) := by
  rw [commonChecks_pass hr (by simp [hi, InputClass.lengthOk, hlen, hmod]), withInWords_some hb]

/-! ### Delivered results -/

/-- A byte result completes the command with OUT exactly its bytes (20_memory.md R85, R87). -/
theorem deliverBytes_eq (s : State) (r : List Byte) :
    ∃ m, deliverBytes s r = .next { s with
        outMem := m
        outLen := BitVec.ofNat 64 r.length
        status := { s.status with busy := false, done := true }
        current := none } ∧
      ∀ a, Memory.read m a = r[a]? :=
  ⟨Memory.ofBytes 0 r, rfl, fun a => by simp [Memory.read_ofBytes]⟩

/-- The end of an OUT-writing command with an error (60_exceptions.md R335). -/
theorem raise_of_writesOut (hi : writesOut i = true) (s : State) (e : ErrorCode) :
    raise i e s = .next { s with
      status := { s.status with busy := false, done := true, err := true, absent := false, errcode := e.code }
      current := none
      outLen := 0
      outMem := [] } := by
  rw [raise, hi]
  rfl

/-- The end of a command that leaves OUT with an error. -/
theorem raise_of_not_writesOut (hi : writesOut i = false) (s : State) (e : ErrorCode) :
    raise i e s = .next { s with
      status := { s.status with busy := false, done := true, err := true, absent := false, errcode := e.code }
      current := none
      outLen := 0 } := by
  rw [raise, hi]
  rfl

/-- Words that fit OUT complete the command with OUT exactly their bytes (R85, R87). -/
theorem deliverWords_of_le {ws : List Word} (h : 8 * ws.length ≤ s.params.outCap) :
    ∃ m, deliverWords i s ws = .next { s with
        outMem := m
        outLen := BitVec.ofNat 64 (8 * ws.length)
        status := { s.status with busy := false, done := true }
        current := none } ∧
      ∀ a, Memory.read m a = (bytesOfWords ws)[a]? := by
  have hfits : deliverWords i s ws = deliverBytes s (bytesOfWords ws) := if_neg (by omega)
  rw [hfits, ← length_bytesOfWords]
  exact deliverBytes_eq s (bytesOfWords ws)

/-- Words that do not fit OUT end the command with CAPACITY (R85). -/
theorem deliverWords_of_gt {ws : List Word} (hi : writesOut i = true) (h : s.params.outCap < 8 * ws.length) :
    deliverWords i s ws = .next { s with
      outMem := []
      outLen := 0
      status := { s.status with busy := false, done := true, err := true, absent := false, errcode := 5 }
      current := none } :=
  (if_pos h).trans (raise_of_writesOut hi s .capacity)

/-- An OUT-writing command that is the delivery of words writes them or fails with CAPACITY. -/
theorem writes_words_or_capacity {ws : List Word} (hi : writesOut i = true) (h : exec i s = deliverWords i s ws) :
    (8 * ws.length ≤ s.params.outCap →
      ∃ m, exec i s = .next { s with
          outMem := m
          outLen := BitVec.ofNat 64 (8 * ws.length)
          status := { s.status with busy := false, done := true }
          current := none } ∧
        ∀ a, Memory.read m a = (bytesOfWords ws)[a]?) ∧
    (s.params.outCap < 8 * ws.length →
      exec i s = .next { s with
        outMem := []
        outLen := 0
        status := { s.status with busy := false, done := true, err := true, absent := false, errcode := 5 }
        current := none }) := by
  rw [h]
  exact ⟨deliverWords_of_le, deliverWords_of_gt hi⟩

/-! ### NOP and the BitBuffer commands -/

theorem wordsOfBits_single (v : Bool) : wordsOfBits [v] = [if v then 0x8000000000000000 else 0] := by
  cases v <;> decide

/-- Settles O33: the checks of NOP always pass, and those of the other two when rd exists. -/
theorem nopClearAndSingleComplete : Obligations.NopClearAndSingleComplete := by
  intro s rd v status
  refine ⟨commonChecks_pass (i := .nop) (s := s) rfl rfl, fun hrd => ?_, rfl, wordsOfBits_single v⟩
  have hr : (Instr.bbClear rd).wellFormed s.params.nbb = true := by simp [Instr.wellFormed, Instr.registers, hrd]
  exact ⟨commonChecks_pass (i := .bbClear rd) hr rfl, commonChecks_pass (i := .bbSingle rd v) hr rfl⟩

/-- Settles O34: once both registers exist the command asks the length of the concatenation alone. -/
theorem appendConcatenatesOrFails : Obligations.AppendConcatenatesOrFails := by
  intro s rd rs1 hrd hrs1 a b
  have hexec : exec (.bbAppend rd rs1) s =
      if s.params.bbCapBits < a.length + b.length then raise (.bbAppend rd rs1) .capacity s
      else complete (s.setBitBuffer rd (a ++ b)) :=
    commonChecks_pass (by simp [Instr.wellFormed, Instr.registers, hrd, hrs1]) rfl
  rw [hexec]
  exact ⟨fun hfits => if_neg (by omega), fun hover => (if_pos hover).trans (raise_of_not_writesOut rfl s .capacity)⟩

/-- Settles O35: the command's two cases are whether the list of bits has the index. -/
theorem bitAtReadsOneBitOrIsAbsent : Obligations.BitAtReadsOneBitOrIsAbsent := by
  intro s rs1 hrs1 b
  have hexec : exec (.bbBitat rs1) s =
      match b[s.arg.toNat]? with
      | some v => complete (s.setResult (bitWord v))
      | none => complete (s.setResult 0).markAbsent :=
    commonChecks_pass (i := .bbBitat rs1) (by simp [Instr.wellFormed, Instr.registers, hrs1]) rfl
  rw [hexec]
  refine ⟨fun h => ?_, fun h => ?_⟩
  · rw [List.getElem?_eq_getElem h]
    rfl
  · rw [List.getElem?_eq_none h]
    rfl

/-- Settles O38: the command is the delivery of the stored form. -/
theorem storeWritesCountAndWords : Obligations.StoreWritesCountAndWords := by
  intro s rs1 hrs1 b n
  have hexec : exec (.bbStore rs1) s = deliverWords (.bbStore rs1) s (storeForm b) :=
    commonChecks_pass (i := .bbStore rs1) (by simp [Instr.wellFormed, Instr.registers, hrs1]) rfl
  have hn : n = 8 * (storeForm b).length := congrArg (8 * ·) (length_storeForm b).symm
  rw [hn]
  exact writes_words_or_capacity rfl hexec

/-! ### BB.LOAD -/

/-- The first n bits of words that hold so many, one by one (10_state.md R41). -/
theorem bitsOfWords_eq_map {ws : List Word} {n : Nat} (h : n ≤ 64 * ws.length) :
    bitsOfWords ws n = (List.range n).map fun i => (ws.getD (i / 64) 0).getLsbD (63 - i % 64) := by
  refine List.ext_getElem? fun i => ?_
  rw [bitsOfWords, List.getElem?_take]
  split
  · next hi =>
    have hw : i / 64 < ws.length := by omega
    have hplace := getElem?_flatMap_bitsOfWord (List.getElem?_eq_getElem hw) (Nat.mod_lt i (by decide))
    rw [Nat.div_add_mod] at hplace
    simp [hplace, hi, hw]
  · next hi => exact (List.getElem?_eq_none (by simpa using hi)).symm

/-- Settles O39: the command ends as the reading of its words does, and the register it writes has the bits of the words
one by one. -/
theorem loadReadsBackTheBits : Obligations.LoadReadsBackTheBits := by
  intro s rd block hrd hlen hmod hblock failed
  have hexec : exec (.bbLoad rd) s = orRaise (.bbLoad rd) s (loadForm s.params.bbCapBits (wordsOfBytes block))
      fun b => complete (s.setBitBuffer rd b) :=
    commonChecks_wordInput (by simp [Instr.wellFormed, Instr.registers, hrd]) rfl hlen hmod hblock _
  have hfail {e : ErrorCode} (h : loadForm s.params.bbCapBits (wordsOfBytes block) = .error e) :
      exec (.bbLoad rd) s = .next (failed e.code) := by
    rw [hexec, h]
    exact raise_of_not_writesOut (i := .bbLoad rd) rfl s e
  refine ⟨fun hnil => hfail (e := .malformedStream) (by rw [hnil]; rfl), fun n d hcons =>
    ⟨fun hd => hfail (e := .malformedStream) ?_, fun hd hcap => hfail (e := .capacity) ?_, fun hd hcap => ?_⟩⟩
  · rw [hcons]
    exact if_pos hd
  · rw [hcons]
    exact (if_neg (not_not.2 hd)).trans (if_pos hcap)
  · have hbits := bitsOfWords_eq_map (ws := d) (n := n.toNat) (by omega)
    have hload : loadForm s.params.bbCapBits (n :: d) = .ok (bitsOfWords d n.toNat) :=
      (if_neg (not_not.2 hd)).trans (if_neg (by omega))
    refine ⟨bitsOfWords d n.toNat, by simp [hbits], fun i hi => by simp [hbits, hi], ?_⟩
    rw [hexec, hcons, hload]
    rfl

/-! ### The Huffman commands -/

/-- HUF.ENC with its checks passed delivers the encoding of its block (R228). -/
theorem exec_hufEnc (hlen : s.inLen.toNat ≤ s.params.inCap) (hblock : s.inBlock = some block) :
    exec .hufEnc s = deliverWords .hufEnc s (hufEncode block) :=
  commonChecks_byteInput (i := .hufEnc) rfl rfl hlen hblock _

/-- Settles O47: each command is the delivery of its words. -/
theorem hufEncAndFreqWriteTheirWords : Obligations.HufEncAndFreqWriteTheirWords := by
  intro s block i ws hmem hlen hblock
  simp only [List.mem_cons, Prod.mk.injEq, List.not_mem_nil, or_false] at hmem
  obtain ⟨rfl, rfl⟩ | ⟨rfl, rfl⟩ := hmem
  · exact writes_words_or_capacity rfl (exec_hufEnc hlen hblock)
  · exact writes_words_or_capacity rfl (commonChecks_byteInput (i := .hufFreq) rfl rfl hlen hblock _)

/-- HUF.DEC with its checks passed decodes its words (R229). -/
theorem exec_hufDec (hlen : s.inLen.toNat ≤ s.params.inCap) (hmod : s.inLen.toNat % 8 = 0)
    (hblock : s.inBlock = some block) :
    exec .hufDec s =
      orRaise .hufDec s (hufDecode s.params.outCap (wordsOfBytes block)) fun r => deliverBytes s r :=
  commonChecks_wordInput (i := .hufDec) rfl rfl hlen hmod hblock _

/-- Settles O48: the words HUF.ENC stored are the block of HUF.DEC, which decodes them to what was encoded. -/
theorem hufDecInvertsHufEnc : Obligations.HufDecInvertsHufEnc := by
  intro s t block hinv hlen hblock ht hserr hterr hin hout u
  obtain ⟨⟨-, -, -, -, -, -, hinCap, -, -, houtCap, -⟩, -⟩ := hinv.params_valid
  have hblockLen : block.length = s.inLen.toNat := Memory.length_readRange hblock
  rw [exec_hufEnc hlen hblock] at ht
  rcases deliverWords_cases .hufEnc s (hufEncode block) with ⟨-, e⟩ | ⟨hfit, e⟩ <;> cases e.symm.trans ht
  · cases hterr
  · have hbytes : (bytesOfWords (hufEncode block)).length < 2 ^ 64 := by
      rw [length_bytesOfWords]
      omega
    have hublock : u.inBlock = some (bytesOfWords (hufEncode block)) := inBlock_of_ofBytes rfl rfl hbytes
    have hulen : u.inLen.toNat = 8 * (hufEncode block).length := by
      rw [← length_bytesOfWords]
      exact (Memory.length_readRange hublock).symm
    have hdec : exec .hufDec u = deliverBytes u block := by
      rw [exec_hufDec hin (by omega) hublock, wordsOfBytes_bytesOfWords,
        huffmanRoundTrip block u.params.outCap hout (by omega), orRaise_ok]
    rw [hdec]
    exact deliverBytes_eq u block

/-- A symbol of the block has a code, that of the block's tree (R231). -/
theorem symbolCode_of_mem {sym : Byte} (h : sym ∈ block) :
    ∃ root, buildTree (freqPass block) = some root ∧ symbolCode block sym = some (root.code sym) := by
  cases ht : buildTree (freqPass block) with
  | none => simp [eq_nil_of_buildTree_none ht] at h
  | some t => exact ⟨t, rfl, by simp [symbolCode, ht, (occurs_iff_mem_block ht sym).2 h]⟩

/-- Settles O49: the symbol has a code exactly when it is in the block, that of the block's tree. -/
theorem hufCodeWritesTheCodeOrIsAbsent : Obligations.HufCodeWritesTheCodeOrIsAbsent := by
  intro s rd sym block hrd hlen hblock
  have hexec : exec (.hufCode rd sym) s =
      match symbolCode block sym with
      | none => complete s.markAbsent
      | some code => complete (s.setBitBuffer rd code) :=
    commonChecks_byteInput (i := .hufCode rd sym) (by simp [Instr.wellFormed, Instr.registers, hrd]) rfl hlen hblock _
  refine ⟨fun hsym => ?_, fun hsym => ?_⟩
  · obtain ⟨root, hroot, hcode⟩ := symbolCode_of_mem hsym
    refine ⟨root, _, hroot, rfl, ?_⟩
    rw [hexec, hcode]
    rfl
  · rw [hexec, symbolCode_eq_none_iff.2 hsym]
    rfl

end

end Sys2Proof.Machine
end

section
/-! The slots of packed words and the LZW commands that write words (42_lzw.md R264 to R268, R280, R282 to R284). -/

namespace Sys2Proof.Machine

/-! ### A slot as a bit field -/

/-- Slot t of a word, from the top on (R264). -/
abbrev slotField (w : Word) (sl t : Nat) : BitVec sl := w.extractLsb' (64 - (t + 1) * sl) sl

theorem toNat_slotField (w : Word) (sl t : Nat) :
    (slotField w sl t).toNat = w.toNat / 2 ^ (64 - (t + 1) * sl) % 2 ^ sl := by
  rw [BitVec.extractLsb'_toNat, Nat.shiftRight_eq_div_pow]

/-- Unpacking a slot is sign extension (R267, R268). -/
theorem unpackedSlot_eq_signExtend (w : Word) {sl t : Nat} (ht : (t + 1) * sl ≤ 64) (hsl : 0 < sl) :
    (w <<< (t * sl)).sshiftRight (64 - sl) = (slotField w sl t).signExtend 64 := by
  refine BitVec.eq_of_getLsbD_eq fun i hi => ?_
  rw [getLsbD_unpackedSlot w ht hsl hi, BitVec.getLsbD_signExtend, decide_eq_true hi, Bool.true_and]
  split
  · next h => simp [h, show min i (sl - 1) = i by omega]
  · next h => simp [BitVec.msb_eq_getLsbD_last, hsl, show min i (sl - 1) = sl - 1 by omega]

/-- A value narrower than a word, sign-extended to it (R268). -/
theorem toNat_signExtend_64 {sl : Nat} (hsl : sl ≤ 64) (x : BitVec sl) :
    (x.signExtend 64).toNat = if x.toNat < 2 ^ (sl - 1) then x.toNat else 2 ^ 64 - 2 ^ sl + x.toNat := by
  rw [BitVec.toNat_signExtend, BitVec.toNat_setWidth_of_le hsl, BitVec.msb_eq_decide]
  by_cases h : x.toNat < 2 ^ (sl - 1)
  · simp [h, Nat.not_le.2 h]
  · simp [h, Nat.not_lt.1 h, Nat.add_comm]

/-- Settles O53: the slot's bit field is sign-extended. -/
theorem unpackSignExtendsSlots : Obligations.UnpackSignExtendsSlots := by
  intro st t w hst ht sl slot
  obtain ⟨-, hsl, hword⟩ := stride_slots st hst
  have hslot : (t + 1) * sl ≤ 64 := (Nat.mul_le_mul_right _ ht).trans hword
  have hget : (slotsOfWord st w).getD t 0 = (slotField w sl t).signExtend 64 := by
    rw [← unpackedSlot_eq_signExtend w hslot hsl]
    simp [slotsOfWord, List.getD_eq_getElem?_getD, ht, sl]
  rw [hget, toNat_signExtend_64 (Nat.div_le_self 64 st), toNat_slotField]

/-- A slot of packed elements holds the low bits of its element, and 0 past the last one (R264, R265). -/
theorem slotField_packSlots {xs : List Word} {sl t : Nat} (hlen : xs.length * sl ≤ 64) (ht : (t + 1) * sl ≤ 64) :
    slotField (packSlots sl 0 xs) sl t = (xs.getD t 0).setWidth sl := by
  refine BitVec.eq_of_getLsbD_eq fun i hi => ?_
  rw [BitVec.getLsbD_extractLsb', getLsbD_packSlots xs (by simpa using hlen) ht hi]
  simp [hi]

/-! ### LzwPack -/

theorem exists_eq_maxWord {v : List Word} (hv : v ≠ []) : ∃ x ∈ v, x.toNat = maxWord v := by
  induction v with
  | nil => exact absurd rfl hv
  | cons y v ih =>
    by_cases hy : maxWord v ≤ y.toNat
    · exact ⟨y, List.mem_cons_self, (Nat.max_eq_left hy).symm⟩
    · have hv' : v ≠ [] := fun h => hy (by rw [h]; exact Nat.zero_le _)
      obtain ⟨x, hx, hmax⟩ := ih hv'
      exact ⟨x, List.mem_cons_of_mem _ hx, hmax.trans (Nat.max_eq_right (Nat.le_of_not_le hy)).symm⟩

theorem toNat_lt_of_clear {v : List Word} (h : ∀ x ∈ v, x.getLsbD 63 = false) : ∀ x ∈ v, x.toNat < 2 ^ 63 := by
  intro x hx
  have := BitVec.msb_eq_false_iff_two_mul_lt.1 ((BitVec.msb_eq_getLsbD_last x).trans (h x hx))
  omega

/-- A sequence with bit 63 set somewhere does not pack (R266). -/
theorem lzwPack_badOperand {v : List Word} (h : ∃ x ∈ v, x.getLsbD 63 = true) : lzwPack v = .error .badOperand :=
  if_pos (by simpa [BitVec.msb_eq_getLsbD_last] using h)

/-- Slot t of packed word j holds element j * st + t, and 0 past the last one (R265). -/
theorem slot_packWords {st j t : Nat} {v : List Word} (hst : st ∈ [1, 2, 4, 8])
    (hfit : ∀ x ∈ v, x.toNat < 2 ^ (64 / st - 1)) (hj : j < (packWords st v).length) (ht : t < st) :
    (slotField ((packWords st v).getD j 0) (64 / st) t).toNat = (v.getD (j * st + t) 0).toNat := by
  obtain ⟨-, hsl, hword⟩ := stride_slots st hst
  have hget : (packWords st v).getD j 0 = packSlots (64 / st) 0 ((v.drop (j * st)).take st) := by
    rw [length_packWords] at hj
    simp [packWords, List.getD_eq_getElem?_getD, hj]
  have helem : ((v.drop (j * st)).take st).getD t 0 = v.getD (j * st + t) 0 := by
    simp [List.getD_eq_getElem?_getD, List.getElem?_take_of_lt ht]
  have hlt : (v.getD (j * st + t) 0).toNat < 2 ^ (64 / st) := by
    rcases Nat.lt_or_ge (j * st + t) v.length with h | h
    · rw [List.getD_eq_getElem _ _ h]
      exact (hfit _ (List.getElem_mem h)).trans_le (Nat.pow_le_pow_right (by decide) (Nat.sub_le ..))
    · rw [List.getD_eq_default _ _ h]
      exact Nat.two_pow_pos _
  rw [hget, slotField_packSlots ((Nat.mul_le_mul_right _ (List.length_take_le ..)).trans hword)
    ((Nat.mul_le_mul_right _ ht).trans hword), helem, BitVec.toNat_setWidth, Nat.mod_eq_of_lt hlt]

/-! ### LzwUnpack -/

/-- A wrong header raises MALFORMED_STREAM (R267). -/
theorem lzwUnpack_malformed {stWord cntWord : Word} {pw : List Word}
    (h : stWord.toNat ∉ [1, 2, 4, 8] ∨ pw.length ≠ ceilDiv cntWord.toNat stWord.toNat) :
    lzwUnpack (stWord :: cntWord :: pw) = .error .malformedStream := by
  by_cases hst : stWord.toNat ∈ [1, 2, 4, 8]
  · exact (if_neg (not_not.2 hst)).trans (if_pos (h.resolve_left (not_not.2 hst)))
  · exact if_pos hst

/-- The unpacked value i is slot i mod st of word i div st, sign-extended (R267). -/
theorem getD_unpacked {st cnt i : Nat} {pw : List Word} (hst : 0 < st) (hpw : pw.length = ceilDiv cnt st)
    (hi : i < cnt) :
    ((pw.flatMap (slotsOfWord st)).take cnt).getD i 0 =
      (pw.getD (i / st) 0 <<< (i % st * (64 / st))).sshiftRight (64 - 64 / st) := by
  have hj : i / st < pw.length := hpw ▸ div_lt_ceilDiv hst hi
  have hplace := getElem?_flatMap_slotsOfWord (List.getElem?_eq_getElem hj) (Nat.mod_lt i hst)
  rw [Nat.div_add_mod'] at hplace
  rw [List.getD_eq_getElem?_getD, List.getElem?_take_of_lt hi, hplace, Option.getD_some, List.getD_eq_getElem _ _ hj]

/-- Words of the right number hold the values that the header counts (R267). -/
theorem length_unpacked {st cnt : Nat} {pw : List Word} (hst : 0 < st) (hpw : pw.length = ceilDiv cnt st) :
    ((pw.flatMap (slotsOfWord st)).take cnt).length = cnt := by
  have hlen : (pw.flatMap (slotsOfWord st)).length = pw.length * st := by simp [List.length_flatMap]
  rw [List.length_take, hlen, hpw]
  refine Nat.min_eq_left ?_
  rcases Nat.eq_zero_or_pos cnt with rfl | hcnt
  · exact Nat.zero_le _
  · have := (Nat.div_lt_iff_lt_mul hst).1 (div_lt_ceilDiv hst (Nat.sub_one_lt_of_lt hcnt))
    omega

/-! ### The commands -/

section
variable {i : Instr} {s : State} {block : List Byte}

/-- The codes of a block within the bound of R272 pack, the empty block's to nothing (R280). -/
theorem lzwPack_scanWords (hlen : block.length < 2 ^ 56) :
    lzwPack (scanWords block) = .ok (if block = [] then [] else
      BitVec.ofNat 64 (chooseStride (maxWord (scanWords block))) :: BitVec.ofNat 64 (scanWords block).length ::
        packWords (chooseStride (maxWord (scanWords block))) (scanWords block)) := by
  have hnil : scanWords block = [] ↔ block = [] := by
    obtain ⟨-, -, hnil, -⟩ := scanCodesAreBounded block
    rw [scanWords, List.map_eq_nil_iff, hnil]
  by_cases hb : block = []
  · rw [if_pos hb, hnil.2 hb]
    rfl
  · rw [if_neg hb]
    exact lzwPack_of_ne_nil (fun h => hb (hnil.1 h)) (getLsbD_63_of_mem_scanWords hlen)

/-- Settles O55: the codes of a block that IN can hold have bit 63 clear, so that they pack. -/
theorem lzwEncAndCodesWriteTheirWords : Obligations.LzwEncAndCodesWriteTheirWords := by
  intro s block i ws hrange v st hmem hlen hblock
  obtain ⟨-, -, -, -, -, -, hinCap, -⟩ := hrange
  have hblockLen : block.length = s.inLen.toNat := Memory.length_readRange hblock
  simp only [List.mem_cons, Prod.mk.injEq, List.not_mem_nil, or_false] at hmem
  obtain ⟨rfl, rfl⟩ | ⟨rfl, rfl⟩ := hmem
  · exact writes_words_or_capacity rfl (commonChecks_byteInput (i := .lzwCodes) rfl rfl hlen hblock _)
  · refine writes_words_or_capacity rfl ((commonChecks_byteInput (i := .lzwEnc) rfl rfl hlen hblock _).trans ?_)
    rw [lzwPack_scanWords (by omega), orRaise_ok]
    rfl

/-- Settles O56: the packed and the unpacked words are read off slot by slot, and each command ends as its function
does. -/
theorem lzwPackAndUnpackWriteTheirWords : Obligations.LzwPackAndUnpackWriteTheirWords := by
  refine ⟨fun v => ⟨lzwPack_badOperand, fun hv => by rw [hv]; rfl, fun hv hclear => ?_⟩, rfl, fun _ => rfl,
    fun stWord cntWord pw => ⟨lzwUnpack_malformed, fun hst hpw => ?_⟩, fun s block i r hmem hlen hmod hblock => ?_⟩
  · obtain ⟨hst, hmax⟩ := chooseStride_fits (maxWord_lt (by decide) (toNat_lt_of_clear hclear))
    refine ⟨maxWord v, packWords (chooseStride (maxWord v)) v, fun x => le_maxWord, exists_eq_maxWord hv,
      lzwPack_of_ne_nil hv hclear, length_packWords .., fun j t hj ht => ?_⟩
    rw [← toNat_slotField]
    exact slot_packWords hst (fun x hx => (le_maxWord hx).trans_lt hmax) hj ht
  · obtain ⟨hpos, -⟩ := stride_slots _ hst
    exact ⟨_, (if_neg (not_not.2 hst)).trans (if_neg (not_not.2 hpw)), length_unpacked hpos hpw,
      fun i hi => getD_unpacked hpos hpw hi⟩
  · obtain ⟨hi, hexec⟩ : writesOut i = true ∧ exec i s = orRaise i s r fun ws => deliverWords i s ws := by
      simp only [List.mem_cons, Prod.mk.injEq, List.not_mem_nil, or_false] at hmem
      obtain ⟨rfl, rfl⟩ | ⟨rfl, rfl⟩ := hmem
      · exact ⟨rfl, commonChecks_wordInput (i := .lzwPack) rfl rfl hlen hmod hblock _⟩
      · exact ⟨rfl, commonChecks_wordInput (i := .lzwUnpack) rfl rfl hlen hmod hblock _⟩
    rw [hexec]
    refine ⟨fun ws hr hfit => ?_, fun ws hr hover => ?_, fun e hr => ?_⟩ <;> rw [hr]
    · exact deliverWords_of_le hfit
    · exact deliverWords_of_gt hi hover
    · exact raise_of_writesOut hi s e

end

end Sys2Proof.Machine
end

section
/-! What the Huffman decoder gives and raises in terms of its stream (41_huffman.md R215, R217). -/

namespace Sys2Proof.Machine

/-! ### The form of the stream -/

theorem toNat_extractLsb'_56 (w : Word) : (w.extractLsb' 0 56).toNat = w.toNat % 2 ^ 56 := by
  rw [BitVec.extractLsb'_toNat, Nat.shiftRight_zero]

theorem entryOfWord_eq (w : Word) : entryOfWord w = (w.extractLsb' 56 8, (w.extractLsb' 0 56).toNat) :=
  Prod.ext rfl ((entryOfWord_snd w).trans (toNat_extractLsb'_56 w).symm)

/-- A stream that does not raise MALFORMED_STREAM is in form (R215). -/
theorem exists_huffmanForm {cap : Nat} {w : List Word} (h : hufDecode cap w ≠ .error .malformedStream) :
    ∃ T nb body, HuffmanForm w T nb body := by
  cases w with
  | nil => exact absurd rfl h
  | cons nWord rest =>
    simp only [hufDecode] at h
    -- a check that fails raises MALFORMED_STREAM; the goal left is that of a stream that passes all five
    split_ifs at h with hcount hlen hzero hnodup hbody
    iterate 4 exact absurd rfl h
    swap
    · exact absurd rfl h
    have hn : nWord.toNat < rest.length := by simpa using hlen
    have htake : (rest.take nWord.toNat).length = nWord.toNat := List.length_take_of_le hn.le
    refine ⟨rest.take nWord.toNat, rest.getD nWord.toNat 0, rest.drop (nWord.toNat + 1), ?_, ?_, ?_, ?_, ?_⟩
    · rw [htake, BitVec.ofNat_toNat, BitVec.setWidth_eq, List.getD_eq_getElem _ _ hn, ← List.drop_eq_getElem_cons hn,
        List.cons_append, List.take_append_drop]
    · omega
    · intro x hx h0
      refine hzero (List.any_eq_true.2 ⟨_, List.mem_map_of_mem hx, ?_⟩)
      rw [entryOfWord_eq, h0]
      rfl
    · rw [((sortEntries_perm _).map _).nodup_iff, List.map_map] at hnodup
      exact hnodup
    · exact not_not.1 hbody

/-- A stream that is not in form raises MALFORMED_STREAM (R215). -/
theorem hufDecode_of_not_form {cap : Nat} {w : List Word} (h : ¬ ∃ T nb body, HuffmanForm w T nb body) :
    hufDecode cap w = .error .malformedStream :=
  by_contra fun hne => h (exists_huffmanForm hne)

/-- The bits of a stream in form, one by one. -/
theorem HuffmanForm.bits_eq {w T body : List Word} {nb : Word} (h : HuffmanForm w T nb body) :
    bitsOfWords body nb.toNat = (List.range nb.toNat).map fun i => (body.getD (i / 64) 0).getLsbD (63 - i % 64) := by
  obtain ⟨-, -, -, -, hbody⟩ := h
  exact bitsOfWords_eq_map (by omega)

theorem HuffmanForm.length_bits {w T body : List Word} {nb : Word} (h : HuffmanForm w T nb body) :
    (bitsOfWords body nb.toNat).length = nb.toNat := by
  rw [h.bits_eq, List.length_map, List.length_range]

/-! ### The leaves of a tree -/

/-- The bytes at a tree's leaves, from left to right. -/
def Tree.leaves : Tree → List Byte
  | .leaf s => [s]
  | .node l r => l.leaves ++ r.leaves

theorem Tree.mem_leaves {x : Byte} {t : Tree} : x ∈ t.leaves ↔ t.occurs x = true := by
  induction t with
  | leaf y => simp [Tree.leaves]
  | node l r ihl ihr => simp [Tree.leaves, ihl, ihr]

theorem Tree.length_leaves (t : Tree) : t.leaves.length = t.leafCount := by
  induction t with
  | leaf y => rfl
  | node l r ihl ihr => rw [Tree.leaves, Tree.leafCount, List.length_append, ihl, ihr]

/-- The tree of a table with distinct bytes has each of them at one leaf: it has no more leaves than bytes. -/
theorem buildTree_leaves_nodup {E : List Entry} {t : Tree} (hE : (E.map (·.1)).Nodup) (h : buildTree E = some t) :
    t.leaves.Nodup := by
  have hsub : (E.map (·.1)).Subperm t.leaves :=
    hE.subperm fun x hx => Tree.mem_leaves.2 ((buildTree_occurs_iff h x).2 hx)
  refine (hsub.perm_of_length_le ?_).nodup_iff.1 hE
  rw [Tree.length_leaves, buildTree_leafCount h, List.length_map]

/-! ### The walk -/

section
variable {l r : Tree} {cap n : Nat} {block : List Byte} {rest : BitSeq}

/-- The walk through the codes of bytes that fit emits the bytes and goes on with the rest (R215). -/
theorem walk_codes_append (hocc : ∀ x ∈ block, (Tree.node l r).occurs x = true) (hcap : n + block.length ≤ cap) :
    walk (.node l r) cap (block.flatMap (fun x => (Tree.node l r).code x) ++ rest) (.node l r) 0 n =
      (walk (.node l r) cap rest (.node l r) 0 (n + block.length)).map (block ++ ·) := by
  induction block generalizing n with
  | nil => cases h : walk (.node l r) cap rest (.node l r) 0 n <;> simp [h, Except.map]
  | cons x block ih =>
    obtain ⟨hx, hblock⟩ := List.forall_mem_cons.1 hocc
    rw [List.length_cons] at hcap
    rw [List.flatMap_cons, List.append_assoc]
    refine (walkFrom_code hx _ 0 n).trans ((if_neg (by omega)).trans ?_)
    rw [ih hblock (by omega), List.length_cons, Nat.add_right_comm, ← Nat.add_assoc]
    cases walk (.node l r) cap rest (.node l r) 0 (n + block.length + 1) <;> rfl

/-- The walk through one byte more than fits raises CAPACITY (R215). -/
theorem walk_codes_capacity (hocc : ∀ x ∈ block, (Tree.node l r).occurs x = true) (hlen : n + block.length = cap + 1)
    (hn : n ≤ cap) :
    walk (.node l r) cap (block.flatMap (fun x => (Tree.node l r).code x) ++ rest) (.node l r) 0 n =
      .error .capacity := by
  obtain ⟨front, x, rfl⟩ : ∃ front x, block = front ++ [x] := by
    rcases List.eq_nil_or_concat block with rfl | ⟨front, x, h⟩
    · rw [List.length_nil] at hlen; omega
    · exact ⟨front, x, by simpa using h⟩
  obtain ⟨hfront, hx⟩ := List.forall_mem_append.1 hocc
  have hfull : n + front.length = cap := by simpa [← Nat.add_assoc] using hlen
  have hlast : walk (.node l r) cap ((Tree.node l r).code x ++ rest) (.node l r) 0 (n + front.length) =
      .error .capacity :=
    (walkFrom_code (hx x (List.mem_singleton_self x)) rest 0 _).trans (if_pos (by omega))
  rw [List.flatMap_append, List.flatMap_singleton, List.append_assoc, walk_codes_append hfront hfull.le, hlast]
  rfl

/-- Bits that no code begins lead the walk to their end off the root (R215). -/
theorem walkFrom_no_code {root t : Tree} {bits : BitSeq} {depth : Nat} (hnodup : t.leaves.Nodup)
    (hcode : ∀ x, t.occurs x = true → ¬ t.code x <+: bits) (hend : bits ≠ [] ∨ depth ≠ 0) :
    walkFrom root cap bits depth n t = .error .malformedStream := by
  induction t generalizing bits depth with
  | leaf y => exact absurd List.nil_prefix (hcode y (Tree.occurs_leaf.2 rfl))
  | node l r ihl ihr =>
    obtain ⟨hl, hr, hdisj⟩ := List.nodup_append.1 hnodup
    cases bits with
    | nil => exact if_neg (hend.resolve_left (absurd rfl))
    | cons b bits =>
      refine (walk_cons ..).trans ?_
      cases b with
      | false =>
        refine ihl hl (fun x hx hpre => hcode x (Tree.occurs_node.2 (.inl hx)) ?_) (.inr (Nat.succ_ne_zero _))
        rw [Tree.code_left hx]
        exact List.cons_prefix_cons.2 ⟨rfl, hpre⟩
      | true =>
        refine ihr hr (fun x hx hpre => hcode x (Tree.occurs_node.2 (.inr hx)) ?_) (.inr (Nat.succ_ne_zero _))
        have hlx : l.occurs x = false := Bool.eq_false_iff.2 fun hl =>
          hdisj x (Tree.mem_leaves.2 hl) x (Tree.mem_leaves.2 hx) rfl
        rw [Tree.code_right hlx]
        exact List.cons_prefix_cons.2 ⟨rfl, hpre⟩

end

/-! ### Decoding under a table -/

/-- Without entries only the empty bit sequence decodes, to nothing (R215). -/
theorem decodeBits_nil (cap : Nat) (bits : BitSeq) :
    decodeBits [] cap bits = if bits.length ≠ 0 then .error .malformedStream else .ok [] := rfl

/-- With one entry only the empty bit sequence decodes, to the byte as often as it counts (R217). -/
theorem decodeBits_singleton (b : Byte) (c cap : Nat) (bits : BitSeq) :
    decodeBits [(b, c)] cap bits =
      if bits.length ≠ 0 then .error .malformedStream
      else if cap < c then .error .capacity
      else .ok (List.replicate c b) := by
  have htree : buildTree [(b, c)] = some (.leaf b) := rfl
  simp [decodeBits, htree]

/-- With two entries or more the walk decodes the bits from the root on (R215). -/
theorem decodeBits_of_two_le {E : List Entry} {t : Tree} (hE : 2 ≤ E.length) (ht : buildTree E = some t) :
    ∃ l r, t = .node l r ∧ ∀ cap bits, decodeBits E cap bits = walk t cap bits t 0 0 := by
  cases t with
  | leaf y =>
    have hone : 1 = E.length := buildTree_leafCount ht
    omega
  | node l r => exact ⟨l, r, rfl, fun cap bits => by simp only [decodeBits, ht]⟩

theorem bytes_nodup_of_ascending {E : List Entry} (hasc : E.Pairwise fun x y => x.1.toInt < y.1.toInt) :
    (E.map (·.1)).Nodup :=
  List.pairwise_map.2 (hasc.imp fun hlt heq => hlt.ne (congrArg BitVec.toInt heq))

/-- The sorted table of a stream is its entries in strictly ascending order (R205, R215). -/
theorem sortEntries_eq_of_ascending {E F : List Entry} (hperm : E.Perm F)
    (hasc : E.Pairwise fun x y => x.1.toInt < y.1.toInt) : sortEntries F = E := by
  rw [← sortEntries_congr hperm (bytes_nodup_of_ascending hasc), sortEntries_of_ascending (hasc.imp Int.le_of_lt)]

/-! ### Decoding a stream in form -/

section
variable {w T body : List Word} {nb : Word} {cap : Nat}

/-- A stream in form has no bits exactly when its bit count is 0. -/
theorem HuffmanForm.length_bits_ne_zero_iff (h : HuffmanForm w T nb body) :
    (bitsOfWords body nb.toNat).length ≠ 0 ↔ nb ≠ 0 := by
  rw [h.length_bits, not_iff_not]
  exact BitVec.toNat_inj (y := 0)

theorem HuffmanForm.decode_nil (h : HuffmanForm w [] nb body) :
    hufDecode cap w = if nb = 0 then .ok [] else .error .malformedStream := by
  rw [hufDecode_of_form cap h]
  refine (decodeBits_nil cap _).trans ?_
  simp only [h.length_bits_ne_zero_iff, ite_not]

theorem HuffmanForm.decode_singleton {x : Word} (h : HuffmanForm w [x] nb body) :
    hufDecode cap w =
      if nb ≠ 0 then .error .malformedStream
      else if cap < (x.extractLsb' 0 56).toNat then .error .capacity
      else .ok (List.replicate (x.extractLsb' 0 56).toNat (x.extractLsb' 56 8)) := by
  have hsort : sortEntries ([x].map entryOfWord) = [(x.extractLsb' 56 8, (x.extractLsb' 0 56).toNat)] :=
    congrArg (fun e => [e]) (entryOfWord_eq x)
  rw [hufDecode_of_form cap h, hsort, decodeBits_singleton]
  simp only [h.length_bits_ne_zero_iff]

/-- With two entries or more a stream whose bits are the codes of bytes that fit and a rest: no rest gives the bytes, and
a rest that no code begins raises MALFORMED_STREAM; the codes of one byte too many raise CAPACITY (R215). -/
theorem HuffmanForm.decode_codes {E : List Entry} {t : Tree} {bytes : List Byte} {rest : BitSeq}
    (h : HuffmanForm w T nb body) (hT : 2 ≤ T.length) (hperm : E.Perm (T.map entryOfWord))
    (hasc : E.Pairwise fun x y => x.1.toInt < y.1.toInt) (ht : buildTree E = some t)
    (hocc : ∀ x ∈ bytes, t.occurs x = true)
    (hbits : bitsOfWords body nb.toNat = bytes.flatMap (fun x => t.code x) ++ rest) :
    (rest = [] → bytes.length ≤ cap → hufDecode cap w = .ok bytes) ∧
    (bytes.length = cap + 1 → hufDecode cap w = .error .capacity) ∧
    (rest ≠ [] → bytes.length ≤ cap → (∀ x, t.occurs x = true → ¬ t.code x <+: rest) →
      hufDecode cap w = .error .malformedStream) := by
  obtain ⟨l, r, rfl, hwalk⟩ := decodeBits_of_two_le (by rwa [hperm.length_eq, List.length_map]) ht
  rw [hufDecode_of_form cap h, sortEntries_eq_of_ascending hperm hasc, hwalk, hbits]
  refine ⟨fun hrest hcap => ?_, fun hcap => ?_, fun hrest hcap hcode => ?_⟩
  · rw [walk_codes_append hocc (by omega), hrest]
    exact congrArg Except.ok (List.append_nil bytes)
  · exact walk_codes_capacity hocc (by omega) (Nat.zero_le _)
  · have hend : walk (.node l r) cap rest (.node l r) 0 (0 + bytes.length) = .error .malformedStream :=
      walkFrom_no_code (buildTree_leaves_nodup (bytes_nodup_of_ascending hasc) ht) hcode (.inl hrest)
    rw [walk_codes_append hocc (by omega), hend]
    rfl

end

end Sys2Proof.Machine
end

section
/-! What the LZW expansion raises in terms of its codes (42_lzw.md R270, R271), and the outcomes of the commands that
write decoded bytes (41_huffman.md R229, 42_lzw.md R281, R285). -/

namespace Sys2Proof.Machine

/-! ### The expansion -/

theorem except_map_nil_append {ε α : Type} (x : Except ε (List α)) : x.map ([] ++ ·) = x := by
  cases x <;> rfl

theorem except_map_map_append {ε α : Type} (x : Except ε (List α)) (a b : List α) :
    (x.map (b ++ ·)).map (a ++ ·) = x.map (a ++ b ++ ·) := by
  cases x <;> simp [Except.map]

section
variable {v : List Word} {strings : List (List Byte)} {cap n : Nat} {cur : List Byte}

/-- One round of the loop on a code that stands for a string: CAPACITY if the strings so far do not fit, else the string
is appended and the dictionary grows by an entry (R270). -/
theorem expandLoop_cons_of_codesStandFor (h : CodesStandFor (v.map (·.toInt)) strings) {x : Word} {s : List Byte}
    (hx : v[n + 1]? = some x) (hcur : strings[n]? = some cur) (hs : strings[n + 1]? = some s) (tail : List Word) :
    expandLoop cap (entriesOf strings n) cur (strings.take (n + 1)).flatten.length (x :: tail) =
      if cap < (strings.take (n + 2)).flatten.length then .error .capacity
      else (expandLoop cap (entriesOf strings (n + 1)) s (strings.take (n + 2)).flatten.length tail).map (s ++ ·) := by
  have hentry := entryFor_entriesOf h (k := x.toInt) (by simp [hx]) hcur hs
  rw [expandLoop, hentry, flatten_take_succ hs, List.length_append, ← entriesOf_succ hcur hs]

/-- The loop over codes that stand for strings: CAPACITY if the strings do not fit, else they are appended and the loop
goes on with what follows the codes (R270). -/
theorem expandLoop_append (h : CodesStandFor (v.map (·.toInt)) strings) (hcur : strings[n]? = some cur)
    (hfit : (strings.take (n + 1)).flatten.length ≤ cap) (rest : List Word) :
    expandLoop cap (entriesOf strings n) cur (strings.take (n + 1)).flatten.length (v.drop (n + 1) ++ rest) =
      if cap < strings.flatten.length then .error .capacity
      else (expandLoop cap (entriesOf strings (v.length - 1)) (strings.getD (v.length - 1) []) strings.flatten.length
        rest).map ((strings.drop (n + 1)).flatten ++ ·) := by
  have hlen : strings.length = v.length := by simpa using h.1
  have hn : n < strings.length := (List.getElem?_eq_some_iff.1 hcur).1
  induction hv : v.drop (n + 1) generalizing n cur with
  | nil =>
    have hend : v.length ≤ n + 1 := List.drop_eq_nil_iff.1 hv
    have hlast : v.length - 1 = n := by omega
    rw [List.take_of_length_le (by omega)] at hfit ⊢
    rw [if_neg (by omega), hlast, List.getD_eq_getElem?_getD, hcur, Option.getD_some, List.nil_append,
      List.drop_eq_nil_of_le (by omega), List.flatten_nil, except_map_nil_append]
  | cons x tail ih =>
    have hn' : n + 1 < v.length := by
      by_contra hge
      rw [List.drop_eq_nil_of_le (by omega)] at hv
      cases hv
    rw [List.drop_eq_getElem_cons hn'] at hv
    obtain ⟨rfl, htail⟩ := List.cons.inj hv
    have hns : n + 1 < strings.length := hlen ▸ hn'
    have hs := List.getElem?_eq_getElem hns
    rw [List.cons_append, expandLoop_cons_of_codesStandFor h (List.getElem?_eq_getElem hn') hcur hs]
    by_cases hcap : cap < (strings.take (n + 2)).flatten.length
    · rw [if_pos hcap, if_pos (hcap.trans_le (length_flatten_take_le strings _))]
    · rw [if_neg hcap, ih hs (Nat.le_of_not_lt hcap) hns htail, List.drop_eq_getElem_cons hns, List.flatten_cons]
      split
      · rfl
      · rw [except_map_map_append]

/-- The whole expansion of codes that stand for strings, and of what follows them. -/
theorem lzwExpand_append (h : CodesStandFor (v.map (·.toInt)) strings) (hv : v ≠ []) (hcap : 1 ≤ cap)
    (rest : List Word) :
    lzwExpand cap (v ++ rest) =
      if cap < strings.flatten.length then .error .capacity
      else (expandLoop cap (entriesOf strings (v.length - 1)) (strings.getD (v.length - 1) []) strings.flatten.length
        rest).map (strings.flatten ++ ·) := by
  obtain ⟨x, codes, rfl⟩ := List.exists_cons_of_ne_nil hv
  obtain ⟨h0, hle, hstr⟩ := h.2 0 x.toInt rfl
  have hx := toNat_toInt_of_nonneg h0
  rw [hx, dictString_byte (by omega)] at hstr
  obtain ⟨s, tail, rfl⟩ : ∃ s tail, strings = s :: tail :=
    List.exists_cons_of_ne_nil fun hnil => by simp [hnil] at hstr
  obtain rfl : s = [BitVec.ofNat 8 x.toNat] := by simpa using hstr
  have hloop : expandLoop cap [] [BitVec.ofNat 8 x.toNat] 1 (codes ++ rest) = _ :=
    expandLoop_append (n := 0) h hstr hcap rest
  rw [List.cons_append, lzwExpand, if_neg (by omega)]
  simp only [hloop]
  split
  · rfl
  · exact except_map_map_append _ _ _

/-- A code that is negative or above the next free one is no entry (R270). -/
theorem expandLoop_of_no_entry {D : List (List Byte)} {x : Word} (hx : x.toInt < 0 ∨ 256 + D.length < x.toInt)
    (rest : List Word) : expandLoop cap D cur n (x :: rest) = .error .malformedStream := by
  have hnone : entryFor D cur x.toInt = none := by
    rw [entryFor, if_neg (by omega), if_neg (by omega)]
  rw [expandLoop, hnone]

/-- Codes that stand for strings that fit raise MALFORMED_STREAM at a code that is no entry (R270, R271). -/
theorem lzwExpand_malformed (h : CodesStandFor (v.map (·.toInt)) strings) (hcap : 1 ≤ cap)
    (hfit : strings.flatten.length ≤ cap) {x : Word} (hx : x.toInt < 0 ∨ 255 + v.length < x.toInt) (rest : List Word) :
    lzwExpand cap (v ++ x :: rest) = .error .malformedStream := by
  rcases eq_or_ne v [] with rfl | hv
  · exact if_pos (by simpa using hx)
  · have hpos := List.length_pos_of_ne_nil hv
    rw [lzwExpand_append h hv hcap, if_neg (by omega),
      expandLoop_of_no_entry (by simp only [entriesOf, List.length_map, List.length_range]; omega)]
    rfl

/-- Codes that stand for strings that do not fit raise CAPACITY, whatever follows (R270). -/
theorem lzwExpand_capacity (h : CodesStandFor (v.map (·.toInt)) strings) (hcap : 1 ≤ cap)
    (hover : cap < strings.flatten.length) (rest : List Word) :
    lzwExpand cap (v ++ rest) = .error .capacity := by
  rcases eq_or_ne v [] with rfl | hv
  · rw [List.length_eq_zero_iff.1 h.1] at hover
    exact absurd hover (Nat.not_lt_zero _)
  · rw [lzwExpand_append h hv hcap, if_pos hover]

end

/-! ### The commands -/

section
variable {s : State} {block : List Byte}

/-- LZW.EXPAND with its checks passed expands its words (R285). -/
theorem exec_lzwExpand (hlen : s.inLen.toNat ≤ s.params.inCap) (hmod : s.inLen.toNat % 8 = 0)
    (hblock : s.inBlock = some block) :
    exec .lzwExpand s =
      orRaise .lzwExpand s (lzwExpand s.params.outCap (wordsOfBytes block)) fun r => deliverBytes s r :=
  commonChecks_wordInput (i := .lzwExpand) rfl rfl hlen hmod hblock _

/-- LZW.DEC with its checks passed unpacks its words and expands what they hold (R281). -/
theorem exec_lzwDec (hlen : s.inLen.toNat ≤ s.params.inCap) (hmod : s.inLen.toNat % 8 = 0)
    (hblock : s.inBlock = some block) :
    exec .lzwDec s =
      orRaise .lzwDec s (lzwUnpack (wordsOfBytes block)) fun v =>
        orRaise .lzwDec s (lzwExpand s.params.outCap v) fun r => deliverBytes s r :=
  commonChecks_wordInput (i := .lzwDec) rfl rfl hlen hmod hblock _

/-- What LZW.DEC expands its words to (R281). -/
def lzwDecode (cap : Nat) (w : List Word) : Except ErrorCode (List Byte) :=
  match lzwUnpack w with
  | .ok v => lzwExpand cap v
  | .error e => .error e

/-- The three commands that write decoded bytes write those of their functions, which keep within OUT_CAP. -/
theorem byteOutput_of_mem {i : Instr} {r : Except ErrorCode (List Byte)} (hrange : s.params.inRange)
    (hlen : s.inLen.toNat ≤ s.params.inCap) (hmod : s.inLen.toNat % 8 = 0) (hblock : s.inBlock = some block)
    (hmem : (i, r) ∈ [(.hufDec, hufDecode s.params.outCap (wordsOfBytes block)),
      (.lzwExpand, lzwExpand s.params.outCap (wordsOfBytes block)),
      (.lzwDec, lzwDecode s.params.outCap (wordsOfBytes block))]) :
    writesOut i = true ∧ (exec i s = orRaise i s r fun bs => deliverBytes s bs) ∧
      ∀ bs, r = .ok bs → bs.length ≤ s.params.outCap := by
  obtain ⟨-, -, -, -, -, -, -, -, hout, -⟩ := hrange
  have hcap : 1 ≤ s.params.outCap := by omega
  simp only [List.mem_cons, Prod.mk.injEq, List.not_mem_nil, or_false] at hmem
  obtain ⟨rfl, rfl⟩ | ⟨rfl, rfl⟩ | ⟨rfl, rfl⟩ := hmem
  · exact ⟨rfl, exec_hufDec hlen hmod hblock, fun _ => length_hufDecode⟩
  · exact ⟨rfl, exec_lzwExpand hlen hmod hblock, fun _ => length_lzwExpand hcap⟩
  · rw [exec_lzwDec hlen hmod hblock, lzwDecode]
    cases lzwUnpack (wordsOfBytes block) with
    | ok v => exact ⟨rfl, rfl, fun _ => length_lzwExpand hcap⟩
    | error e => exact ⟨rfl, rfl, nofun⟩

end

/-- Settles O57: a stream in form is decoded under its sorted table, codes that stand for strings are expanded one by
one, and each command ends as its function does. -/
theorem decodersWriteTheirBytes : Obligations.DecodersWriteTheirBytes := by
  refine ⟨fun cap w => hufDecode_of_not_form, fun cap w T nb body h => ⟨?_, ?_, ?_⟩,
    fun cap v strings hcap h => ⟨fun hfit => ⟨lzwExpand_of_codesStandFor h hfit, fun x rest hx =>
      lzwExpand_malformed h hcap hfit hx rest⟩, fun hover => lzwExpand_capacity h hcap hover⟩, ?_⟩
  · rintro rfl
    exact h.decode_nil
  · rintro x rfl c
    rw [h.decode_singleton]
    exact ⟨fun hnb => if_pos hnb, fun hnb hover => (if_neg (not_not.2 hnb)).trans (if_pos hover),
      fun hnb hfit => (if_neg (not_not.2 hnb)).trans (if_neg (Nat.not_lt.2 hfit))⟩
  · intro E t r rest bits hT hperm hasc ht hocc hbits
    have hperm' : E.Perm (T.map entryOfWord) := by rwa [funext entryOfWord_eq]
    exact h.decode_codes hT hperm' hasc ht hocc (h.bits_eq.trans hbits)
  · intro s block i r hrange w cap hmem hlen hmod hblock
    obtain ⟨hi, hexec, hbound⟩ := byteOutput_of_mem hrange hlen hmod hblock hmem
    rw [hexec]
    refine ⟨fun bs hr => ⟨hbound bs hr, ?_⟩, fun e hr => ?_⟩ <;> rw [hr]
    · exact deliverBytes_eq s bs
    · exact raise_of_writesOut hi s e

end Sys2Proof.Machine
end
